-- ==== Sys2Proof/Word.lean ====
section
/-! DEFINITION. The word types of the core: bytes, 16-bit words, and the two narrow fields of an
instruction word that are neither (rules R31, R33, R34, R90, R91). -/

namespace Sys2Proof

/-- A byte: a general register, a timer, `SP`, a cell of the store or of a grid (R31, R35 to R38). -/
abbrev Byte := BitVec 8

/-- A 16-bit word: `PC`, `I`, an instruction word, a word of the call stack (R33, R34, R62, R90). -/
abbrev Word := BitVec 16

/-- A 4-bit field of an instruction word: a register index `x` or `y`, or the count `n` (R91, R92).
Every one of its 16 values names a register. -/
abbrev Nibble := BitVec 4

/-- The 12-bit address field `nnn` of an instruction word (R91). -/
abbrev Addr12 := BitVec 12

/-- The index of `VF`, the flag register (R32). -/
abbrev vf : Nibble := 0xF#4

end Sys2Proof
end

