-- ==== Sys2Proof/Syntax.lean ====
section
/-! DEFINITION. The instructions: one constructor for each of the 42 rows of rule R96 and of
spec/opcode_table.json, in the table's order. -/

namespace Sys2Proof

/-- An instruction of the core (R96). `x` and `y` are register indexes, `n` a count, `kk` an 8-bit and
`nnn` a 12-bit immediate (R91). `SHR` and `SHL` carry the `y` of their word although they do not read
`V[Y]` (R101), so that no bit of a word is lost. -/
inductive Instr where
  /-- `00E0` CLS (R175). -/
  | cls
  /-- `00EE` RET (R122). -/
  | ret
  /-- `00Cn` SCD n (R180). -/
  | scd (n : Nibble)
  /-- `00FB` SCR (R181). -/
  | scr
  /-- `00FC` SCL (R182). -/
  | scl
  /-- `00FD` EXIT (R131). -/
  | exit
  /-- `00FE` LOW (R184). -/
  | low
  /-- `00FF` HIGH (R183). -/
  | high
  /-- `1nnn` JP nnn (R123). -/
  | jp (nnn : Addr12)
  /-- `2nnn` CALL nnn (R121). -/
  | call (nnn : Addr12)
  /-- `3xkk` SE Vx, kk (R126). -/
  | seImm (x : Nibble) (kk : Byte)
  /-- `4xkk` SNE Vx, kk (R127). -/
  | sneImm (x : Nibble) (kk : Byte)
  /-- `5xy0` SE Vx, Vy (R128). -/
  | seReg (x y : Nibble)
  /-- `6xkk` LD Vx, kk (R140). -/
  | ldImm (x : Nibble) (kk : Byte)
  /-- `7xkk` ADD Vx, kk (R141). -/
  | addImm (x : Nibble) (kk : Byte)
  /-- `8xy0` LD Vx, Vy (R143). -/
  | ldReg (x y : Nibble)
  /-- `8xy1` OR Vx, Vy (R144). -/
  | orReg (x y : Nibble)
  /-- `8xy2` AND Vx, Vy (R145). -/
  | andReg (x y : Nibble)
  /-- `8xy3` XOR Vx, Vy (R146). -/
  | xorReg (x y : Nibble)
  /-- `8xy4` ADD Vx, Vy (R147). -/
  | addReg (x y : Nibble)
  /-- `8xy5` SUB Vx, Vy (R148). -/
  | sub (x y : Nibble)
  /-- `8xy6` SHR Vx (R149). -/
  | shr (x y : Nibble)
  /-- `8xy7` SUBN Vx, Vy (R150). -/
  | subn (x y : Nibble)
  /-- `8xyE` SHL Vx (R151). -/
  | shl (x y : Nibble)
  /-- `9xy0` SNE Vx, Vy (R129). -/
  | sneReg (x y : Nibble)
  /-- `Annn` LD I, nnn (R215). -/
  | ldI (nnn : Addr12)
  /-- `Bnnn` JP V0, nnn (R124). -/
  | jpV0 (nnn : Addr12)
  /-- `Cxkk` RND Vx, kk (R160). -/
  | rnd (x : Nibble) (kk : Byte)
  /-- `Dxyn`, n ≠ 0: DRW Vx, Vy, n (R176). -/
  | drw (x y n : Nibble)
  /-- `Dxy0` DRW Vx, Vy, 0 (R177). -/
  | drw16 (x y : Nibble)
  /-- `Ex9E` SKP Vx (R200). -/
  | skp (x : Nibble)
  /-- `ExA1` SKNP Vx (R201). -/
  | sknp (x : Nibble)
  /-- `Fx07` LD Vx, DT (R202). -/
  | ldVxDt (x : Nibble)
  /-- `Fx0A` LD Vx, K (R203). -/
  | ldVxK (x : Nibble)
  /-- `Fx15` LD DT, Vx (R204). -/
  | ldDtVx (x : Nibble)
  /-- `Fx18` LD ST, Vx (R205). -/
  | ldStVx (x : Nibble)
  /-- `Fx1E` ADD I, Vx (R217). -/
  | addI (x : Nibble)
  /-- `Fx29` LD F, Vx (R218). -/
  | ldF (x : Nibble)
  /-- `Fx30` LD HF, Vx (R219). -/
  | ldHf (x : Nibble)
  /-- `Fx33` LD B, Vx (R220). -/
  | ldB (x : Nibble)
  /-- `Fx55` LD [I], Vx (R221). -/
  | ldMemVx (x : Nibble)
  /-- `Fx65` LD Vx, [I] (R222). -/
  | ldVxMem (x : Nibble)
deriving DecidableEq, Repr

end Sys2Proof
end

