-- ==== Sys2Proof/WellFormed.lean ====
section
/-! DEFINITION. Which terms of `Instr` an instruction word can stand for. -/

namespace Sys2Proof

/-- The one check that the field widths of `Instr` do not already make: `DRW Vx, Vy, n` has n ≠ 0,
because `Dxy0` is the other row of the table (R95, R96). -/
def Instr.wellFormed : Instr → Bool
  | .drw _ _ n => n != 0#4
  | .cls | .ret | .scd _ | .scr | .scl | .exit | .low | .high | .jp _ | .call _ | .seImm _ _
  | .sneImm _ _ | .seReg _ _ | .ldImm _ _ | .addImm _ _ | .ldReg _ _ | .orReg _ _ | .andReg _ _
  | .xorReg _ _ | .addReg _ _ | .sub _ _ | .shr _ _ | .subn _ _ | .shl _ _ | .sneReg _ _ | .ldI _
  | .jpV0 _ | .rnd _ _ | .drw16 _ _ | .skp _ | .sknp _ | .ldVxDt _ | .ldVxK _ | .ldDtVx _
  | .ldStVx _ | .addI _ | .ldF _ | .ldHf _ | .ldB _ | .ldMemVx _ | .ldVxMem _ => true

end Sys2Proof
end

