-- ==== Sys2Proof/Decode.lean ====
section
/-! DEFINITION. The decoder of rule R94, total on any bytes and rejecting by name, and the encoder
written from the same patterns (R93, R96). -/

namespace Sys2Proof

/-! ### The fields of an instruction word (R91) -/

/-- `op`, bits 15:12. -/
def fieldOp (w : Word) : Nibble := w.extractLsb' 12 4

/-- `x`, bits 11:8. -/
def fieldX (w : Word) : Nibble := w.extractLsb' 8 4

/-- `y`, bits 7:4. -/
def fieldY (w : Word) : Nibble := w.extractLsb' 4 4

/-- `n`, bits 3:0. -/
def fieldN (w : Word) : Nibble := w.extractLsb' 0 4

/-- `kk`, bits 7:0. -/
def fieldKK (w : Word) : Byte := w.extractLsb' 0 8

/-- `nnn`, bits 11:0. -/
def fieldNNN (w : Word) : Addr12 := w.extractLsb' 0 12

/-! ### Decoding -/

/-- Why bytes are no instruction: the word lies in one of the six parts of the invalid space of R98, or
there are not two bytes. -/
inductive DecodeError where
  /-- An op-0 word outside the 23 listed ones, `0000` and the `0nnn` machine-code call among them
  (R98, R100). -/
  | invalidOp0 (w : Word)
  /-- `5xyN` with N ≠ 0 (R98, D11). -/
  | invalidOp5 (w : Word)
  /-- `8xyN` with N one of 8, 9, A, B, C, D, F (R98). -/
  | invalidOp8 (w : Word)
  /-- `9xyN` with N ≠ 0 (R98, D11). -/
  | invalidOp9 (w : Word)
  /-- `ExKK` with KK neither 9E nor A1 (R98). -/
  | invalidOpE (w : Word)
  /-- `FxKK` with KK not of the ten listed, `Fx75` and `Fx85` among them (R98, R99). -/
  | invalidOpF (w : Word)
  /-- Fewer than two bytes: every instruction has exactly two (R90). -/
  | truncated
deriving DecidableEq, Repr

/-- Op 0: `00Cn`, then the seven words of the op-0 list (R94). -/
def decodeOp0 (w : Word) : Except DecodeError Instr :=
  if fieldX w ≠ 0x0#4 then .error (.invalidOp0 w)
  else if fieldY w = 0xC#4 then .ok (.scd (fieldN w))
  else match fieldKK w with
    | 0xE0#8 => .ok .cls
    | 0xEE#8 => .ok .ret
    | 0xFB#8 => .ok .scr
    | 0xFC#8 => .ok .scl
    | 0xFD#8 => .ok .exit
    | 0xFE#8 => .ok .low
    | 0xFF#8 => .ok .high
    | _ => .error (.invalidOp0 w)

/-- Op 8: the nine operations over `V[X]`, `V[Y]`, by the low nibble (R94, R142). -/
def decodeOp8 (w : Word) : Except DecodeError Instr :=
  match fieldN w with
  | 0x0#4 => .ok (.ldReg (fieldX w) (fieldY w))
  | 0x1#4 => .ok (.orReg (fieldX w) (fieldY w))
  | 0x2#4 => .ok (.andReg (fieldX w) (fieldY w))
  | 0x3#4 => .ok (.xorReg (fieldX w) (fieldY w))
  | 0x4#4 => .ok (.addReg (fieldX w) (fieldY w))
  | 0x5#4 => .ok (.sub (fieldX w) (fieldY w))
  | 0x6#4 => .ok (.shr (fieldX w) (fieldY w))
  | 0x7#4 => .ok (.subn (fieldX w) (fieldY w))
  | 0xE#4 => .ok (.shl (fieldX w) (fieldY w))
  | _ => .error (.invalidOp8 w)

/-- Op E: the two key skips, by the low byte (R94). -/
def decodeOpE (w : Word) : Except DecodeError Instr :=
  match fieldKK w with
  | 0x9E#8 => .ok (.skp (fieldX w))
  | 0xA1#8 => .ok (.sknp (fieldX w))
  | _ => .error (.invalidOpE w)

/-- Op F: ten minor opcodes, by the low byte (R94, R96). -/
def decodeOpF (w : Word) : Except DecodeError Instr :=
  match fieldKK w with
  | 0x07#8 => .ok (.ldVxDt (fieldX w))
  | 0x0A#8 => .ok (.ldVxK (fieldX w))
  | 0x15#8 => .ok (.ldDtVx (fieldX w))
  | 0x18#8 => .ok (.ldStVx (fieldX w))
  | 0x1E#8 => .ok (.addI (fieldX w))
  | 0x29#8 => .ok (.ldF (fieldX w))
  | 0x30#8 => .ok (.ldHf (fieldX w))
  | 0x33#8 => .ok (.ldB (fieldX w))
  | 0x55#8 => .ok (.ldMemVx (fieldX w))
  | 0x65#8 => .ok (.ldVxMem (fieldX w))
  | _ => .error (.invalidOpF w)

/-- R94: the instruction a 16-bit word stands for, by its top 4 bits and then by its low-order bits. It
depends on no state (R95). The last arm is op F, the only value of `op` left. -/
def decode (w : Word) : Except DecodeError Instr :=
  match fieldOp w with
  | 0x0#4 => decodeOp0 w
  | 0x1#4 => .ok (.jp (fieldNNN w))
  | 0x2#4 => .ok (.call (fieldNNN w))
  | 0x3#4 => .ok (.seImm (fieldX w) (fieldKK w))
  | 0x4#4 => .ok (.sneImm (fieldX w) (fieldKK w))
  | 0x5#4 => if fieldN w = 0x0#4 then .ok (.seReg (fieldX w) (fieldY w)) else .error (.invalidOp5 w)
  | 0x6#4 => .ok (.ldImm (fieldX w) (fieldKK w))
  | 0x7#4 => .ok (.addImm (fieldX w) (fieldKK w))
  | 0x8#4 => decodeOp8 w
  | 0x9#4 => if fieldN w = 0x0#4 then .ok (.sneReg (fieldX w) (fieldY w)) else .error (.invalidOp9 w)
  | 0xA#4 => .ok (.ldI (fieldNNN w))
  | 0xB#4 => .ok (.jpV0 (fieldNNN w))
  | 0xC#4 => .ok (.rnd (fieldX w) (fieldKK w))
  | 0xD#4 => if fieldN w = 0x0#4 then .ok (.drw16 (fieldX w) (fieldY w))
             else .ok (.drw (fieldX w) (fieldY w) (fieldN w))
  | 0xE#4 => decodeOpE w
  | _ => decodeOpF w

/-- The decoder on bytes as the store holds them: the first byte is the high half of the word (R62,
R90). It answers the instruction and the bytes after it. -/
def decodeBytes : List Byte → Except DecodeError (Instr × List Byte)
  | hi :: lo :: rest => match decode (hi ++ lo) with
    | .ok i => .ok (i, rest)
    | .error e => .error e
  | [] | [_] => .error .truncated

/-! ### Encoding -/

/-- The word of an instruction, pattern by pattern as R96 writes it. -/
def encode : Instr → Word
  | .cls => 0x00E0#16
  | .ret => 0x00EE#16
  | .scd n => 0x00C#12 ++ n
  | .scr => 0x00FB#16
  | .scl => 0x00FC#16
  | .exit => 0x00FD#16
  | .low => 0x00FE#16
  | .high => 0x00FF#16
  | .jp nnn => 0x1#4 ++ nnn
  | .call nnn => 0x2#4 ++ nnn
  | .seImm x kk => 0x3#4 ++ x ++ kk
  | .sneImm x kk => 0x4#4 ++ x ++ kk
  | .seReg x y => 0x5#4 ++ x ++ y ++ 0x0#4
  | .ldImm x kk => 0x6#4 ++ x ++ kk
  | .addImm x kk => 0x7#4 ++ x ++ kk
  | .ldReg x y => 0x8#4 ++ x ++ y ++ 0x0#4
  | .orReg x y => 0x8#4 ++ x ++ y ++ 0x1#4
  | .andReg x y => 0x8#4 ++ x ++ y ++ 0x2#4
  | .xorReg x y => 0x8#4 ++ x ++ y ++ 0x3#4
  | .addReg x y => 0x8#4 ++ x ++ y ++ 0x4#4
  | .sub x y => 0x8#4 ++ x ++ y ++ 0x5#4
  | .shr x y => 0x8#4 ++ x ++ y ++ 0x6#4
  | .subn x y => 0x8#4 ++ x ++ y ++ 0x7#4
  | .shl x y => 0x8#4 ++ x ++ y ++ 0xE#4
  | .sneReg x y => 0x9#4 ++ x ++ y ++ 0x0#4
  | .ldI nnn => 0xA#4 ++ nnn
  | .jpV0 nnn => 0xB#4 ++ nnn
  | .rnd x kk => 0xC#4 ++ x ++ kk
  | .drw x y n => 0xD#4 ++ x ++ y ++ n
  | .drw16 x y => 0xD#4 ++ x ++ y ++ 0x0#4
  | .skp x => 0xE#4 ++ x ++ 0x9E#8
  | .sknp x => 0xE#4 ++ x ++ 0xA1#8
  | .ldVxDt x => 0xF#4 ++ x ++ 0x07#8
  | .ldVxK x => 0xF#4 ++ x ++ 0x0A#8
  | .ldDtVx x => 0xF#4 ++ x ++ 0x15#8
  | .ldStVx x => 0xF#4 ++ x ++ 0x18#8
  | .addI x => 0xF#4 ++ x ++ 0x1E#8
  | .ldF x => 0xF#4 ++ x ++ 0x29#8
  | .ldHf x => 0xF#4 ++ x ++ 0x30#8
  | .ldB x => 0xF#4 ++ x ++ 0x33#8
  | .ldMemVx x => 0xF#4 ++ x ++ 0x55#8
  | .ldVxMem x => 0xF#4 ++ x ++ 0x65#8

/-- The high byte of a word, the one at the lower address (R62). -/
def highByte (w : Word) : Byte := w.extractLsb' 8 8

/-- The low byte of a word. -/
def lowByte (w : Word) : Byte := w.extractLsb' 0 8

/-- The two bytes of an instruction as the store holds them (R62). -/
def encodeBytes (i : Instr) : List Byte := [highByte (encode i), lowByte (encode i)]

/-- The word that the low `nbits` bits of `w` make, as spec/opcode_table.json numbers them: bit 0 is the
least significant bit of the one word an instruction has (R10, R90). -/
def tableWord (nbits w : Nat) : Word := BitVec.ofNat 16 (w % 2 ^ nbits)

/-- What the decoder reads from an instruction whose bits are `w`, numbered as spec/opcode_table.json
numbers them: the word is laid out high byte first and decoded. -/
def decodeTableWord (nbits w : Nat) : Option Instr :=
  match decodeBytes [highByte (tableWord nbits w), lowByte (tableWord nbits w)] with
  | .ok (i, _) => some i
  | .error _ => none

end Sys2Proof
end

