-- ==== Sys2Proof/Config.lean ====
section
/-! DEFINITION. What one implementation of the core fixes: the OPEN parameters of rule R8, and the one
free value of the machine, the random byte of rule R161. -/

namespace Sys2Proof

/-- `FLAG_WRITE_ORDER` (R8, R142, D15): whether a flag-writing operation writes `VF` before it reads its
operands for the result, or after. It shows only where an operand is `VF`. -/
inductive FlagWriteOrder where
  | flagThenResult
  | resultThenFlag
deriving DecidableEq, Repr

/-- `SHL_FLAG_MODE` (R8, R151, D16): the flag of `8xyE` is bit 7, or the 0 that the reference's
mask always gives. -/
inductive ShlFlagMode where
  | bit7
  | referenceZero
deriving DecidableEq, Repr

/-- `FONT_INDEX_MODE` (R8, R218, D21): `Fx29` and `Fx30` use all of `V[X]`, or its low nibble. -/
inductive FontIndexMode where
  | full
  | lowNibble
deriving DecidableEq, Repr

/-- `SCROLL_IN_STANDARD` (R8, R178, D26): a scroll in standard mode scrolls, or raises
`InvalidOpcode`. -/
inductive ScrollInStandard where
  | execute
  | fault
deriving DecidableEq, Repr

/-- `FONT_SMALL` and `FONT_BIG` (R8, R71, R72, D20): the bytes that boot places at 0x100 and 0x150. -/
structure Fonts where
  small : Vector Byte 80
  big   : Vector Byte 160
deriving DecidableEq, Repr

/-- The OPEN parameters of R8 that stay fixed while the core runs, and `IPT`, which the host may set
between two ticks (R257, R269). `RESET_REGS` is an argument of boot (`ResetRegs`). -/
structure Config where
  ipt              : Nat
  flagWriteOrder   : FlagWriteOrder
  shlFlagMode      : ShlFlagMode
  fontIndexMode    : FontIndexMode
  scrollInStandard : ScrollInStandard
  fonts            : Fonts
deriving DecidableEq, Repr

/-- FREE VALUE. The byte that the `rand` port supplies to the `k`-th execution of `Cxkk`, counted from
boot (R161, R265, D18): any value, under no law. Log entry 10. -/
opaque Config.randomByte : Nat → Byte

end Sys2Proof
end

