-- ==== Sys2Proof/Machine/Defaults.lean ====
section
/-! DEFINITION. The default values that the spec gives the OPEN parameters of rule R8. -/

namespace Sys2Proof.Machine

/-- `FONT_SMALL`'s default: the sixteen 5-byte glyphs of R71 (general knowledge of the spec, D20; log
entry 3). -/
def defaultSmallFont : Vector Byte 80 :=
  (#v[0xF0, 0x90, 0x90, 0x90, 0xF0,  0x20, 0x60, 0x20, 0x20, 0x70,
      0xF0, 0x10, 0xF0, 0x80, 0xF0,  0xF0, 0x10, 0xF0, 0x10, 0xF0] : Vector Byte 20) ++
  (#v[0x90, 0x90, 0xF0, 0x10, 0x10,  0xF0, 0x80, 0xF0, 0x10, 0xF0,
      0xF0, 0x80, 0xF0, 0x90, 0xF0,  0xF0, 0x10, 0x20, 0x40, 0x40] : Vector Byte 20) ++
  (#v[0xF0, 0x90, 0xF0, 0x90, 0xF0,  0xF0, 0x90, 0xF0, 0x10, 0xF0,
      0xF0, 0x90, 0xF0, 0x90, 0x90,  0xE0, 0x90, 0xE0, 0x90, 0xE0] : Vector Byte 20) ++
  (#v[0xF0, 0x80, 0x80, 0x80, 0xF0,  0xE0, 0x90, 0x90, 0x90, 0xE0,
      0xF0, 0x80, 0xF0, 0x80, 0xF0,  0xF0, 0x80, 0xF0, 0x80, 0x80] : Vector Byte 20)

/-- `FONT_BIG`'s default: the ten 10-byte glyphs of R72, then six slots of zero bytes (general knowledge
of the spec, D20; log entry 3). -/
def defaultBigFont : Vector Byte 160 :=
  (#v[0x3C, 0x7E, 0xE7, 0xC3, 0xC3, 0xC3, 0xC3, 0xE7, 0x7E, 0x3C,
      0x18, 0x38, 0x58, 0x18, 0x18, 0x18, 0x18, 0x18, 0x18, 0x3C] : Vector Byte 20) ++
  (#v[0x3E, 0x7F, 0xC3, 0x06, 0x0C, 0x18, 0x30, 0x60, 0xFF, 0xFF,
      0x3C, 0x7E, 0xC3, 0x03, 0x0E, 0x0E, 0x03, 0xC3, 0x7E, 0x3C] : Vector Byte 20) ++
  (#v[0x06, 0x0E, 0x1E, 0x36, 0x66, 0xC6, 0xFF, 0xFF, 0x06, 0x06,
      0xFF, 0xFF, 0xC0, 0xC0, 0xFC, 0xFE, 0x03, 0xC3, 0x7E, 0x3C] : Vector Byte 20) ++
  (#v[0x3E, 0x7C, 0xC0, 0xC0, 0xFC, 0xFE, 0xC3, 0xC3, 0x7E, 0x3C,
      0xFF, 0xFF, 0x03, 0x06, 0x0C, 0x18, 0x30, 0x60, 0x60, 0x60] : Vector Byte 20) ++
  (#v[0x3C, 0x7E, 0xC3, 0xC3, 0x7E, 0x7E, 0xC3, 0xC3, 0x7E, 0x3C,
      0x3C, 0x7E, 0xC3, 0xC3, 0x7F, 0x3F, 0x03, 0x03, 0x3E, 0x7C] : Vector Byte 20) ++
  Vector.replicate 60 0x00#8

/-- The default of every OPEN parameter of R8: ten instructions per tick, `FlagThenResult`, `Bit7`,
`Full`, `Execute` and the two default fonts (log entry 1). -/
def defaultConfig : Config where
  ipt := 10
  flagWriteOrder := .flagThenResult
  shlFlagMode := .bit7
  fontIndexMode := .full
  scrollInStandard := .execute
  fonts := ⟨defaultSmallFont, defaultBigFont⟩

end Sys2Proof.Machine
end

