-- ==== Sys2Proof/Machine/State.lean ====
section
/-! DEFINITION. The state of the core (rules R30 to R46), as plain data, and its value right after a boot
with an empty program (R46, R280). -/

namespace Sys2Proof.Machine

/-- The Addressable Store (R37): the bytes that differ from what `initialByte` says the store holds after
boot, by strictly rising address. `Memory.wf` states the form. -/
abbrev Memory := List Host.Cell

/-- One pixel grid of the framebuffer, by rows from the top and by columns from the left; a cell holds
0x00 (off) or 0xFF (on) (R38, R179). -/
structure Grid (w h : Nat) where
  rows : Vector (Vector Byte w) h
deriving DecidableEq, Repr

/-- A grid with every cell off. -/
def Grid.blank (w h : Nat) : Grid w h := ⟨Vector.replicate h (Vector.replicate w 0x00#8)⟩

/-- Keypad State (R42): the flag of each of the 16 keys. -/
abbrev Keypad := Vector Bool 16

/-- The fault kinds of R240. -/
inductive FaultKind where
  /-- A fetched word matches no documented pattern, or a scroll under `SCROLL_IN_STANDARD = Fault`
  (R242). -/
  | invalidOpcode
  /-- A step would touch a store address above 0xFFF, or a key index above 0xF (R243). -/
  | outOfRange
  /-- The program image does not fit from 0x200 (R244). -/
  | programTooLarge
deriving DecidableEq, Repr

/-- The fault record of R240: `pc` is absent for `ProgramTooLarge`, `opcode` where the fetch itself
faulted, `addr` for `InvalidOpcode`. `addr` is a plain number: an address, a key index or a program
length. -/
structure FaultRecord where
  kind   : FaultKind
  pc     : Option Word
  opcode : Option Word
  addr   : Option Nat
deriving DecidableEq, Repr

/-- The run status of R44. -/
inductive Status where
  | running
  | exited
  | faulted (r : FaultRecord)
deriving DecidableEq, Repr

/-- The state of the core (R30), with the inputs an instruction reads (R42, R161) and the parameters the
core runs under (R8). -/
structure State where
  /-- The general registers `V[0]` to `V[0xF]` (R31). -/
  v            : Vector Byte 16
  /-- The program counter `PC` (R33). -/
  pc           : Word
  /-- The index register `I` (R34). -/
  index        : Word
  /-- The stack pointer `SP` (R35). -/
  sp           : Byte
  /-- The delay timer `DT` (R36). -/
  dt           : Byte
  /-- The sound timer `ST` (R36). -/
  st           : Byte
  /-- The Addressable Store (R37). -/
  mem          : Memory
  /-- The standard grid (R38). -/
  stdGrid      : Grid 64 32
  /-- The extended grid (R38). -/
  extGrid      : Grid 128 64
  /-- The flag that selects the active grid (R40). -/
  extendedMode : Bool
  /-- The run status with its fault record (R44). -/
  status       : Status
  /-- How many steps of the current tick transaction have run; 0 at a tick boundary (R45; log entry
  7). -/
  tickPos      : Nat
  /-- Keypad State, an input: the core reads it and never writes it (R42; log entry 9). -/
  keys         : Keypad
  /-- THE MODEL'S OWN: how many random bytes `Cxkk` has drawn (R161; log entry 10). -/
  randCount    : Nat
  /-- The parameters of R8, `IPT` among them (R43; log entry 1). -/
  cfg          : Config
deriving DecidableEq, Repr

/-- The reasons for which a step stops outside the state: none. A fault of this core is a state, `Status`
`Faulted` with its record, which the step enters and answers as the next state (R120, R241; log entry
5). -/
inductive Fault
deriving DecidableEq, Repr

/-- The reasons for which an instruction or an input from the host has no meaning. -/
inductive Refusal where
  /-- Raised by `exec` alone, for an instruction that has no meaning yet; none is left. Safe: the machine
  stops. -/
  | notModelled (mnemonic : String)
  /-- Raised by the `tick` port alone, never by a step: the host invokes `tick` while a tick is running,
  which the interface does not admit (R269, spec/93 row 26; log entry 8). Safe: nothing follows of the
  refused call. -/
  | tickRunning
deriving DecidableEq, Repr

/-- The core after boot with an empty program and `RESET_REGS = Zero`, before the first tick (R46, R280,
R283; log entries 1, 2, 4, 11, 12). -/
def State.reset : State where
  v := Vector.replicate 16 0x00#8
  pc := 0x200#16
  index := 0x0000#16
  sp := 0x00#8
  dt := 0x00#8
  st := 0x00#8
  mem := []
  stdGrid := Grid.blank 64 32
  extGrid := Grid.blank 128 64
  extendedMode := false
  status := .running
  tickPos := 0
  keys := Vector.replicate 16 false
  randCount := 0
  cfg := defaultConfig

end Sys2Proof.Machine
end

