-- ==== Sys2Proof/Machine/Ops.lean ====
section
/-! DEFINITION. The shared operations: the store and its accessors (R60 to R67, R79), the registers (R11,
R31 to R36), the program counter (R120, R125), fault entry (R241), exit (R247) and the timer phase
(R253). -/

namespace Sys2Proof.Machine

/-! ### The store as a canonical list of cells -/

/-- What an address that no cell lists reads as: the contents of the store after boot with no program
(R46, R68). The fonts stand at 0x100 and 0x150 (R71, R72, R81), everything else is zero (R37). Log entry
4. -/
def initialByte (f : Fonts) (a : Nat) : Byte :=
  if h : 0x100 ≤ a ∧ a < 0x150 then f.small[a - 0x100]
  else if h : 0x150 ≤ a ∧ a < 0x1F0 then f.big[a - 0x150]
  else 0x00#8

/-- The byte at an address. -/
def Memory.get (f : Fonts) : Memory → Nat → Byte
  | [], a => initialByte f a
  | c :: m, a => if a = c.1 then c.2 else Memory.get f m a

/-- Puts a cell in its place among rising addresses, in place of an older one of the same address. -/
def Memory.insert (a : Nat) (b : Byte) : Memory → Memory
  | [] => [(a, b)]
  | c :: m =>
    if a < c.1 then (a, b) :: c :: m
    else if a = c.1 then (a, b) :: m
    else c :: Memory.insert a b m

/-- Sets the byte at an address. A byte that the store holds after boot anyway is not listed. -/
def Memory.set (f : Fonts) (m : Memory) (a : Nat) (b : Byte) : Memory :=
  if b = initialByte f a then m.filter (fun c => c.1 != a) else Memory.insert a b m

/-- The canonical form: addresses strictly rise, lie in the store (R61), and no cell says what the store
holds after boot anyway. -/
abbrev Memory.wf (f : Fonts) (m : Memory) : Prop :=
  m.Pairwise (fun c d => c.1 < d.1) ∧ ∀ c ∈ m, c.1 < 4096 ∧ c.2 ≠ initialByte f c.1

/-! ### The accessors of the store -/

/-- `InRange(a)` (R61): the store has the addresses 0x000 to 0xFFF. -/
abbrev inRange (a : Nat) : Prop := a < 4096

/-- The check of R65 and R66: the first address of `a`, …, `a + n - 1` that is not in range. -/
def firstOutOfRange (a n : Nat) : Option Nat :=
  ((List.range n).map (a + ·)).find? (fun b => decide (¬ inRange b))

/-- The byte of the store at `a`. Every meaning checks its range first (R65). -/
def State.readByte (s : State) (a : Nat) : Byte := Memory.get s.cfg.fonts s.mem a

/-- Writes the byte of the store at `a`. -/
def State.writeByte (s : State) (a : Nat) (b : Byte) : State :=
  { s with mem := Memory.set s.cfg.fonts s.mem a b }

/-- The bytes at `a`, …, `a + n - 1`, in ascending order (R64). -/
def State.readBytes (s : State) (a n : Nat) : List Byte :=
  (List.range n).map (fun k => s.readByte (a + k))

/-- The big-endian words at `a`, `a + 2`, …, `n` of them: the row `r` of a 16×16 sprite is
`{Mem[a + 2r], Mem[a + 2r + 1]}` (R172, D24). -/
def State.readWords (s : State) (a n : Nat) : List Word :=
  (List.range n).map (fun r => s.readByte (a + 2 * r) ++ s.readByte (a + 2 * r + 1))

/-- Writes bytes at `a`, `a + 1`, …, in ascending order (R64). -/
def State.writeBytes (s : State) (a : Nat) : List Byte → State
  | [] => s
  | b :: bs => (s.writeByte a b).writeBytes (a + 1) bs

/-- `get8` (R60, R61). An access out of range answers the first address that is (R66). -/
def State.get8 (s : State) (a : Nat) : Except Nat Byte :=
  match firstOutOfRange a 1 with
  | some bad => .error bad
  | none => .ok (s.readByte a)

/-- `set8` (R60, R61). -/
def State.set8 (s : State) (a : Nat) (b : Byte) : Except Nat State :=
  match firstOutOfRange a 1 with
  | some bad => .error bad
  | none => .ok (s.writeByte a b)

/-- `get16` (R60, R61): big-endian, at any address, odd ones too (R62, R63). -/
def State.get16 (s : State) (a : Nat) : Except Nat Word :=
  match firstOutOfRange a 2 with
  | some bad => .error bad
  | none => .ok (s.readByte a ++ s.readByte (a + 1))

/-- `set16` (R60, R61). -/
def State.set16 (s : State) (a : Nat) (w : Word) : Except Nat State :=
  match firstOutOfRange a 2 with
  | some bad => .error bad
  | none => .ok ((s.writeByte a (highByte w)).writeByte (a + 1) (lowByte w))

/-- `load(offset, data)` (R60, R79): the bound is checked before any byte is copied, and the failure
answers the first address the copy would not find. -/
def State.load (s : State) (offset : Nat) (data : List Byte) : Except Nat State :=
  if offset + data.length ≤ 4096 then .ok (s.writeBytes offset data) else .error (max offset 4096)

/-! ### Registers -/

/-- `V[x]` (R11, R31). No register is hard-wired. -/
def State.reg (s : State) (x : Nibble) : Byte := s.v[x.toNat]'x.isLt

/-- `V[x] <- b` (R11). -/
def State.setReg (s : State) (x : Nibble) (b : Byte) : State :=
  { s with v := s.v.set x.toNat b x.isLt }

/-- `PC <- PC + 2`, the unconditional advance of R120, modulo 2^16 (D9). -/
def State.advance (s : State) : State := { s with pc := s.pc + 2#16 }

/-- `Skip` (R125): a second `PC <- PC + 2`, after the advance. -/
def State.skip (s : State) : State := { s with pc := s.pc + 2#16 }

/-- `Skip` where a condition holds. -/
def State.skipIf (s : State) (c : Bool) : State := if c then s.skip else s

/-! ### Fault entry and exit -/

/-- TAKING A FAULT (R241), the one way a step enters the `Faulted` status. Applied to the state BEFORE the
step, so that every effect of the step is discarded, the advance of `PC` too: `Status` takes the record
and nothing else changes. There is no vector, no saved register and no mode change, and nothing returns
from it (R246). -/
def State.enterFault (s : State) (r : FaultRecord) : State := { s with status := .faulted r }

/-- `OutOfRange` raised by the execution of `i` at `PC` (R240, R243): the record holds the address `i` was
fetched from, its word, and the first address (or the key index) out of range. Log entry 6. -/
def State.raiseOutOfRange (s : State) (i : Instr) (addr : Nat) : State :=
  s.enterFault ⟨.outOfRange, some s.pc, some (encode i), some addr⟩

/-- `InvalidOpcode` for the word `w` at `PC` (R240, R242). -/
def State.raiseInvalidOpcode (s : State) (w : Word) : State :=
  s.enterFault ⟨.invalidOpcode, some s.pc, some w, none⟩

/-- `signal Exit` (R13, R247): the effects of the step are kept. -/
def State.signalExit (s : State) : State := { s with status := .exited }

/-! ### Timers and the random byte -/

/-- One timer in the timer phase: decremented if above 0 (R253, R254). -/
def countDown (t : Byte) : Byte := if 0 < t.toNat then t - 1#8 else t

/-- `TimerTick()` (R253). -/
def State.timerTick (s : State) : State := { s with dt := countDown s.dt, st := countDown s.st }

/-- The byte that the `rand` port supplies to the next `Cxkk` (R161): a free value. -/
def State.randomByte (s : State) : Byte := Config.randomByte s.randCount

/-- One random byte has been drawn. -/
def State.drawnRandom (s : State) : State := { s with randCount := s.randCount + 1 }

end Sys2Proof.Machine
end

