-- ==== Sys2Proof/Machine/Flags.lean ====
section
/-! DEFINITION. What the flag register `VF` is given (R32), and in which order a flag and a result are
written (R142, D15). -/

namespace Sys2Proof.Machine

/-- A flag as a register holds it: 1 or 0. -/
def flagByte (c : Bool) : Byte := if c then 0x01#8 else 0x00#8

/-- The carry of `8xy4`: 1 iff the unsigned sum exceeds 255 (R147). -/
def carryFlag (a b : Byte) : Byte := flagByte (decide (255 < a.toNat + b.toNat))

/-- The no-borrow of `8xy5`: 1 iff `a >= b` (R148). -/
def noBorrowFlag (a b : Byte) : Byte := flagByte (decide (b.toNat ≤ a.toNat))

/-- The low bit of the value before `8xy6` shifts it (R149). -/
def shrFlag (a : Byte) : Byte := flagByte (a.getLsbD 0)

/-- `shlflag(a)` of R151: bit 7 under `Bit7`, and 0 under `ReferenceZero`. -/
def shlFlag (m : ShlFlagMode) (a : Byte) : Byte :=
  match m with
  | .bit7 => flagByte (a.getLsbD 7)
  | .referenceZero => 0x00#8

/-- The range flag of `Fx1E`: 1 iff the exact sum exceeds 0xFFF (R217). -/
def indexFlag (i : Word) (b : Byte) : Byte := flagByte (decide (0xFFF < i.toNat + b.toNat))

/-- The execute phase of the five flag-writing operations of the group `8xy_`, in the order that
`FLAG_WRITE_ORDER` gives: each read sees the writes before it (R11, R142). -/
def State.withFlag (s : State) (x y : Nibble) (flag result : Byte → Byte → Byte) : State :=
  match s.cfg.flagWriteOrder with
  | .flagThenResult =>
    let t := s.setReg vf (flag (s.reg x) (s.reg y))
    t.setReg x (result (t.reg x) (t.reg y))
  | .resultThenFlag =>
    (s.setReg x (result (s.reg x) (s.reg y))).setReg vf (flag (s.reg x) (s.reg y))

end Sys2Proof.Machine
end

