-- ==== Sys2Proof/Machine/Alu.lean ====
section
/-! DEFINITION. The meanings of the register loads, the group `8xy_` and the random byte
(spec/41_alu.md). None touches the store, so none faults. -/

namespace Sys2Proof.Machine

/-- `6xkk` LD Vx, kk (R140). -/
def execLdImm (x : Nibble) (kk : Byte) (s : State) : Host.Outcome State Fault Refusal :=
  .next (s.advance.setReg x kk)

/-- `7xkk` ADD Vx, kk (R141): modulo 256, and no flag. -/
def execAddImm (x : Nibble) (kk : Byte) (s : State) : Host.Outcome State Fault Refusal :=
  .next (s.advance.setReg x (s.reg x + kk))

/-- `8xy0` LD Vx, Vy (R143). -/
def execLdReg (x y : Nibble) (s : State) : Host.Outcome State Fault Refusal :=
  .next (s.advance.setReg x (s.reg y))

/-- `8xy1` OR Vx, Vy (R144): no flag (D17). -/
def execOrReg (x y : Nibble) (s : State) : Host.Outcome State Fault Refusal :=
  .next (s.advance.setReg x (s.reg x ||| s.reg y))

/-- `8xy2` AND Vx, Vy (R145): no flag (D17). -/
def execAndReg (x y : Nibble) (s : State) : Host.Outcome State Fault Refusal :=
  .next (s.advance.setReg x (s.reg x &&& s.reg y))

/-- `8xy3` XOR Vx, Vy (R146): no flag (D17). -/
def execXorReg (x y : Nibble) (s : State) : Host.Outcome State Fault Refusal :=
  .next (s.advance.setReg x (s.reg x ^^^ s.reg y))

/-- `8xy4` ADD Vx, Vy (R147). -/
def execAddReg (x y : Nibble) (s : State) : Host.Outcome State Fault Refusal :=
  .next (s.advance.withFlag x y carryFlag (fun a b => a + b))

/-- `8xy5` SUB Vx, Vy (R148). -/
def execSub (x y : Nibble) (s : State) : Host.Outcome State Fault Refusal :=
  .next (s.advance.withFlag x y noBorrowFlag (fun a b => a - b))

/-- `8xy6` SHR Vx (R149): `V[Y]` is not read. -/
def execShr (x y : Nibble) (s : State) : Host.Outcome State Fault Refusal :=
  .next (s.advance.withFlag x y (fun a _ => shrFlag a) (fun a _ => a >>> 1))

/-- `8xy7` SUBN Vx, Vy (R150): the operands of `8xy5` swapped. -/
def execSubn (x y : Nibble) (s : State) : Host.Outcome State Fault Refusal :=
  .next (s.advance.withFlag x y (fun a b => noBorrowFlag b a) (fun a b => b - a))

/-- `8xyE` SHL Vx (R151): `V[Y]` is not read. -/
def execShl (x y : Nibble) (s : State) : Host.Outcome State Fault Refusal :=
  .next (s.advance.withFlag x y (fun a _ => shlFlag s.cfg.shlFlagMode a) (fun a _ => a <<< 1))

/-- The effect of `Cxkk` with the random byte `r` (R160). -/
def State.rndWith (s : State) (x : Nibble) (kk r : Byte) : State :=
  (s.advance.setReg x (r &&& kk)).drawnRandom

/-- `Cxkk` RND Vx, kk (R160): one byte is drawn, whichever the `rand` port supplies (R161). -/
def execRnd (x : Nibble) (kk : Byte) (s : State) : Host.Outcome State Fault Refusal :=
  .next (s.rndWith x kk s.randomByte)

end Sys2Proof.Machine
end

