-- ==== Sys2Proof/Machine/Operands.lean ====
section
/-! DEFINITION. The operand forms that are more than a register or an immediate: addresses (R92, R216),
keypad flags (R42, R206), font digits (R218) and decimal digits (R220). -/

namespace Sys2Proof.Machine

/-- `zext_16(NNN)`, wherever `NNN` is written to `PC` or `I` (R92). -/
def zext16 (nnn : Addr12) : Word := nnn.setWidth 16

/-- `I` as the first address of an access: the addresses `I + k` are exact numbers and never wrap
(R216). -/
def State.indexAddr (s : State) : Nat := s.index.toNat

/-- `Key(k)` (R13, R42). There are 16 flags. -/
def State.key (s : State) (k : Nat) : Bool := if h : k < 16 then s.keys[k] else false

/-- The key that `Fx0A` takes: the first pressed one of 0 to 15 in ascending order (R203). -/
def State.firstKey (s : State) : Option Nat := (List.range 16).find? s.key

/-- The digit of `Fx29` and `Fx30` under `FONT_INDEX_MODE` (R218, R219, D21). -/
def State.fontDigit (s : State) (b : Byte) : Nat :=
  match s.cfg.fontIndexMode with
  | .full => b.toNat
  | .lowNibble => (b &&& 0x0F#8).toNat

/-- The address of the 5-byte glyph of a digit (R218). -/
def smallGlyph (d : Nat) : Word := BitVec.ofNat 16 (0x100 + 5 * d)

/-- The address of the 10-byte glyph of a digit (R219). -/
def bigGlyph (d : Nat) : Word := BitVec.ofNat 16 (0x150 + 10 * d)

/-- The hundreds, tens and units of a byte (R220). -/
def decimalDigits (b : Byte) : List Byte :=
  [BitVec.ofNat 8 (b.toNat / 100), BitVec.ofNat 8 (b.toNat / 10 % 10), BitVec.ofNat 8 (b.toNat % 10)]

/-- The bytes of `V[0]` to `V[x]`, inclusive of `x` (R221, R223). -/
def State.regsUpTo (s : State) (x : Nibble) : List Byte :=
  (List.range (x.toNat + 1)).map (fun k => s.reg (BitVec.ofNat 4 k))

/-- `V[k] <- b_k` for the bytes `b_0, b_1, …` that stand at `a`, in ascending order, for `k` from 0 to `x`
(R222). -/
def State.loadRegsUpTo (s : State) (x : Nibble) (a : Nat) : State :=
  (List.range (x.toNat + 1)).foldl (fun t k => t.setReg (BitVec.ofNat 4 k) (t.readByte (a + k))) s

end Sys2Proof.Machine
end

