-- ==== Sys2Proof/Machine/Control.lean ====
section
/-! DEFINITION. The meanings of the control-transfer instructions and of exit (spec/40_control.md). A
meaning is given the state before the step and answers the state after it: it advances `PC` first
(R120, R286), and a fault discards that advance with everything else (R241). -/

namespace Sys2Proof.Machine

/-- `2nnn` CALL (R121): `SP <- SP + 2`, then the advanced `PC` is written at `SP`, then `PC <- NNN`. `SP`
wraps modulo 256 (D10), so the write is in range (R70) and the fault arm, which the accessor's form asks
for, is never taken. -/
def execCall (nnn : Addr12) (s : State) : Host.Outcome State Fault Refusal :=
  let t := s.advance
  match { t with sp := t.sp + 2#8 }.set16 (t.sp + 2#8).toNat t.pc with
  | .error a => .next (s.raiseOutOfRange (.call nnn) a)
  | .ok u => .next { u with pc := zext16 nnn }

/-- `00EE` RET (R122): `PC` is the word at `SP`, then `SP <- SP - 2`. The read is in range (R70). -/
def execRet (s : State) : Host.Outcome State Fault Refusal :=
  match s.get16 s.sp.toNat with
  | .error a => .next (s.raiseOutOfRange .ret a)
  | .ok w => .next { s with pc := w, sp := s.sp - 2#8 }

/-- `1nnn` JP (R123). -/
def execJp (nnn : Addr12) (s : State) : Host.Outcome State Fault Refusal :=
  .next { s with pc := zext16 nnn }

/-- `Bnnn` JP V0 (R124): not wrapped to 12 bits (D9). -/
def execJpV0 (nnn : Addr12) (s : State) : Host.Outcome State Fault Refusal :=
  .next { s with pc := zext16 nnn + (s.reg 0x0#4).setWidth 16 }

/-- `3xkk` SE Vx, kk (R126). -/
def execSeImm (x : Nibble) (kk : Byte) (s : State) : Host.Outcome State Fault Refusal :=
  .next (s.advance.skipIf (s.reg x == kk))

/-- `4xkk` SNE Vx, kk (R127). -/
def execSneImm (x : Nibble) (kk : Byte) (s : State) : Host.Outcome State Fault Refusal :=
  .next (s.advance.skipIf (s.reg x != kk))

/-- `5xy0` SE Vx, Vy (R128). -/
def execSeReg (x y : Nibble) (s : State) : Host.Outcome State Fault Refusal :=
  .next (s.advance.skipIf (s.reg x == s.reg y))

/-- `9xy0` SNE Vx, Vy (R129). -/
def execSneReg (x y : Nibble) (s : State) : Host.Outcome State Fault Refusal :=
  .next (s.advance.skipIf (s.reg x != s.reg y))

/-- `00FD` EXIT (R131): `PC` keeps the advanced value (D29). -/
def execExit (s : State) : Host.Outcome State Fault Refusal :=
  .next s.advance.signalExit

end Sys2Proof.Machine
end

