-- ==== Sys2Proof/Machine/Framebuffer.lean ====
section
/-! DEFINITION. The framebuffer and its operations on the active grid (R38 to R41, R170 to R174, R178,
R179). -/

namespace Sys2Proof.Machine

/-- The cell at column `x` and row `y`. Outside the grid there is no cell; 0 stands for it. -/
def Grid.at {w h : Nat} (g : Grid w h) (x y : Nat) : Byte :=
  if hxy : x < w ∧ y < h then (g.rows[y]'hxy.2)[x]'hxy.1 else 0x00#8

/-- Sets the cell at column `x` and row `y`. -/
def Grid.put {w h : Nat} (g : Grid w h) (x y : Nat) (b : Byte) : Grid w h :=
  if hxy : x < w ∧ y < h then
    ⟨g.rows.set y ((g.rows[y]'hxy.2).set x b hxy.1) hxy.2⟩
  else g

/-! ### Scrolling -/

/-- Moves every entry `n` places up, zero-filling with `z`; the entries moved past the end are lost. -/
def shiftUp {α : Type} {k : Nat} (n : Nat) (z : α) (v : Vector α k) : Vector α k :=
  ⟨⟨(List.replicate n z ++ v.toList).take k⟩, by simp⟩

/-- Moves every entry `n` places down, zero-filling with `z`; the first `n` entries are lost. -/
def shiftDown {α : Type} {k : Nat} (n : Nat) (z : α) (v : Vector α k) : Vector α k :=
  ⟨⟨(v.toList.drop n ++ List.replicate n z).take k⟩, by simp; omega⟩

/-- Applies a change to every row. -/
def Grid.mapRows {w h : Nat} (f : Vector Byte w → Vector Byte w) (g : Grid w h) : Grid w h :=
  ⟨⟨⟨g.rows.toList.map f⟩, by simp⟩⟩

/-- `scrollDown(n)`: row `y` moves to row `y + n`, rows 0 to n-1 become off (R173, D25). -/
def Grid.scrollDown {w h : Nat} (n : Nat) (g : Grid w h) : Grid w h :=
  ⟨shiftUp n (Vector.replicate w 0x00#8) g.rows⟩

/-- `scrollRight4()` (R174, D25). -/
def Grid.scrollRight4 {w h : Nat} (g : Grid w h) : Grid w h := g.mapRows (shiftUp 4 0x00#8)

/-- `scrollLeft4()` (R174, D25). -/
def Grid.scrollLeft4 {w h : Nat} (g : Grid w h) : Grid w h := g.mapRows (shiftDown 4 0x00#8)

/-! ### Drawing -/

/-- A grid that is being drawn on, and whether a pixel has gone from on to off. -/
structure Canvas (w h : Nat) where
  grid      : Grid w h
  collision : Bool
deriving DecidableEq, Repr

/-- One 1 bit of a sprite at the wrapped coordinates: a collision if the cell is on, and the cell is
toggled (R41, R171). -/
def Canvas.toggle {w h : Nat} (c : Canvas w h) (x y : Nat) : Canvas w h where
  grid := c.grid.put (x % w) (y % h) (c.grid.at (x % w) (y % h) ^^^ 0xFF#8)
  collision := c.collision || c.grid.at (x % w) (y % h) == 0xFF#8

/-- The bits of a sprite row from column `x` on, leftmost first; a 0 bit leaves its cell (R171). -/
def Canvas.drawBits {w h : Nat} (x y : Nat) : List Bool → Canvas w h → Canvas w h
  | [], c => c
  | b :: bs, c => Canvas.drawBits (x + 1) y bs (if b then c.toggle x y else c)

/-- The bits of a row of `k` bits, the leftmost pixel first: the most significant bit (R171, R172). -/
def rowBits {k : Nat} (r : BitVec k) : List Bool := (List.range k).map (fun b => r.getMsbD b)

/-- `drawSprite` (R171) for rows of 8 bits and `drawSprite16x16` (R172) for rows of 16: row `r` lies at
`y + r`. -/
def Canvas.drawRows {w h k : Nat} (x y : Nat) : List (BitVec k) → Canvas w h → Canvas w h
  | [], c => c
  | r :: rs, c => Canvas.drawRows x (y + 1) rs (c.drawBits x y (rowBits r))

/-! ### The active grid (R41) -/

/-- The width of the active grid. -/
def State.width (s : State) : Nat := if s.extendedMode then 128 else 64

/-- The height of the active grid. -/
def State.height (s : State) : Nat := if s.extendedMode then 64 else 32

/-- The cell of the active grid at column `x` and row `y`. -/
def State.pixel (s : State) (x y : Nat) : Byte :=
  if s.extendedMode then s.extGrid.at x y else s.stdGrid.at x y

/-- `Fb(x, y)` (R13, R41): the cell at the wrapped coordinates. -/
def State.fb (s : State) (x y : Nat) : Byte := s.pixel (x % s.width) (y % s.height)

/-- Changes the active grid; the inactive one is not addressed (R40, R170). -/
def State.onActiveGrid (s : State) (f : (w h : Nat) → Grid w h → Grid w h) : State :=
  if s.extendedMode then { s with extGrid := f 128 64 s.extGrid }
  else { s with stdGrid := f 64 32 s.stdGrid }

/-- Draws rows at `x0`, `y0` on the active grid and answers whether a pixel collided. -/
def State.paint {k : Nat} (s : State) (x0 y0 : Nat) (rows : List (BitVec k)) : State × Bool :=
  if s.extendedMode then
    let c := Canvas.drawRows x0 y0 rows ⟨s.extGrid, false⟩
    ({ s with extGrid := c.grid }, c.collision)
  else
    let c := Canvas.drawRows x0 y0 rows ⟨s.stdGrid, false⟩
    ({ s with stdGrid := c.grid }, c.collision)

/-- The draw of R176 and R177: `VF` is reset before anything is drawn, and is set to 1 if a pixel
collided. Under `FlagThenResult` the coordinates are read after the reset, under `ResultThenFlag` before
it (D15). -/
def State.drawSprite {k : Nat} (s : State) (x y : Nibble) (rows : List (BitVec k)) : State :=
  let t := s.setReg vf 0x00#8
  let source := match s.cfg.flagWriteOrder with
    | .flagThenResult => t
    | .resultThenFlag => s
  let p := t.paint (source.reg x).toNat (source.reg y).toNat rows
  if p.2 then p.1.setReg vf 0x01#8 else p.1

/-- Whether a scroll may run: always under `SCROLL_IN_STANDARD = Execute`, in extended mode alone under
`Fault` (R178, D26). -/
def State.scrollAllowed (s : State) : Bool :=
  match s.cfg.scrollInStandard with
  | .execute => true
  | .fault => s.extendedMode

end Sys2Proof.Machine
end

