-- ==== Sys2Proof/Machine/Display.lean ====
section
/-! DEFINITION. The meanings of the display instructions (spec/42_display.md). -/

namespace Sys2Proof.Machine

/-- `00E0` CLS (R175): every cell of the active grid off. -/
def execCls (s : State) : Host.Outcome State Fault Refusal :=
  .next (s.advance.onActiveGrid (fun w h _ => Grid.blank w h))

/-- A scroll of the active grid, or `InvalidOpcode` where R178 says so. -/
def State.scroll (s : State) (i : Instr) (f : (w h : Nat) → Grid w h → Grid w h) : State :=
  if s.scrollAllowed then s.advance.onActiveGrid f else s.raiseInvalidOpcode (encode i)

/-- `00Cn` SCD n (R180). -/
def execScd (n : Nibble) (s : State) : Host.Outcome State Fault Refusal :=
  .next (s.scroll (.scd n) (fun _ _ g => g.scrollDown n.toNat))

/-- `00FB` SCR (R181). -/
def execScr (s : State) : Host.Outcome State Fault Refusal :=
  .next (s.scroll .scr (fun _ _ g => g.scrollRight4))

/-- `00FC` SCL (R182). -/
def execScl (s : State) : Host.Outcome State Fault Refusal :=
  .next (s.scroll .scl (fun _ _ g => g.scrollLeft4))

/-- `00FE` LOW (R184): neither grid changes. -/
def execLow (s : State) : Host.Outcome State Fault Refusal :=
  .next { s.advance with extendedMode := false }

/-- `00FF` HIGH (R183): neither grid changes. -/
def execHigh (s : State) : Host.Outcome State Fault Refusal :=
  .next { s.advance with extendedMode := true }

/-- `Dxyn`, n ≠ 0: DRW Vx, Vy, n (R176). The bytes are checked and read before any effect (R65). -/
def execDrw (x y n : Nibble) (s : State) : Host.Outcome State Fault Refusal :=
  match firstOutOfRange s.indexAddr n.toNat with
  | some a => .next (s.raiseOutOfRange (.drw x y n) a)
  | none => .next (s.advance.drawSprite x y (s.readBytes s.indexAddr n.toNat))

/-- `Dxy0` DRW Vx, Vy, 0 (R177): the 16×16 sprite in extended mode, no row at all in standard mode
(D23). -/
def execDrw16 (x y : Nibble) (s : State) : Host.Outcome State Fault Refusal :=
  if s.extendedMode then
    match firstOutOfRange s.indexAddr 32 with
    | some a => .next (s.raiseOutOfRange (.drw16 x y) a)
    | none => .next (s.advance.drawSprite x y (s.readWords s.indexAddr 16))
  else .next (s.advance.setReg vf 0x00#8)

end Sys2Proof.Machine
end

