-- ==== Sys2Proof/Machine/IndexMemory.lean ====
section
/-! DEFINITION. The meanings of the index-register and store instructions (spec/44_index_memory.md). -/

namespace Sys2Proof.Machine

/-- `Annn` LD I, nnn (R215). -/
def execLdI (nnn : Addr12) (s : State) : Host.Outcome State Fault Refusal :=
  .next { s.advance with index := zext16 nnn }

/-- `Fx1E` ADD I, Vx (R217): `I` keeps the sum modulo 2^16, and `VF`, written last, compares the exact
sum (D34). -/
def execAddI (x : Nibble) (s : State) : Host.Outcome State Fault Refusal :=
  .next ({ s.advance with index := s.index + (s.reg x).setWidth 16 }.setReg vf
    (indexFlag s.index (s.reg x)))

/-- `Fx29` LD F, Vx (R218). -/
def execLdF (x : Nibble) (s : State) : Host.Outcome State Fault Refusal :=
  .next { s.advance with index := smallGlyph (s.fontDigit (s.reg x)) }

/-- `Fx30` LD HF, Vx (R219). -/
def execLdHf (x : Nibble) (s : State) : Host.Outcome State Fault Refusal :=
  .next { s.advance with index := bigGlyph (s.fontDigit (s.reg x)) }

/-- `Fx33` LD B, Vx (R220). -/
def execLdB (x : Nibble) (s : State) : Host.Outcome State Fault Refusal :=
  match firstOutOfRange s.indexAddr 3 with
  | some a => .next (s.raiseOutOfRange (.ldB x) a)
  | none => .next (s.advance.writeBytes s.indexAddr (decimalDigits (s.reg x)))

/-- `Fx55` LD [I], Vx (R221): `I` is unchanged (D22). -/
def execLdMemVx (x : Nibble) (s : State) : Host.Outcome State Fault Refusal :=
  match firstOutOfRange s.indexAddr (x.toNat + 1) with
  | some a => .next (s.raiseOutOfRange (.ldMemVx x) a)
  | none => .next (s.advance.writeBytes s.indexAddr (s.regsUpTo x))

/-- `Fx65` LD Vx, [I] (R222): `I` is unchanged (D22). -/
def execLdVxMem (x : Nibble) (s : State) : Host.Outcome State Fault Refusal :=
  match firstOutOfRange s.indexAddr (x.toNat + 1) with
  | some a => .next (s.raiseOutOfRange (.ldVxMem x) a)
  | none => .next (s.advance.loadRegsUpTo x s.indexAddr)

end Sys2Proof.Machine
end

