-- ==== Sys2Proof/Machine/KeyTimer.lean ====
section
/-! DEFINITION. The meanings of the keypad and timer instructions (spec/43_keypad_timer.md). -/

namespace Sys2Proof.Machine

/-- `Ex9E` SKP Vx (R200): `OutOfRange` with the key index where it is above 0xF (D19). -/
def execSkp (x : Nibble) (s : State) : Host.Outcome State Fault Refusal :=
  if 0xF < (s.reg x).toNat then .next (s.raiseOutOfRange (.skp x) (s.reg x).toNat)
  else .next (s.advance.skipIf (s.key (s.reg x).toNat))

/-- `ExA1` SKNP Vx (R201). -/
def execSknp (x : Nibble) (s : State) : Host.Outcome State Fault Refusal :=
  if 0xF < (s.reg x).toNat then .next (s.raiseOutOfRange (.sknp x) (s.reg x).toNat)
  else .next (s.advance.skipIf (!s.key (s.reg x).toNat))

/-- `Fx07` LD Vx, DT (R202). -/
def execLdVxDt (x : Nibble) (s : State) : Host.Outcome State Fault Refusal :=
  .next (s.advance.setReg x s.dt)

/-- `Fx0A` LD Vx, K (R203): the lowest pressed key, or `PC <- PC - 2`, back to this instruction. -/
def execLdVxK (x : Nibble) (s : State) : Host.Outcome State Fault Refusal :=
  match s.firstKey with
  | some k => .next (s.advance.setReg x (BitVec.ofNat 8 k))
  | none => .next { s.advance with pc := s.advance.pc - 2#16 }

/-- `Fx15` LD DT, Vx (R204). -/
def execLdDtVx (x : Nibble) (s : State) : Host.Outcome State Fault Refusal :=
  .next { s.advance with dt := s.reg x }

/-- `Fx18` LD ST, Vx (R205). -/
def execLdStVx (x : Nibble) (s : State) : Host.Outcome State Fault Refusal :=
  .next { s.advance with st := s.reg x }

end Sys2Proof.Machine
end

