-- ==== Sys2Proof/Machine/Engine.lean ====
section
/-! DEFINITION. One instruction step (R120) and its place in the tick transaction (R258). -/

namespace Sys2Proof.Machine

/-- The fetch (R67, R78, R90): the word at `PC` as the store stands now, or the first byte of it that is
out of range. -/
def State.fetch (s : State) : Except Nat Word := s.get16 s.pc.toNat

/-- `Step()` of R120 in the status `Running`: fetch, decode, execute. The faults come in this order
(R245). -/
def engineStep (s : State) : Host.Outcome State Fault Refusal :=
  match s.fetch with
  | .error a => .next (s.enterFault ⟨.outOfRange, some s.pc, none, some a⟩)
  | .ok w =>
    match decode w with
    | .error _ => .next (s.raiseInvalidOpcode w)
    | .ok i => exec i s

/-- The start of a step's turn: the timer phase, once, if this step is the first of its tick transaction
(R75, R258). -/
def State.beginStep (s : State) : State := if s.tickPos = 0 then s.timerTick else s

/-- The end of a step's turn: one more step of the tick transaction has run (R45). The transaction ends
after `IPT` steps, or when `Status` has left `Running` (R258), and `tickPos` is then 0 again. Log entry
7. -/
def State.endStep (s : State) : State :=
  { s with tickPos := if s.status = .running ∧ s.tickPos + 1 < s.cfg.ipt then s.tickPos + 1 else 0 }

/-- The end of a step's turn, on an outcome. -/
def endOutcome : Host.Outcome State Fault Refusal → Host.Outcome State Fault Refusal
  | .next s => .next s.endStep
  | .fault r => .fault r
  | .refused r => .refused r

/-- One turn of the core, with ticks following one another: the timer phase where a tick transaction
begins, then one instruction step. A transaction with no step left, as where `IPT = 0`, only ends. Out of
`Running` nothing changes (R44, R120, R260). -/
def turn (s : State) : Host.Outcome State Fault Refusal :=
  if s.status = .running then
    if s.tickPos < s.cfg.ipt then endOutcome (engineStep s.beginStep)
    else .next { s.beginStep with tickPos := 0 }
  else .next s

/-- The loop of `Tick()` (R258): up to `n` instruction steps; an exit or a fault ends it. -/
def batch : Nat → State → Host.Outcome State Fault Refusal
  | 0, s => .next s
  | n + 1, s =>
    if s.status = .running then
      match engineStep s with
      | .next t => batch n t
      | .fault r => .fault r
      | .refused r => .refused r
    else .next s

/-- `Tick()` (R258), the transaction the `tick` port runs (R263): the timer phase, then up to `IPT`
instruction steps. Out of `Running` it returns at once (R260). While a tick is running the interface
refuses it (R269; log entry 8). -/
def tick (s : State) : Host.Outcome State Fault Refusal :=
  if s.status = .running then
    if s.tickPos = 0 then batch s.cfg.ipt s.timerTick else .refused .tickRunning
  else .next s

end Sys2Proof.Machine
end

