-- ==== Sys2Proof/Machine/Step.lean ====
section
/-! DEFINITION. The step of the machine, and how a word is placed where it fetches. -/

namespace Sys2Proof.Machine

/-- One step of the machine: one instruction step, with the timer phase before the first one of a tick
(R120, R258; log entry 7). -/
def step (s : State) : Host.Outcome State Fault Refusal := turn s

/-- The state with an instruction's word, numbered as spec/opcode_table.json numbers it, at `PC`, high
byte first (R62): in the status `Running`, with `PC` in range and `IPT` above 0, the next step fetches
it. It stands for a program load (R283; log entry 12). -/
def State.withFetchWord (s : State) (nbits w : Nat) : State :=
  s.writeBytes s.pc.toNat [highByte (tableWord nbits w), lowByte (tableWord nbits w)]

end Sys2Proof.Machine
end

