-- ==== Sys2Proof/Machine/Interface.lean ====
section
/-! DEFINITION. The ports of the core (R262 to R269): boot and its program image, `IPT`, the keypad, and
what the outside reads. The `tick` port is `tick` of Engine.lean, the `rand` port is
`State.randomByte`. -/

namespace Sys2Proof.Machine

/-! ### Boot (R280 to R283) -/

/-- `RESET_REGS` (R8, R281, D2): the registers that the source gives no reset value start at 0, or at
values that are left free: an argument here, and a claim must hold for every choice. -/
inductive ResetRegs where
  | zero
  | arbitrary (v : Vector Byte 16) (index : Word) (dt st : Byte)
deriving DecidableEq, Repr

/-- Steps 1 and 2 of R280: the state as created, with the fonts in the store. -/
def created (c : Config) : ResetRegs → State
  | .zero => { State.reset with cfg := c }
  | .arbitrary v i dt st => { State.reset with cfg := c, v := v, index := i, dt := dt, st := st }

/-- The boot of R280: the state is created, then the image is loaded at 0x200. An image that does not fit
is not copied, and the core starts `Faulted(ProgramTooLarge)` with the image's length (R80, R240, R244,
R283). -/
def boot (c : Config) (r : ResetRegs) (image : List Byte) : State :=
  match (created c r).load 0x200 image with
  | .ok s => s
  | .error _ => (created c r).enterFault ⟨.programTooLarge, none, none, some image.length⟩

/-! ### Inputs -/

/-- The `key` port: the keypad collaborator sets the 16 flags (R264). -/
def State.setKeys (s : State) (k : Keypad) : State := { s with keys := k }

/-- `n` steps, no input changing between them. -/
def run : Nat → State → Host.Outcome State Fault Refusal
  | 0, s => .next s
  | n + 1, s =>
    match step s with
    | .next t => run n t
    | .fault r => .fault r
    | .refused r => .refused r

/-- A run in which the keypad collaborator may set every flag before every step (R206, R264, D27): one
step for each entry. -/
def runKeys : List Keypad → State → Host.Outcome State Fault Refusal
  | [], s => .next s
  | k :: ks, s =>
    match step (s.setKeys k) with
    | .next t => runKeys ks t
    | .fault r => .fault r
    | .refused r => .refused r

/-- The `ipt` port: the host sets `IPT` between two ticks, and not during one (R257, R269). `none`: the
interface admits no such change. -/
def State.setIpt (s : State) (n : Nat) : Option State :=
  if s.tickPos = 0 then some { s with cfg := { s.cfg with ipt := n } } else none

/-! ### Outputs -/

/-- `sound_on` (R266). -/
def State.soundOn (s : State) : Bool := decide (0 < s.st.toNat)

/-- `Status.kind` (R43, R240). -/
def Status.kind : Status → Nat
  | .running => 0
  | .exited => 1
  | .faulted _ => 2

/-- The numeric fault code of R240. -/
def FaultKind.code : FaultKind → Nat
  | .invalidOpcode => 1
  | .outOfRange => 2
  | .programTooLarge => 3

/-- What the presentation collaborator is shown (R268): the active grid's dimensions, its pixel bytes row
by row, the cell (x, y) at index `y * W + x` (R179), and the mode. -/
structure Picture where
  width    : Nat
  height   : Nat
  pixels   : List Byte
  extended : Bool
deriving DecidableEq, Repr

/-- The bytes of a grid, row by row (R179). -/
def Grid.bytes {w h : Nat} (g : Grid w h) : List Byte := (g.rows.toList.map (·.toList)).flatten

/-- The `fb` port: defined at tick boundaries only (R76, R268). -/
def State.picture (s : State) : Option Picture :=
  if s.tickPos = 0 then
    some { width := s.width, height := s.height, extended := s.extendedMode,
           pixels := if s.extendedMode then s.extGrid.bytes else s.stdGrid.bytes }
  else none

end Sys2Proof.Machine
end

