-- ==== Sys2Proof/Safety.lean ====
section
/-! DEFINITION. The terms the statements are made in: the parts of the state and what leaves them alone,
the invariant of the machine, and what a sprite draws. -/

namespace Sys2Proof.Machine

/-! ### Frames -/

/-- A part of the state, as finely as the spec names it: one register, one byte of the store. -/
inductive Part where
  | reg (x : Nibble)
  | pc
  | index
  | sp
  | dt
  | st
  | byte (a : Nat)
  | stdGrid
  | extGrid
  | mode
  | status
  | tickPos
  | keys
  | randCount
  | cfg
deriving DecidableEq, Repr

/-- Two states agree on a part. -/
def Part.same (s t : State) : Part → Prop
  | .reg x => t.reg x = s.reg x
  | .pc => t.pc = s.pc
  | .index => t.index = s.index
  | .sp => t.sp = s.sp
  | .dt => t.dt = s.dt
  | .st => t.st = s.st
  | .byte a => t.readByte a = s.readByte a
  | .stdGrid => t.stdGrid = s.stdGrid
  | .extGrid => t.extGrid = s.extGrid
  | .mode => t.extendedMode = s.extendedMode
  | .status => t.status = s.status
  | .tickPos => t.tickPos = s.tickPos
  | .keys => t.keys = s.keys
  | .randCount => t.randCount = s.randCount
  | .cfg => t.cfg = s.cfg

/-- The frame: every part of the state but those listed is as before. -/
def keepsOthers (written : List Part) (s t : State) : Prop := ∀ p : Part, p ∉ written → p.same s t

/-- The grid a display instruction may write (R41). -/
def State.activePart (s : State) : Part := if s.extendedMode then .extGrid else .stdGrid

/-- The parts of `n` bytes of the store from `a` on. -/
def bytesFrom (a n : Nat) : List Part := (List.range n).map (fun k => Part.byte (a + k))

/-- The parts of the registers `V[0]` to `V[x]`. -/
def regsTo (x : Nibble) : List Part := (List.range (x.toNat + 1)).map (fun k => Part.reg (BitVec.ofNat 4 k))

/-! ### The invariant -/

/-- A grid's cells hold 0x00 or 0xFF (R38, R39). -/
def Grid.onOff {w h : Nat} (g : Grid w h) : Prop := ∀ x y : Nat, g.at x y = 0x00#8 ∨ g.at x y = 0xFF#8

/-- A fault record has the fields that R240 gives its kind, and no others. -/
def FaultRecord.wf (r : FaultRecord) : Bool :=
  match r.kind with
  | .invalidOpcode => r.pc.isSome && r.opcode.isSome && r.addr.isNone
  | .outOfRange => r.pc.isSome && r.addr.isSome
  | .programTooLarge => r.pc.isNone && r.opcode.isNone && r.addr.isSome

/-- The record of a status is well formed. -/
def Status.wf : Status → Bool
  | .running => true
  | .exited => true
  | .faulted r => r.wf

/-- The invariant of the machine. -/
structure State.Inv (s : State) : Prop where
  /-- The store is in its canonical form. -/
  memory   : Memory.wf s.cfg.fonts s.mem
  /-- `SP` is even (R70). -/
  spEven   : s.sp.toNat % 2 = 0
  /-- The cells of both grids hold 0x00 or 0xFF (R39). -/
  std      : s.stdGrid.onOff
  ext      : s.extGrid.onOff
  /-- A tick transaction that has begun has a step left: where R45 counts to `IPT`, the model writes 0 (log
  entry 7). -/
  tick     : s.tickPos = 0 ∨ s.tickPos < s.cfg.ipt
  /-- Out of `Running` no tick transaction is under way (R258). -/
  halted   : s.status = .running ∨ s.tickPos = 0
  /-- The fault record is one of R240. -/
  record   : s.status.wf = true

/-! ### Sprites -/

/-- The coordinate that a draw reads from `V[x]` (R176): under `FlagThenResult` a coordinate in `VF` is
read after the reset of `VF` to 0 (D15). -/
def State.drawCoord (s : State) (x : Nibble) : Nat :=
  match s.cfg.flagWriteOrder with
  | .flagThenResult => if x = vf then 0 else (s.reg x).toNat
  | .resultThenFlag => (s.reg x).toNat

/-- How far, wrapping, the coordinate `p` lies behind `p0` on an axis of `m` cells. -/
def wrapOffset (m p0 p : Nat) : Nat := (p + m - p0 % m) % m

/-- The cell (px, py) of the active grid lies under a 1 bit of the sprite of 8-bit rows at `I`, `n` rows
high, drawn at (x0, y0): bit 7 is the leftmost pixel, row `r` is the byte at `I + r` (R171, R176). -/
def State.litBy8 (s : State) (x0 y0 n px py : Nat) : Bool :=
  let dx := wrapOffset s.width x0 px
  let dy := wrapOffset s.height y0 py
  decide (dy < n ∧ dx < 8) && (s.readByte (s.index.toNat + dy)).getMsbD dx

/-- The same for the 16×16 sprite at `I`: row `r` has its left half at `I + 2r` and its right half at
`I + 2r + 1` (R172, D24). -/
def State.litBy16 (s : State) (x0 y0 px py : Nat) : Bool :=
  let dx := wrapOffset s.width x0 px
  let dy := wrapOffset s.height y0 py
  decide (dy < 16 ∧ dx < 16) &&
    if dx < 8 then (s.readByte (s.index.toNat + 2 * dy)).getMsbD dx
    else (s.readByte (s.index.toNat + 2 * dy + 1)).getMsbD (dx - 8)

/-- What drawing does to the active grid and to `VF`, given which cells lie under a 1 bit (R171): each of
those is toggled, no other cell changes, and `VF` is 1 exactly if one of them was on. -/
def State.drawnBy (s t : State) (lit : Nat → Nat → Bool) : Prop :=
  (∀ px py : Nat, px < s.width → py < s.height →
    t.pixel px py = if lit px py then s.pixel px py ^^^ 0xFF#8 else s.pixel px py) ∧
  ((∃ px py : Nat, px < s.width ∧ py < s.height ∧ lit px py = true ∧ s.pixel px py = 0xFF#8) →
    t.reg vf = 0x01#8) ∧
  ((¬ ∃ px py : Nat, px < s.width ∧ py < s.height ∧ lit px py = true ∧ s.pixel px py = 0xFF#8) →
    t.reg vf = 0x00#8)

end Sys2Proof.Machine
end

