-- ==== Sys2Proof/Certificates/Slice0/Obligations.lean ====
section
/-! DEFINITION. The statements for the provers. A rule of the spec that rests on one of the spec's own
decisions (spec/92_eei_decisions.md) is named in the docstring with that decision. `keepsOthers l s t` says
that every part of the state but those of `l` is in `t` as in `s`. -/

open Sys2Proof Sys2Proof.Machine

/-! ### Encoding -/

/-- Words written out from the patterns of R96, one or more of each family, decode to the instruction they
stand for. That 812E is SHL is the spec's decision D12 (log entry 13), that 0000 stands for none its decision
D11 (log entry 17). -/
def Obligations.WordsFromThePatternsDecode : Prop :=
  decode 0x00CA#16 = .ok (.scd 0xA) ∧ decode 0x2ABC#16 = .ok (.call 0xABC) ∧
  decode 0x63F5#16 = .ok (.ldImm 0x3 0xF5) ∧ decode 0x812E#16 = .ok (.shl 0x1 0x2) ∧
  decode 0x9AB0#16 = .ok (.sneReg 0xA 0xB) ∧ decode 0xD011#16 = .ok (.drw 0x0 0x1 0x1) ∧
  decode 0xD120#16 = .ok (.drw16 0x1 0x2) ∧ decode 0xE2A1#16 = .ok (.sknp 0x2) ∧
  decode 0xFA15#16 = .ok (.ldDtVx 0xA) ∧ decode 0xF233#16 = .ok (.ldB 0x2) ∧
  decodeTableWord 16 0xA228 = some (.ldI 0x228) ∧ decodeTableWord 16 0x0000 = none

/-- Every well-formed instruction decodes from its own word, whatever its operands: no bit is dropped. -/
def Obligations.DecodeOfEncodeIsTheInstruction : Prop :=
  ∀ (i : Instr) (rest : List Byte), i.wellFormed = true →
    decode (encode i) = .ok i ∧ decodeBytes (encodeBytes i ++ rest) = .ok (i, rest)

/-- R101: a word is the word of the one instruction it decodes to, and that instruction is well formed. So no
word stands for two rows (R95). That the low nibble of `5xy0` and `9xy0` is not ignored is the spec's decision
D11 (log entry 17), the codes of op 8 are its decision D12 (log entry 13). -/
def Obligations.EveryDecodedWordIsOneRow : Prop :=
  ∀ (w : Word) (i : Instr), decode w = .ok i → encode i = w ∧ i.wellFormed = true

/-- R98: the invalid space, range by range. Op 5 and op 9 with a low nibble other than 0 are invalid by the
spec's decision D11, and the codes of op 8 are its decision D12. -/
def Obligations.InvalidWordsAreExactlyTheInvalidSpace : Prop :=
  ∀ w : Word, (∃ e, decode w = .error e) ↔
    (fieldOp w = 0x0#4 ∧ ¬ (0x00C0 ≤ w.toNat ∧ w.toNat ≤ 0x00CF) ∧
      w.toNat ∉ [0x00E0, 0x00EE, 0x00FB, 0x00FC, 0x00FD, 0x00FE, 0x00FF]) ∨
    ((fieldOp w = 0x5#4 ∨ fieldOp w = 0x9#4) ∧ fieldN w ≠ 0x0#4) ∨
    (fieldOp w = 0x8#4 ∧ fieldN w ∈ [0x8#4, 0x9#4, 0xA#4, 0xB#4, 0xC#4, 0xD#4, 0xF#4]) ∨
    (fieldOp w = 0xE#4 ∧ fieldKK w ∉ [0x9E#8, 0xA1#8]) ∨
    (fieldOp w = 0xF#4 ∧
      fieldKK w ∉ [0x07#8, 0x0A#8, 0x15#8, 0x18#8, 0x1E#8, 0x29#8, 0x30#8, 0x33#8, 0x55#8, 0x65#8])

/-! ### Reset and boot -/

/-- R46: what the state is right after boot with an empty program. `PC`, `SP` and the zero of the store are
the source's; the other zeros, the mode and the blank grids are the spec's decisions D2 and D3 (log entries 2
and 11), and the font bytes are its parameters (D20, log entry 3). -/
def Obligations.ResetLeavesTheBootState : Prop :=
  State.reset.pc = 0x200#16 ∧ State.reset.sp = 0x00#8 ∧ (∀ x, State.reset.reg x = 0x00#8) ∧
  State.reset.index = 0x0000#16 ∧ State.reset.dt = 0x00#8 ∧ State.reset.st = 0x00#8 ∧
  State.reset.extendedMode = false ∧ State.reset.status = .running ∧ State.reset.tickPos = 0 ∧
  State.reset.cfg.ipt = 10 ∧ (∀ k, State.reset.key k = false) ∧
  (∀ x y, State.reset.stdGrid.at x y = 0x00#8 ∧ State.reset.extGrid.at x y = 0x00#8) ∧
  (∀ a, a < 0x100 ∨ 0x1F0 ≤ a → State.reset.readByte a = 0x00#8) ∧
  (∀ k : Fin 80, State.reset.readByte (0x100 + k) = State.reset.cfg.fonts.small[k]) ∧
  (∀ k : Fin 160, State.reset.readByte (0x150 + k) = State.reset.cfg.fonts.big[k])

/-- R280 to R283 and R80: a boot with any image, any parameters and either `RESET_REGS`. An image of at most
3584 bytes stands at 0x200, the fonts at 0x100 and 0x150, and the rest of the store is zero; a longer one
leaves the core `Faulted(ProgramTooLarge)` with its length and no byte of it in the store. Every boot leaves
both grids blank and no key pressed (R46). Rests on the spec's decisions D2, D3, D20 and D33. -/
def Obligations.BootLoadsTheImageOrFaults : Prop :=
  ∀ (c : Config) (r : ResetRegs) (image : List Byte),
    (boot c r image).pc = 0x200#16 ∧ (boot c r image).sp = 0x00#8 ∧ (boot c r image).cfg = c ∧
    (boot c r image).tickPos = 0 ∧ (boot c r image).extendedMode = false ∧
    (∀ k, (boot c r image).key k = false) ∧
    (∀ x y, (boot c r image).stdGrid.at x y = 0x00#8 ∧ (boot c r image).extGrid.at x y = 0x00#8) ∧
    (∀ k : Fin 80, (boot c r image).readByte (0x100 + k) = c.fonts.small[k]) ∧
    (∀ k : Fin 160, (boot c r image).readByte (0x150 + k) = c.fonts.big[k]) ∧
    (∀ a, a < 0x100 ∨ (0x1F0 ≤ a ∧ a < 0x200) → (boot c r image).readByte a = 0x00#8) ∧
    (image.length ≤ 3584 → (boot c r image).status = .running ∧
      ∀ a, 0x200 ≤ a → (boot c r image).readByte a = image.getD (a - 0x200) 0x00#8) ∧
    (3584 < image.length →
      (boot c r image).status = .faulted ⟨.programTooLarge, none, none, some image.length⟩ ∧
      ∀ a, 0x200 ≤ a → (boot c r image).readByte a = 0x00#8) ∧
    (∀ (v : Vector Byte 16) (i : Word) (dt st : Byte), r = .arbitrary v i dt st →
      (boot c r image).v = v ∧ (boot c r image).index = i ∧ (boot c r image).dt = dt ∧
      (boot c r image).st = st) ∧
    (r = .zero → (∀ x, (boot c r image).reg x = 0x00#8) ∧ (boot c r image).index = 0x0000#16 ∧
      (boot c r image).dt = 0x00#8 ∧ (boot c r image).st = 0x00#8)

/-! ### The store -/

/-- R60 to R63: the byte and word accessors. What is written is read back, high byte at the lower address, at
odd addresses too; every other byte is unchanged; an access out of range answers the first address above
0xFFF and nothing else. The bound is the spec's decision D4, the absence of alignment its decision D6. -/
def Obligations.StoreAccessorsRoundTrip : Prop :=
  ∀ (s : State) (a : Nat) (b : Byte) (w : Word),
    (a ≤ 0xFFF → ∃ t, s.set8 a b = .ok t ∧ t.get8 a = .ok b ∧ keepsOthers [.byte a] s t) ∧
    (0xFFF < a → s.set8 a b = .error a ∧ s.get8 a = .error a) ∧
    (a ≤ 0xFFE → ∃ t, s.set16 a w = .ok t ∧ t.get16 a = .ok w ∧
      t.get8 a = .ok (w.extractLsb' 8 8) ∧ t.get8 (a + 1) = .ok (w.extractLsb' 0 8) ∧
      keepsOthers [.byte a, .byte (a + 1)] s t) ∧
    (0xFFE < a → s.set16 a w = .error (max a 0x1000) ∧ s.get16 a = .error (max a 0x1000))

/-- R79: the bulk load fails exactly where the data would pass the end of the store, before any byte is
copied; otherwise every byte lands and nothing else changes; a second load of the same data changes nothing
more. -/
def Obligations.BulkLoadCopiesAllOrNothing : Prop :=
  ∀ (s : State) (offset : Nat) (data : List Byte),
    (4096 < offset + data.length → ∃ a, s.load offset data = .error a) ∧
    (offset + data.length ≤ 4096 → ∃ t u, s.load offset data = .ok t ∧
      (∀ k (h : k < data.length), t.readByte (offset + k) = data[k]) ∧
      keepsOthers (bytesFrom offset data.length) s t ∧
      t.load offset data = .ok u ∧ keepsOthers [] t u)

/-! ### The step, the tick and the end of a run -/

/-- R120: where the word at `PC` decodes to an instruction, a step in the status `Running` with a step of the
tick left is that instruction's execution, after the timer phase if it is the tick's first step, and before
the tick position moves on. -/
def Obligations.StepRunsTheDecodedInstruction : Prop :=
  ∀ (s : State) (w : Word) (i : Instr), s.status = .running → s.tickPos < s.cfg.ipt →
    s.fetch = .ok w → decode w = .ok i →
    step s = endOutcome (exec i (if s.tickPos = 0 then s.timerTick else s))

/-- R67: a fetch that does not lie in the store faults before any decode. The record is that of the spec's
rule, with the address its conflict C17 settles; the state is otherwise that before the step (decision D7),
after the timer phase if the step is its tick's first. The fault ends the tick (R258): the tick position is 0,
which is where the model places a tick's end (log entry 7). -/
def Obligations.FetchOutOfRangeFaults : Prop :=
  ∀ s : State, s.status = .running → s.tickPos < s.cfg.ipt → 0xFFE < s.pc.toNat →
    ∃ t, step s = .next t ∧
      t.status = .faulted ⟨.outOfRange, some s.pc, none,
        some (if s.pc.toNat = 0xFFF then 0x1000 else s.pc.toNat)⟩ ∧
      t.tickPos = 0 ∧ keepsOthers [.status, .tickPos] (if s.tickPos = 0 then s.timerTick else s) t

/-- R98 and R242: a fetched word that matches no pattern raises `InvalidOpcode` with the word and the `PC` that
fetched it, and the advance of `PC` is discarded (decision D7). The state is otherwise that before the step,
after the timer phase if the step is its tick's first, and the tick position is 0 (log entry 7). Which words
match none is decision D11 (log entry 17). -/
def Obligations.InvalidWordFaults : Prop :=
  ∀ (s : State) (w : Word), s.status = .running → s.tickPos < s.cfg.ipt → s.fetch = .ok w →
    (∃ e, decode w = .error e) →
    ∃ t, step s = .next t ∧ t.status = .faulted ⟨.invalidOpcode, some s.pc, some w, none⟩ ∧
      t.tickPos = 0 ∧ keepsOthers [.status, .tickPos] (if s.tickPos = 0 then s.timerTick else s) t

/-- R241: an instruction that faults does nothing else. The state is the one before it with the record, which
holds its `PC` and its word (decision D7). -/
def Obligations.FaultDiscardsEveryEffect : Prop :=
  ∀ (i : Instr) (s t : State) (r : FaultRecord), s.status = .running → exec i s = .next t →
    t.status = .faulted r →
    keepsOthers [.status] s t ∧ r.pc = some s.pc ∧ r.opcode = some (encode i)

/-- R240: the records that an instruction's execution can leave: `OutOfRange` with an address above 0xFFF, or
with a key index above 0xF from one of the two key skips, or `InvalidOpcode` without an address, from a
scroll under `SCROLL_IN_STANDARD = Fault` in standard mode. Codes and record are the spec's decision D8. -/
def Obligations.OnlyTheListedInstructionsFault : Prop :=
  ∀ (i : Instr) (s t : State) (r : FaultRecord), s.status = .running → exec i s = .next t →
    t.status = .faulted r →
    (r.kind = .outOfRange ∧ (∃ a, r.addr = some a ∧ 0xFFF < a) ∧
      ∃ x y n, i ∈ [.drw x y n, .drw16 x y, .ldB x, .ldMemVx x, .ldVxMem x]) ∨
    (r.kind = .outOfRange ∧ (∃ a, r.addr = some a ∧ 0xF < a) ∧ ∃ x, i ∈ [.skp x, .sknp x]) ∨
    (r.kind = .invalidOpcode ∧ r.addr = none ∧ s.cfg.scrollInStandard = .fault ∧ s.extendedMode = false ∧
      ∃ n, i ∈ [.scd n, .scr, .scl])

/-- R44, R248, R260: out of `Running` no step changes anything, the timers included, whatever the keypad does
(decision D39). -/
def Obligations.NothingChangesAfterTheRunHasEnded : Prop :=
  ∀ (s : State), s.status ≠ .running →
    (∀ n, run n s = .next s) ∧
    (∀ ks t, runKeys ks s = .next t → keepsOthers [.keys] s t) ∧ tick s = .next s

/-- No state stops the machine outside its `Status`: every instruction and every step answers a next
state. -/
def Obligations.EveryStepAnswersANextState : Prop :=
  (∀ (i : Instr) (s : State), ∃ t, exec i s = .next t) ∧ (∀ s : State, ∃ t, step s = .next t)

/-- R258: `IPT` steps from a tick boundary are the tick transaction: one timer phase, then up to `IPT`
instruction steps, ended by an exit or a fault. With `IPT = 0` one step is the whole transaction. That the
steps of the model follow the ticks so is log entry 7. -/
def Obligations.StepsOfATickAreTheTickTransaction : Prop :=
  ∀ s : State, s.tickPos = 0 →
    run (max 1 s.cfg.ipt) s = tick s ∧ ∃ t, tick s = .next t ∧ t.tickPos = 0

/-- R253: the timer phase takes 1 from each timer that is above 0, each on its own test, and changes nothing
else. R257, R258: a tick without instructions, which decision D1 admits, is one timer phase. -/
def Obligations.TimerPhaseDecrementsEachTimerAboveZero : Prop :=
  ∀ s : State, s.timerTick.dt.toNat = (if 0 < s.dt.toNat then s.dt.toNat - 1 else 0) ∧
    s.timerTick.st.toNat = (if 0 < s.st.toNat then s.st.toNat - 1 else 0) ∧
    keepsOthers [.dt, .st] s s.timerTick ∧
    (s.status = .running → s.tickPos = 0 → s.cfg.ipt = 0 → tick s = .next s.timerTick)

/-- R253, R254, R259: ticks without instructions only count the two timers down, each on its own and never
below zero; a timer at `d` is at 0 after `d` of them. -/
def Obligations.TicksWithoutInstructionsOnlyCountDown : Prop :=
  ∀ (n : Nat) (s : State), s.status = .running → s.tickPos = 0 → s.cfg.ipt = 0 →
    ∃ t, run n s = .next t ∧ t.dt.toNat = s.dt.toNat - n ∧
      t.st.toNat = s.st.toNat - n ∧ keepsOthers [.dt, .st] s t

/-- R289, R75: inside a tick the timers change only by `Fx15` and `Fx18`. -/
def Obligations.TimersHoldInsideATick : Prop :=
  ∀ s t : State, s.tickPos ≠ 0 → step s = .next t →
    (t.dt = s.dt ∨ ∃ x, s.fetch = .ok (encode (.ldDtVx x)) ∧ t.dt = s.reg x) ∧
    (t.st = s.st ∨ ∃ x, s.fetch = .ok (encode (.ldStVx x)) ∧ t.st = s.reg x)

/-- R42, R43, R269: the core never writes the keypad flags or its parameters, `IPT` among them. -/
def Obligations.CoreNeverWritesItsInputs : Prop :=
  ∀ s t : State, step s = .next t → t.keys = s.keys ∧ t.cfg = s.cfg

/-! ### The invariant -/

/-- The reset state meets the invariant. -/
def Obligations.ResetMeetsTheInvariant : Prop := State.reset.Inv

/-- Every step keeps the invariant: the canonical form of the store (the model's, log entry 4), an even `SP`
(R70), cells of 0x00 or 0xFF (R39), a tick position that is 0 or below `IPT` (R45 counts 0 to `IPT`; that the
model writes 0 at a tick's end is log entry 7), a tick boundary out of `Running` (log entry 7), and a record of
R240. -/
def Obligations.StepKeepsTheInvariant : Prop :=
  ∀ s t : State, s.Inv → step s = .next t → t.Inv

/-- The invariant holds along every run, whatever the keypad collaborator does between the steps (R264,
decision D27), and after every boot. -/
def Obligations.InvariantHoldsUnderEveryKeyHistory : Prop :=
  (∀ (ks : List Keypad) (s : State), s.Inv → ∃ t, runKeys ks s = .next t ∧ t.Inv) ∧
  (∀ (c : Config) (r : ResetRegs) (image : List Byte), (boot c r image).Inv)

/-! ### Who may write what -/

/-- R34, R35, R36, R40, R44, R64: the instructions that write `I`, `SP`, a timer, the mode, a grid, the status
`Exited` or the store. The last line is about the model's own fields: `randCount` counts the bytes that R161
draws (log entry 10, DESIGN CHOICE), `tickPos` is moved by the step, not by an instruction (log entry 7). -/
def Obligations.SpecialStateHasOnlyItsWriters : Prop :=
  ∀ (i : Instr) (s t : State), exec i s = .next t →
    (t.index ≠ s.index → ∃ nnn x, i ∈ [.ldI nnn, .addI x, .ldF x, .ldHf x]) ∧
    (t.sp ≠ s.sp → ∃ nnn, i ∈ [.call nnn, .ret]) ∧
    (t.dt ≠ s.dt → ∃ x, i = .ldDtVx x) ∧
    (t.st ≠ s.st → ∃ x, i = .ldStVx x) ∧
    (t.extendedMode ≠ s.extendedMode → i ∈ [.low, .high]) ∧
    (t.stdGrid ≠ s.stdGrid ∨ t.extGrid ≠ s.extGrid →
      ∃ x y n, i ∈ [.cls, .scd n, .scr, .scl, .drw x y n, .drw16 x y]) ∧
    (t.status = .exited → s.status = .exited ∨ i = .exit) ∧
    ((∃ a, t.readByte a ≠ s.readByte a) → ∃ nnn x, i ∈ [.call nnn, .ldB x, .ldMemVx x]) ∧
    (t.randCount ≠ s.randCount → ∃ x kk, i = .rnd x kk) ∧ t.tickPos = s.tickPos

/-- R32, R288: `VF` changes only by an instruction that reports a flag in it, or by one whose destination
register it is. -/
def Obligations.FlagRegisterHasOnlyItsWriters : Prop :=
  ∀ (i : Instr) (s t : State), exec i s = .next t → t.reg vf ≠ s.reg vf →
    (∃ x y n, i ∈ [.addReg x y, .sub x y, .shr x y, .subn x y, .shl x y, .drw x y n, .drw16 x y, .addI x]) ∨
    (∃ y kk, i ∈ [.ldImm vf kk, .addImm vf kk, .ldReg vf y, .orReg vf y, .andReg vf y, .xorReg vf y,
      .rnd vf kk, .ldVxDt vf, .ldVxK vf, .ldVxMem vf])

/-! ### Control transfer -/

/-- R123: `1nnn` goes to `NNN` and changes nothing else; from 0xFFF the next fetch is out of range. -/
def Obligations.JumpGoesToNNN : Prop :=
  ∀ (nnn : Addr12) (s : State), decode (0x1#4 ++ nnn) = .ok (.jp nnn) ∧
    ∃ t, exec (.jp nnn) s = .next t ∧ t.pc.toNat = nnn.toNat ∧ keepsOthers [.pc] s t ∧
      (nnn.toNat = 0xFFF → t.fetch = .error 0x1000)

/-- R124: `Bnnn` goes to `NNN + V0`, not wrapped to 12 bits (decision D9). -/
def Obligations.JumpV0GoesToTheSum : Prop :=
  ∀ (nnn : Addr12) (s : State), decode (0xB#4 ++ nnn) = .ok (.jpV0 nnn) ∧
    ∃ t, exec (.jpV0 nnn) s = .next t ∧ t.pc.toNat = nnn.toNat + (s.reg 0x0#4).toNat ∧
      keepsOthers [.pc] s t

/-- R121: `2nnn` adds 2 to `SP`, modulo 256 (decision D10), writes the address after itself there, high byte
first, and goes to `NNN`. In every state: the write is in range. -/
def Obligations.CallPushesTheReturnAddress : Prop :=
  ∀ (nnn : Addr12) (s : State), decode (0x2#4 ++ nnn) = .ok (.call nnn) ∧
    ∃ t, exec (.call nnn) s = .next t ∧ t.pc.toNat = nnn.toNat ∧ t.sp.toNat = (s.sp.toNat + 2) % 256 ∧
      t.readByte t.sp.toNat ++ t.readByte (t.sp.toNat + 1) = s.pc + 2#16 ∧
      keepsOthers [.pc, .sp, .byte ((s.sp.toNat + 2) % 256), .byte ((s.sp.toNat + 2) % 256 + 1)] s t

/-- R122: `00EE` goes to the word at `SP` and subtracts 2 from `SP`, modulo 256 (decision D10). -/
def Obligations.ReturnPopsTheReturnAddress : Prop :=
  ∀ s : State, decode 0x00EE#16 = .ok .ret ∧
    ∃ t, exec .ret s = .next t ∧ t.pc = s.readByte s.sp.toNat ++ s.readByte (s.sp.toNat + 1) ∧
      t.sp.toNat = (s.sp.toNat + 254) % 256 ∧ keepsOthers [.pc, .sp] s t

/-- R121 and R122 together: a return right after a call resumes after the call with the stack pointer as it
was, whatever `SP` is. Only the stack word stays written. Rests on decision D10. -/
def Obligations.ReturnAfterCallResumesBehindIt : Prop :=
  ∀ (nnn : Addr12) (s : State), ∃ t u, exec (.call nnn) s = .next t ∧ exec .ret t = .next u ∧
    u.pc = s.pc + 2#16 ∧ u.sp = s.sp ∧
    keepsOthers [.pc, .byte ((s.sp.toNat + 2) % 256), .byte ((s.sp.toNat + 2) % 256 + 1)] s u

/-- R125 to R129: each of the four skips passes over one word exactly if its condition holds. That `3xkk` and
`5xy0` skip on equality and `4xkk` and `9xy0` on inequality is the spec's decision D13. -/
def Obligations.SkipsPassOverOneWord : Prop :=
  ∀ (x y : Nibble) (kk : Byte) (s : State) (i : Instr) (c : Bool),
    (i, c) ∈ [(.seImm x kk, s.reg x == kk), (.sneImm x kk, !(s.reg x == kk)),
      (.seReg x y, s.reg x == s.reg y), (.sneReg x y, !(s.reg x == s.reg y))] →
    ∃ t, exec i s = .next t ∧ t.pc = (if c then s.pc + 4#16 else s.pc + 2#16) ∧ keepsOthers [.pc] s t

/-- R131, R247: `00FD` ends the run cleanly. That `PC` keeps the advanced value is decision D29. -/
def Obligations.ExitEndsTheRun : Prop :=
  ∀ s : State, decode 0x00FD#16 = .ok .exit ∧
    ∃ t, exec .exit s = .next t ∧ t.status = .exited ∧ t.pc = s.pc + 2#16 ∧ keepsOthers [.pc, .status] s t

/-! ### Register loads, arithmetic and the random byte -/

/-- R140: `6xkk` writes `KK` to `V[X]`, `VF` too where it is named, and nothing else. -/
def Obligations.LoadImmediateWritesKK : Prop :=
  ∀ (x : Nibble) (kk : Byte) (s : State), decode (0x6#4 ++ x ++ kk) = .ok (.ldImm x kk) ∧
    ∃ t, exec (.ldImm x kk) s = .next t ∧ t.reg x = kk ∧ t.pc = s.pc + 2#16 ∧
      keepsOthers [.pc, .reg x] s t

/-- R141: `7xkk` adds modulo 256. That `VF` takes no carry is the spec's own reading of the source, marked
derived there. -/
def Obligations.AddImmediateWrapsWithoutCarry : Prop :=
  ∀ (x : Nibble) (kk : Byte) (s : State), decode (0x7#4 ++ x ++ kk) = .ok (.addImm x kk) ∧
    ∃ t, exec (.addImm x kk) s = .next t ∧ (t.reg x).toNat = ((s.reg x).toNat + kk.toNat) % 256 ∧
      t.pc = s.pc + 2#16 ∧ keepsOthers [.pc, .reg x] s t

/-- R143 to R146: move, OR, AND and XOR, bit by bit. The low nibbles are decision D12; that `VF` is written
only as the destination is decision D17. -/
def Obligations.MoveAndLogicWriteVxAlone : Prop :=
  ∀ (x y : Nibble) (s : State) (i : Instr) (f : Bool → Bool → Bool),
    i = .ldReg x y ∧ f = (fun _ b => b) ∨ i = .orReg x y ∧ f = or ∨ i = .andReg x y ∧ f = and ∨
      i = .xorReg x y ∧ f = xor →
    ∃ t, exec i s = .next t ∧ t.pc = s.pc + 2#16 ∧
      (∀ k, k < 8 → (t.reg x).getLsbD k = f ((s.reg x).getLsbD k) ((s.reg y).getLsbD k)) ∧
      keepsOthers [.pc, .reg x] s t

/-- R147, R148, R150: the sum and the two differences modulo 256 and their flags, where neither operand is
`VF`, under either order of writes. The low nibbles are decision D12. -/
def Obligations.AddAndSubtractReportCarryAndBorrow : Prop :=
  ∀ (x y : Nibble) (s : State) (i : Instr) (result flag : Nat), x ≠ vf → y ≠ vf →
    (i, result, flag) ∈
      [(.addReg x y, ((s.reg x).toNat + (s.reg y).toNat) % 256,
          if 255 < (s.reg x).toNat + (s.reg y).toNat then 1 else 0),
       (.sub x y, (256 + (s.reg x).toNat - (s.reg y).toNat) % 256,
          if (s.reg y).toNat ≤ (s.reg x).toNat then 1 else 0),
       (.subn x y, (256 + (s.reg y).toNat - (s.reg x).toNat) % 256,
          if (s.reg x).toNat ≤ (s.reg y).toNat then 1 else 0)] →
    ∃ t, exec i s = .next t ∧ (t.reg x).toNat = result ∧ (t.reg vf).toNat = flag ∧
      t.pc = s.pc + 2#16 ∧ keepsOthers [.pc, .reg x, .reg vf] s t

/-- R149, R151: the shifts by one, with the bit shifted out, where `V[X]` is not `VF`. `V[Y]` is not read:
whatever `y` is, `VF` too. The flag of the left shift is the parameter of decision D16. -/
def Obligations.ShiftsReportTheBitShiftedOut : Prop :=
  ∀ (x y : Nibble) (s : State) (i : Instr) (result flag : Nat), x ≠ vf →
    (i, result, flag) ∈
      [(.shr x y, (s.reg x).toNat / 2, (s.reg x).toNat % 2),
       (.shl x y, 2 * (s.reg x).toNat % 256,
          if s.cfg.shlFlagMode = .bit7 then (s.reg x).toNat / 128 else 0)] →
    ∃ t, exec i s = .next t ∧ (t.reg x).toNat = result ∧ (t.reg vf).toNat = flag ∧
      t.pc = s.pc + 2#16 ∧ keepsOthers [.pc, .reg x, .reg vf] s t

/-- R152 under `FlagThenResult`: the table of outcomes where a flag-writing operation names `VF`, row by row,
`f` being the flag from the operands as they were (decision D15). -/
def Obligations.FlagThenResultTable : Prop :=
  ∀ (x y : Nibble) (s : State), s.cfg.flagWriteOrder = .flagThenResult →
    let a := (s.reg x).toNat
    let b := (s.reg y).toNat
    let carry := if 255 < a + b then 1 else 0
    let notLess := if b ≤ a then 1 else 0
    let notGreater := if a ≤ b then 1 else 0
    let bit7 := if s.cfg.shlFlagMode = .bit7 then a / 128 else 0
    (x = vf → ∀ (i : Instr) (r : Nat),
      (i, r) ∈ [(.shr x y, 0), (.shl x y, 2 * bit7)] ∨
      (y ≠ vf ∧ (i, r) ∈ [(.addReg x y, (carry + b) % 256), (.sub x y, (256 + notLess - b) % 256),
        (.subn x y, (256 + b - notGreater) % 256)]) ∨
      (y = vf ∧ (i, r) ∈ [(.addReg x y, 2 * (a / 128)), (.sub x y, 0), (.subn x y, 0)]) →
      ∃ t, exec i s = .next t ∧ (t.reg vf).toNat = r ∧ t.pc = s.pc + 2#16 ∧
        keepsOthers [.pc, .reg vf] s t) ∧
    (x ≠ vf → y = vf → ∀ (i : Instr) (r f : Nat),
      (i, r, f) ∈ [(.addReg x y, (a + carry) % 256, carry), (.sub x y, (256 + a - notLess) % 256, notLess),
        (.subn x y, (256 + notGreater - a) % 256, notGreater)] →
      ∃ t, exec i s = .next t ∧ (t.reg x).toNat = r ∧ (t.reg vf).toNat = f ∧ t.pc = s.pc + 2#16 ∧
        keepsOthers [.pc, .reg x, .reg vf] s t)

/-- R152 under `ResultThenFlag`: with `x` naming `VF`, `VF` is the flag; with `y` alone naming it, `V[X]` is
the result of the operands as they were, and `VF` the flag (decision D15). -/
def Obligations.ResultThenFlagTable : Prop :=
  ∀ (x y : Nibble) (s : State), s.cfg.flagWriteOrder = .resultThenFlag →
    let a := (s.reg x).toNat
    let b := (s.reg y).toNat
    ∀ (i : Instr) (r f : Nat),
      (i, r, f) ∈ [(.addReg x y, (a + b) % 256, if 255 < a + b then 1 else 0),
        (.sub x y, (256 + a - b) % 256, if b ≤ a then 1 else 0), (.shr x y, a / 2, a % 2),
        (.subn x y, (256 + b - a) % 256, if a ≤ b then 1 else 0),
        (.shl x y, 2 * a % 256, if s.cfg.shlFlagMode = .bit7 then a / 128 else 0)] →
      ∃ t, exec i s = .next t ∧ (x ≠ vf → (t.reg x).toNat = r) ∧ (t.reg vf).toNat = f ∧
        t.pc = s.pc + 2#16 ∧ keepsOthers [.pc, .reg x, .reg vf] s t

/-- R160: `Cxkk` writes the random byte masked with `KK`, and draws it once. The byte is a free value, so this
holds for every one (R161, decision D18; log entry 10). -/
def Obligations.RandomByteIsMaskedWithKK : Prop :=
  ∀ (x : Nibble) (kk : Byte) (s : State), decode (0xC#4 ++ x ++ kk) = .ok (.rnd x kk) ∧
    ∃ t, exec (.rnd x kk) s = .next t ∧ t.reg x = s.randomByte &&& kk ∧ (kk = 0x00#8 → t.reg x = 0x00#8) ∧
      t.randCount = s.randCount + 1 ∧ t.pc = s.pc + 2#16 ∧ keepsOthers [.pc, .reg x, .randCount] s t

/-! ### Display -/

/-- R170, R175: `00E0` turns every cell of the active grid off and touches nothing else. In extended mode a
`00FE` after it shows the standard grid's pixels as they were. -/
def Obligations.ClearBlanksTheActiveGrid : Prop :=
  ∀ s : State, decode 0x00E0#16 = .ok .cls ∧
    ∃ t, exec .cls s = .next t ∧ (∀ px py, px < s.width → py < s.height → t.pixel px py = 0x00#8) ∧
      t.pc = s.pc + 2#16 ∧ keepsOthers [.pc, s.activePart] s t ∧
      (s.extendedMode = true → ∃ u, exec .low t = .next u ∧ ∀ px py, u.pixel px py = s.stdGrid.at px py)

/-- R183, R184: `00FF` and `00FE` select the grid and alter neither. -/
def Obligations.ModeSwitchesKeepBothGrids : Prop :=
  ∀ s : State, decode 0x00FF#16 = .ok .high ∧ decode 0x00FE#16 = .ok .low ∧
    (∃ t, exec .high s = .next t ∧ t.extendedMode = true ∧ t.pc = s.pc + 2#16 ∧
      keepsOthers [.pc, .mode] s t) ∧
    (∃ t, exec .low s = .next t ∧ t.extendedMode = false ∧ t.pc = s.pc + 2#16 ∧
      keepsOthers [.pc, .mode] s t)

/-- R173, R174, R180 to R182: the scrolls, cell by cell, where they execute: in extended mode, or under
`SCROLL_IN_STANDARD = Execute`. Under `Fault` they raise `InvalidOpcode` in standard mode, with no effect
(R178, decision D26). Directions are decision D25; `n = 0` moves nothing (D36). -/
def Obligations.ScrollsShiftTheActiveGridOrFault : Prop :=
  ∀ (n : Nibble) (s : State),
    (s.cfg.scrollInStandard = .fault → s.extendedMode = false → ∀ i ∈ [Instr.scd n, Instr.scr, Instr.scl],
      ∃ t, exec i s = .next t ∧
        t.status = .faulted ⟨.invalidOpcode, some s.pc, some (encode i), none⟩ ∧
        keepsOthers [.status] s t) ∧
    (s.cfg.scrollInStandard = .execute ∨ s.extendedMode = true →
      (∃ t, exec (.scd n) s = .next t ∧ t.pc = s.pc + 2#16 ∧ keepsOthers [.pc, s.activePart] s t ∧
        ∀ px py, px < s.width → py < s.height →
          t.pixel px py = if n.toNat ≤ py then s.pixel px (py - n.toNat) else 0x00#8) ∧
      (∃ t, exec .scr s = .next t ∧ t.pc = s.pc + 2#16 ∧ keepsOthers [.pc, s.activePart] s t ∧
        ∀ px py, px < s.width → py < s.height →
          t.pixel px py = if 4 ≤ px then s.pixel (px - 4) py else 0x00#8) ∧
      (∃ t, exec .scl s = .next t ∧ t.pc = s.pc + 2#16 ∧ keepsOthers [.pc, s.activePart] s t ∧
        ∀ px py, px < s.width → py < s.height →
          t.pixel px py = if px ≤ s.width - 5 then s.pixel (px + 4) py else 0x00#8))

/-- R171, R176: `Dxyn` toggles exactly the cells of the active grid that lie under a 1 bit of the `n` bytes at
`I`, wrapping, and `VF` says whether one of them was on. A coordinate in `VF` is read as decision D15
says. -/
def Obligations.DrawTogglesTheSprite : Prop :=
  ∀ (x y n : Nibble) (s : State), s.index.toNat + n.toNat ≤ 4096 →
    ∃ t, exec (.drw x y n) s = .next t ∧
      s.drawnBy t (s.litBy8 (s.drawCoord x) (s.drawCoord y) n.toNat) ∧
      t.pc = s.pc + 2#16 ∧ keepsOthers [.pc, .reg vf, s.activePart] s t

/-- R172, R177: `Dxy0` in extended mode does the same with the 16×16 sprite of the 32 bytes at `I`; the layout of
its rows is decision D24. In standard mode it draws nothing and leaves `VF = 0`, wherever `I` points
(decision D23). -/
def Obligations.Draw16TogglesTheSpriteInExtendedModeOnly : Prop :=
  ∀ (x y : Nibble) (s : State),
    (s.extendedMode = true → s.index.toNat + 32 ≤ 4096 →
      ∃ t, exec (.drw16 x y) s = .next t ∧ s.drawnBy t (s.litBy16 (s.drawCoord x) (s.drawCoord y)) ∧
        t.pc = s.pc + 2#16 ∧ keepsOthers [.pc, .reg vf, .extGrid] s t) ∧
    (s.extendedMode = false →
      ∃ t, exec (.drw16 x y) s = .next t ∧ t.reg vf = 0x00#8 ∧ t.pc = s.pc + 2#16 ∧
        keepsOthers [.pc, .reg vf] s t)

/-- R185: drawing the same sprite twice at the same place restores the grid (its second law), for `Dxyn`, for the
16×16 sprite of `Dxy0`, and for `Dxy0` in standard mode, which draws nothing (decision D23). The place is the
same unless a coordinate is in `VF` under `ResultThenFlag`, where the first draw may move it (decision D15). The
second draw reports a collision exactly where a cell under a 1 bit was off before the first: R185's third law
says it of every sprite with a 1 bit, which by R171 holds where those cells were all off (log entry 15). A
sprite without a 1 bit changes nothing and leaves `VF = 0` (the fourth law). -/
def Obligations.DrawingTwiceRestoresTheGrid : Prop :=
  ∀ (x y n : Nibble) (s : State) (i : Instr) (len : Nat) (lit : Nat → Nat → Bool),
    (i = .drw x y n ∧ len = n.toNat ∧ lit = s.litBy8 (s.drawCoord x) (s.drawCoord y) n.toNat ∧
        s.index.toNat + len ≤ 4096) ∨
      (s.extendedMode = true ∧ i = .drw16 x y ∧ len = 32 ∧ lit = s.litBy16 (s.drawCoord x) (s.drawCoord y) ∧
        s.index.toNat + len ≤ 4096) ∨
      (s.extendedMode = false ∧ i = .drw16 x y ∧ len = 0 ∧ lit = fun _ _ => false) →
    ∃ t u, exec i s = .next t ∧ exec i t = .next u ∧
      ((x ≠ vf ∧ y ≠ vf) ∨ s.cfg.flagWriteOrder = .flagThenResult →
        t.drawCoord x = s.drawCoord x ∧ t.drawCoord y = s.drawCoord y) ∧
      (t.drawCoord x = s.drawCoord x → t.drawCoord y = s.drawCoord y →
        u.stdGrid = s.stdGrid ∧ u.extGrid = s.extGrid ∧
        (u.reg vf = 0x01#8 ∨ u.reg vf = 0x00#8) ∧
        (u.reg vf = 0x01#8 ↔ ∃ px py, px < s.width ∧ py < s.height ∧ lit px py = true ∧
          s.pixel px py = 0x00#8) ∧
        ((∀ px py, px < s.width → py < s.height → lit px py = true → s.pixel px py = 0x00#8) →
          (u.reg vf = 0x01#8 ↔ ∃ k, k < len ∧ s.readByte (s.index.toNat + k) ≠ 0x00#8))) ∧
      ((∀ k, k < len → s.readByte (s.index.toNat + k) = 0x00#8) →
        t.stdGrid = s.stdGrid ∧ t.extGrid = s.extGrid ∧ t.reg vf = 0x00#8)

/-- R179, R268: at a tick boundary the outside reads the active grid's size and its pixel bytes, the cell
(x, y) at index `y * W + x`; inside a tick it reads nothing (decisions D25, D28). -/
def Obligations.PictureIsRowMajorAtTickBoundaries : Prop :=
  ∀ s : State, (s.tickPos ≠ 0 → s.picture = none) ∧
    (s.tickPos = 0 → ∃ p, s.picture = some p ∧ p.extended = s.extendedMode ∧
      p.width = s.width ∧ p.height = s.height ∧ p.pixels.length = s.width * s.height ∧
      ∀ px py, px < s.width → py < s.height → p.pixels[py * s.width + px]? = some (s.pixel px py))

/-! ### Keypad and timers -/

/-- R200, R201: the key skips test the key whose index is in `V[X]`; an index above 15 raises `OutOfRange` with
the index and has no other effect (decision D19). Which of the two skips on a pressed key is decision
D14. -/
def Obligations.KeySkipsTestTheKeyOrFault : Prop :=
  ∀ (x : Nibble) (s : State),
    (∀ k : Fin 16, (s.reg x).toNat = k →
      (∃ t, exec (.skp x) s = .next t ∧ t.pc = (if s.keys[k] then s.pc + 4#16 else s.pc + 2#16) ∧
        keepsOthers [.pc] s t) ∧
      (∃ t, exec (.sknp x) s = .next t ∧ t.pc = (if s.keys[k] then s.pc + 2#16 else s.pc + 4#16) ∧
        keepsOthers [.pc] s t)) ∧
    (0xF < (s.reg x).toNat → ∀ i ∈ [Instr.skp x, Instr.sknp x],
      ∃ t, exec i s = .next t ∧
        t.status = .faulted ⟨.outOfRange, some s.pc, some (encode i), some (s.reg x).toNat⟩ ∧
        keepsOthers [.status] s t)

/-- R203: with a key pressed, `Fx0A` takes the lowest one and goes on; with none, it changes nothing at all.
That it awaits no release is decision D38. -/
def Obligations.KeyWaitTakesTheLowestKey : Prop :=
  ∀ (x : Nibble) (s : State),
    (∀ k : Fin 16, s.keys[k] = true → (∀ j : Fin 16, j < k → s.keys[j] = false) →
      ∃ t, exec (.ldVxK x) s = .next t ∧ (t.reg x).toNat = k ∧ t.pc = s.pc + 2#16 ∧
        keepsOthers [.pc, .reg x] s t) ∧
    ((∀ k : Fin 16, s.keys[k] = false) → ∃ t, exec (.ldVxK x) s = .next t ∧ keepsOthers [] s t)

/-- R203, R207: with no key ever pressed, a program waiting in `Fx0A` waits forever: after any number of steps
it is at the same `PC`, still running, and only the timers and the tick position have moved. -/
def Obligations.KeyWaitSpinsWhileNoKeyIsPressed : Prop :=
  ∀ (n : Nat) (x : Nibble) (s : State), s.status = .running → s.tickPos < s.cfg.ipt →
    s.fetch = .ok (encode (.ldVxK x)) → (∀ k : Fin 16, s.keys[k] = false) →
    ∃ t, run n s = .next t ∧ t.status = .running ∧
      keepsOthers [.dt, .st, .tickPos] s t ∧ t.dt.toNat ≤ s.dt.toNat ∧ t.st.toNat ≤ s.st.toNat

/-- R202, R204, R205, R266: the timer moves, and `sound_on` after `Fx18`. -/
def Obligations.TimerMovesCopyTheValue : Prop :=
  ∀ (x : Nibble) (s : State),
    (∃ t, exec (.ldVxDt x) s = .next t ∧ t.reg x = s.dt ∧ t.pc = s.pc + 2#16 ∧
      keepsOthers [.pc, .reg x] s t) ∧
    (∃ t, exec (.ldDtVx x) s = .next t ∧ t.dt = s.reg x ∧ t.pc = s.pc + 2#16 ∧ keepsOthers [.pc, .dt] s t) ∧
    (∃ t, exec (.ldStVx x) s = .next t ∧ t.st = s.reg x ∧ t.pc = s.pc + 2#16 ∧ keepsOthers [.pc, .st] s t ∧
      (t.soundOn = true ↔ s.reg x ≠ 0x00#8))

/-! ### The index register and the store -/

/-- R215: `Annn` sets `I`; with 0xFFF there, an access of more than one byte at `I` is out of range. -/
def Obligations.LoadIndexSetsNNN : Prop :=
  ∀ (nnn : Addr12) (s : State), decode (0xA#4 ++ nnn) = .ok (.ldI nnn) ∧
    ∃ t, exec (.ldI nnn) s = .next t ∧ t.index.toNat = nnn.toNat ∧ t.pc = s.pc + 2#16 ∧
      keepsOthers [.pc, .index] s t ∧
      (nnn.toNat = 0xFFF → firstOutOfRange t.indexAddr 1 = none ∧
        ∀ n, 1 < n → firstOutOfRange t.indexAddr n = some 0x1000)

/-- R217: `Fx1E` adds to `I` modulo 2^16, and `VF` says whether the exact sum exceeds 0xFFF, for `x` naming `VF`
too (decision D34). -/
def Obligations.AddIndexReportsRange : Prop :=
  ∀ (x : Nibble) (s : State), decode (0xF#4 ++ x ++ 0x1E#8) = .ok (.addI x) ∧
    ∃ t, exec (.addI x) s = .next t ∧ t.index.toNat = (s.index.toNat + (s.reg x).toNat) % 65536 ∧
      (t.reg vf).toNat = (if 0xFFF < s.index.toNat + (s.reg x).toNat then 1 else 0) ∧
      t.pc = s.pc + 2#16 ∧ keepsOthers [.pc, .index, .reg vf] s t

/-- R218, R219: `Fx29` and `Fx30` point `I` at the glyph of the digit, which is `V[X]` or its low nibble
(decision D21). -/
def Obligations.FontLoadsPointAtTheGlyph : Prop :=
  ∀ (x : Nibble) (s : State) (d : Nat),
    d = (if s.cfg.fontIndexMode = .full then (s.reg x).toNat else (s.reg x).toNat % 16) →
    (∃ t, exec (.ldF x) s = .next t ∧ t.index.toNat = 0x100 + 5 * d ∧ t.pc = s.pc + 2#16 ∧
      keepsOthers [.pc, .index] s t) ∧
    (∃ t, exec (.ldHf x) s = .next t ∧ t.index.toNat = 0x150 + 10 * d ∧ t.pc = s.pc + 2#16 ∧
      keepsOthers [.pc, .index] s t)

/-- R220: `Fx33` stores the three decimal digits at `I`, `I + 1`, `I + 2`, or, where one of these is above
0xFFF, raises `OutOfRange` with the first that is and writes nothing. The bound, the fault before any effect
and the discarded `PC` advance are the spec's decisions D4, D5 and D7 (log entry 14). -/
def Obligations.DecimalDigitsAreStored : Prop :=
  ∀ (x : Nibble) (s : State), decode (0xF#4 ++ x ++ 0x33#8) = .ok (.ldB x) ∧
    (s.index.toNat + 2 ≤ 0xFFF → ∃ t, exec (.ldB x) s = .next t ∧
      (t.readByte s.index.toNat).toNat = (s.reg x).toNat / 100 ∧
      (t.readByte (s.index.toNat + 1)).toNat = (s.reg x).toNat / 10 % 10 ∧
      (t.readByte (s.index.toNat + 2)).toNat = (s.reg x).toNat % 10 ∧ t.pc = s.pc + 2#16 ∧
      keepsOthers (.pc :: bytesFrom s.index.toNat 3) s t) ∧
    (0xFFF < s.index.toNat + 2 → ∃ t, exec (.ldB x) s = .next t ∧
      t.status = .faulted ⟨.outOfRange, some s.pc, some (encode (.ldB x)), some (max s.index.toNat 0x1000)⟩ ∧
      keepsOthers [.status] s t)

/-- R221: `Fx55` stores `V0` to `Vx`, inclusive, at `I` and up. That `I` is unchanged is decision D22. -/
def Obligations.BlockStoreWritesV0ToVx : Prop :=
  ∀ (x : Nibble) (s : State), s.index.toNat + x.toNat ≤ 0xFFF →
    ∃ t, exec (.ldMemVx x) s = .next t ∧
      (∀ k : Nibble, k ≤ x → t.readByte (s.index.toNat + k.toNat) = s.reg k) ∧ t.pc = s.pc + 2#16 ∧
      keepsOthers (.pc :: bytesFrom s.index.toNat (x.toNat + 1)) s t

/-- R222: `Fx65` loads `V0` to `Vx`, inclusive, from `I` and up. That `I` is unchanged is decision D22. -/
def Obligations.BlockLoadReadsV0ToVx : Prop :=
  ∀ (x : Nibble) (s : State), s.index.toNat + x.toNat ≤ 0xFFF →
    ∃ t, exec (.ldVxMem x) s = .next t ∧
      (∀ k : Nibble, k ≤ x → t.reg k = s.readByte (s.index.toNat + k.toNat)) ∧ t.pc = s.pc + 2#16 ∧
      keepsOthers (.pc :: regsTo x) s t

/-- R65, R66, R243: a block instruction that would touch an address above 0xFFF raises `OutOfRange` with the
first such address in ascending order, and does nothing else: no byte, register or pixel changes (decisions
D5, D7). `Dxy0` reads its 32 bytes in extended mode only. -/
def Obligations.BlockAccessOutOfRangeFaults : Prop :=
  ∀ (x y n : Nibble) (s : State) (i : Instr) (len : Nat), i.wellFormed = true →
    (i, len) ∈ [(.drw x y n, n.toNat), (.ldMemVx x, x.toNat + 1), (.ldVxMem x, x.toNat + 1)] ∨
      (s.extendedMode = true ∧ (i, len) = (.drw16 x y, 32)) →
    4096 < s.index.toNat + len →
    ∃ t, exec i s = .next t ∧
      t.status = .faulted ⟨.outOfRange, some s.pc, some (encode i),
        some (if s.index.toNat ≤ 0xFFF then 0x1000 else s.index.toNat)⟩ ∧
      keepsOthers [.status] s t

/-- R78, R287: what `Fx55`, `Fx33` and `2nnn` store is what the fetch after them reads, wherever that fetch is:
`p` is the next `PC` itself, or one that later instructions which store nothing lead to. Where the instruction
wrote over the word at `p`, its own word included, the new bytes are fetched; the other bytes are the old ones.
Rests on decision D30. -/
def Obligations.StoredCodeIsFetchedNext : Prop :=
  ∀ (s : State) (i : Instr) (a : Nat) (stored : List Byte) (next : Word),
    (∃ x : Nibble, i = .ldMemVx x ∧ a = s.index.toNat ∧ a + x.toNat ≤ 0xFFF ∧
        stored = (List.range (x.toNat + 1)).map (fun k => s.reg (BitVec.ofNat 4 k)) ∧ next = s.pc + 2#16) ∨
      (∃ x : Nibble, i = .ldB x ∧ a = s.index.toNat ∧ a + 2 ≤ 0xFFF ∧
        stored = [(s.reg x).toNat / 100, (s.reg x).toNat / 10 % 10, (s.reg x).toNat % 10].map (BitVec.ofNat 8) ∧
        next = s.pc + 2#16) ∨
      (∃ nnn : Addr12, i = .call nnn ∧ a = (s.sp.toNat + 2) % 256 ∧
        stored = [(s.pc + 2#16).extractLsb' 8 8, (s.pc + 2#16).extractLsb' 0 8] ∧ next = 0x0#4 ++ nnn) →
    let byteAt (q : Nat) : Byte :=
      if a ≤ q ∧ q < a + stored.length then stored.getD (q - a) 0x00#8 else s.readByte q
    ∃ t, exec i s = .next t ∧ t.pc = next ∧
      ∀ p : Word, p.toNat ≤ 0xFFE →
        State.fetch { t with pc := p } = .ok (byteAt p.toNat ++ byteAt (p.toNat + 1))

/-! ### The host -/

/-- R269: between two ticks the host may invoke `tick`, which then answers the state after the whole
transaction, and may set `IPT`, which changes nothing else; while a tick is running the interface refuses both
(decision D1 and row 26 of the spec's list of open behaviours; log entry 8). -/
def Obligations.HostActsBetweenTicksOnly : Prop :=
  ∀ (s : State) (n : Nat),
    (s.tickPos = 0 → (∃ t, tick s = .next t ∧ t.tickPos = 0 ∧ t.cfg = s.cfg ∧ t.keys = s.keys) ∧
      ∃ u, s.setIpt n = some u ∧ u.cfg = { s.cfg with ipt := n } ∧ keepsOthers [.cfg] s u) ∧
    (s.tickPos ≠ 0 → s.setIpt n = none ∧ (s.status = .running → tick s = .refused .tickRunning))
end

