-- ==== Sys2Proof/Laws/Decode.lean ====
section
/-! SUPPORT. The fields of a word put together from its fields, and a word put together from its fields
(R91, R93). -/

namespace Sys2Proof

/-! ### Format NNN -/

@[simp] theorem fieldOp_nnn (op : Nibble) (nnn : Addr12) : fieldOp (op ++ nnn) = op := by
  ext i hi
  rw [fieldOp, BitVec.getElem_extractLsb', BitVec.getLsbD_append, if_neg (by omega), Nat.add_sub_cancel_left,
    BitVec.getLsbD_eq_getElem hi]

@[simp] theorem fieldNNN_nnn (op : Nibble) (nnn : Addr12) : fieldNNN (op ++ nnn) = nnn := by
  ext i hi
  rw [fieldNNN, BitVec.getElem_extractLsb', BitVec.getLsbD_append, if_pos (by omega), Nat.zero_add,
    BitVec.getLsbD_eq_getElem hi]

/-! ### Formats XKK and X -/

@[simp] theorem fieldOp_xkk (op x : Nibble) (kk : Byte) : fieldOp (op ++ x ++ kk) = op := by
  ext i hi
  rw [fieldOp, BitVec.getElem_extractLsb', BitVec.getLsbD_append, if_neg (by omega), BitVec.getLsbD_append,
    if_neg (by omega), ← BitVec.getLsbD_eq_getElem hi]
  congr 1
  omega

@[simp] theorem fieldX_xkk (op x : Nibble) (kk : Byte) : fieldX (op ++ x ++ kk) = x := by
  ext i hi
  rw [fieldX, BitVec.getElem_extractLsb', BitVec.getLsbD_append, if_neg (by omega), BitVec.getLsbD_append,
    if_pos (by omega), ← BitVec.getLsbD_eq_getElem hi]
  congr 1
  omega

@[simp] theorem fieldKK_xkk (op x : Nibble) (kk : Byte) : fieldKK (op ++ x ++ kk) = kk := by
  ext i hi
  rw [fieldKK, BitVec.getElem_extractLsb', BitVec.getLsbD_append, if_pos (by omega), Nat.zero_add,
    BitVec.getLsbD_eq_getElem hi]

/-! ### Formats XY and XYN -/

@[simp] theorem fieldOp_xyn (op x y n : Nibble) : fieldOp (op ++ x ++ y ++ n) = op := by
  ext i hi
  rw [fieldOp, BitVec.getElem_extractLsb', BitVec.getLsbD_append, if_neg (by omega), BitVec.getLsbD_append,
    if_neg (by omega), BitVec.getLsbD_append, if_neg (by omega), ← BitVec.getLsbD_eq_getElem hi]
  congr 1
  omega

@[simp] theorem fieldX_xyn (op x y n : Nibble) : fieldX (op ++ x ++ y ++ n) = x := by
  ext i hi
  rw [fieldX, BitVec.getElem_extractLsb', BitVec.getLsbD_append, if_neg (by omega), BitVec.getLsbD_append,
    if_neg (by omega), BitVec.getLsbD_append, if_pos (by omega), ← BitVec.getLsbD_eq_getElem hi]
  congr 1
  omega

@[simp] theorem fieldY_xyn (op x y n : Nibble) : fieldY (op ++ x ++ y ++ n) = y := by
  ext i hi
  rw [fieldY, BitVec.getElem_extractLsb', BitVec.getLsbD_append, if_neg (by omega), BitVec.getLsbD_append,
    if_pos (by omega), ← BitVec.getLsbD_eq_getElem hi]
  congr 1
  omega

@[simp] theorem fieldN_xyn (op x y n : Nibble) : fieldN (op ++ x ++ y ++ n) = n := by
  ext i hi
  rw [fieldN, BitVec.getElem_extractLsb', BitVec.getLsbD_append, if_pos (by omega), Nat.zero_add,
    BitVec.getLsbD_eq_getElem hi]

/-! ### Format N -/

theorem scd_word (n : Nibble) : (0x00C#12 ++ n : Word) = 0x0#4 ++ 0x0#4 ++ 0xC#4 ++ n := by
  have : (0x00C#12 : BitVec 12) = 0x0#4 ++ 0x0#4 ++ 0xC#4 := by decide
  rw [this]

/-! ### A word from its fields -/

theorem word_nnn (w : Word) : fieldOp w ++ fieldNNN w = w := by
  ext i hi
  rw [BitVec.getElem_append]
  split
  · next h => rw [fieldNNN, BitVec.getElem_extractLsb', Nat.zero_add, BitVec.getLsbD_eq_getElem hi]
  · next h =>
    have : 12 + (i - 12) = i := by omega
    rw [fieldOp, BitVec.getElem_extractLsb', this, BitVec.getLsbD_eq_getElem hi]

theorem byte_yn (w : Word) : fieldY w ++ fieldN w = fieldKK w := by
  ext i hi
  rw [BitVec.getElem_append, fieldKK, BitVec.getElem_extractLsb', Nat.zero_add]
  split
  · next h => rw [fieldN, BitVec.getElem_extractLsb', Nat.zero_add]
  · next h =>
    have : 4 + (i - 4) = i := by omega
    rw [fieldY, BitVec.getElem_extractLsb', this]

theorem word_xkk (w : Word) : fieldOp w ++ fieldX w ++ fieldKK w = w := by
  ext i hi
  rw [BitVec.getElem_append]
  split
  · next h => rw [fieldKK, BitVec.getElem_extractLsb', Nat.zero_add, BitVec.getLsbD_eq_getElem hi]
  · next h =>
    rw [BitVec.getElem_append]
    split
    · have : 8 + (i - 8) = i := by omega
      rw [fieldX, BitVec.getElem_extractLsb', this, BitVec.getLsbD_eq_getElem hi]
    · have : 12 + (i - 8 - 4) = i := by omega
      rw [fieldOp, BitVec.getElem_extractLsb', this, BitVec.getLsbD_eq_getElem hi]

theorem word_xyn (w : Word) : fieldOp w ++ fieldX w ++ fieldY w ++ fieldN w = w := by
  ext i hi
  rw [BitVec.getElem_append]
  split
  · next h => rw [fieldN, BitVec.getElem_extractLsb', Nat.zero_add, BitVec.getLsbD_eq_getElem hi]
  · rw [BitVec.getElem_append]
    split
    · have : 4 + (i - 4) = i := by omega
      rw [fieldY, BitVec.getElem_extractLsb', this, BitVec.getLsbD_eq_getElem hi]
    · rw [BitVec.getElem_append]
      split
      · have : 8 + (i - 4 - 4) = i := by omega
        rw [fieldX, BitVec.getElem_extractLsb', this, BitVec.getLsbD_eq_getElem hi]
      · have : 12 + (i - 4 - 4 - 4) = i := by omega
        rw [fieldOp, BitVec.getElem_extractLsb', this, BitVec.getLsbD_eq_getElem hi]

end Sys2Proof
end

