-- ==== Sys2Proof/Laws/State.lean ====
section
/-! SUPPORT. One lemma for each field of the state and each update of it, so that no proof unfolds a
record update, and what reads see of the updates they do not touch. -/

namespace Sys2Proof.Machine

/-! ### `State.setReg` -/

@[simp] theorem State.setReg_pc (s : State) (x : Nibble) (b : Byte) : (s.setReg x b).pc = s.pc := rfl
@[simp] theorem State.setReg_index (s : State) (x : Nibble) (b : Byte) : (s.setReg x b).index = s.index := rfl
@[simp] theorem State.setReg_sp (s : State) (x : Nibble) (b : Byte) : (s.setReg x b).sp = s.sp := rfl
@[simp] theorem State.setReg_dt (s : State) (x : Nibble) (b : Byte) : (s.setReg x b).dt = s.dt := rfl
@[simp] theorem State.setReg_st (s : State) (x : Nibble) (b : Byte) : (s.setReg x b).st = s.st := rfl
@[simp] theorem State.setReg_mem (s : State) (x : Nibble) (b : Byte) : (s.setReg x b).mem = s.mem := rfl
@[simp] theorem State.setReg_stdGrid (s : State) (x : Nibble) (b : Byte) : (s.setReg x b).stdGrid = s.stdGrid := rfl
@[simp] theorem State.setReg_extGrid (s : State) (x : Nibble) (b : Byte) : (s.setReg x b).extGrid = s.extGrid := rfl
@[simp] theorem State.setReg_extendedMode (s : State) (x : Nibble) (b : Byte) : (s.setReg x b).extendedMode = s.extendedMode := rfl
@[simp] theorem State.setReg_status (s : State) (x : Nibble) (b : Byte) : (s.setReg x b).status = s.status := rfl
@[simp] theorem State.setReg_tickPos (s : State) (x : Nibble) (b : Byte) : (s.setReg x b).tickPos = s.tickPos := rfl
@[simp] theorem State.setReg_keys (s : State) (x : Nibble) (b : Byte) : (s.setReg x b).keys = s.keys := rfl
@[simp] theorem State.setReg_randCount (s : State) (x : Nibble) (b : Byte) : (s.setReg x b).randCount = s.randCount := rfl
@[simp] theorem State.setReg_cfg (s : State) (x : Nibble) (b : Byte) : (s.setReg x b).cfg = s.cfg := rfl

/-! ### `State.advance` -/

@[simp] theorem State.advance_v (s : State) : (s.advance).v = s.v := rfl
@[simp] theorem State.advance_pc (s : State) : (s.advance).pc = s.pc + 2#16 := rfl
@[simp] theorem State.advance_index (s : State) : (s.advance).index = s.index := rfl
@[simp] theorem State.advance_sp (s : State) : (s.advance).sp = s.sp := rfl
@[simp] theorem State.advance_dt (s : State) : (s.advance).dt = s.dt := rfl
@[simp] theorem State.advance_st (s : State) : (s.advance).st = s.st := rfl
@[simp] theorem State.advance_mem (s : State) : (s.advance).mem = s.mem := rfl
@[simp] theorem State.advance_stdGrid (s : State) : (s.advance).stdGrid = s.stdGrid := rfl
@[simp] theorem State.advance_extGrid (s : State) : (s.advance).extGrid = s.extGrid := rfl
@[simp] theorem State.advance_extendedMode (s : State) : (s.advance).extendedMode = s.extendedMode := rfl
@[simp] theorem State.advance_status (s : State) : (s.advance).status = s.status := rfl
@[simp] theorem State.advance_tickPos (s : State) : (s.advance).tickPos = s.tickPos := rfl
@[simp] theorem State.advance_keys (s : State) : (s.advance).keys = s.keys := rfl
@[simp] theorem State.advance_randCount (s : State) : (s.advance).randCount = s.randCount := rfl
@[simp] theorem State.advance_cfg (s : State) : (s.advance).cfg = s.cfg := rfl

/-! ### `State.skip` -/

@[simp] theorem State.skip_v (s : State) : (s.skip).v = s.v := rfl
@[simp] theorem State.skip_pc (s : State) : (s.skip).pc = s.pc + 2#16 := rfl
@[simp] theorem State.skip_index (s : State) : (s.skip).index = s.index := rfl
@[simp] theorem State.skip_sp (s : State) : (s.skip).sp = s.sp := rfl
@[simp] theorem State.skip_dt (s : State) : (s.skip).dt = s.dt := rfl
@[simp] theorem State.skip_st (s : State) : (s.skip).st = s.st := rfl
@[simp] theorem State.skip_mem (s : State) : (s.skip).mem = s.mem := rfl
@[simp] theorem State.skip_stdGrid (s : State) : (s.skip).stdGrid = s.stdGrid := rfl
@[simp] theorem State.skip_extGrid (s : State) : (s.skip).extGrid = s.extGrid := rfl
@[simp] theorem State.skip_extendedMode (s : State) : (s.skip).extendedMode = s.extendedMode := rfl
@[simp] theorem State.skip_status (s : State) : (s.skip).status = s.status := rfl
@[simp] theorem State.skip_tickPos (s : State) : (s.skip).tickPos = s.tickPos := rfl
@[simp] theorem State.skip_keys (s : State) : (s.skip).keys = s.keys := rfl
@[simp] theorem State.skip_randCount (s : State) : (s.skip).randCount = s.randCount := rfl
@[simp] theorem State.skip_cfg (s : State) : (s.skip).cfg = s.cfg := rfl

/-! ### `State.enterFault` -/

@[simp] theorem State.enterFault_v (s : State) (r : FaultRecord) : (s.enterFault r).v = s.v := rfl
@[simp] theorem State.enterFault_pc (s : State) (r : FaultRecord) : (s.enterFault r).pc = s.pc := rfl
@[simp] theorem State.enterFault_index (s : State) (r : FaultRecord) : (s.enterFault r).index = s.index := rfl
@[simp] theorem State.enterFault_sp (s : State) (r : FaultRecord) : (s.enterFault r).sp = s.sp := rfl
@[simp] theorem State.enterFault_dt (s : State) (r : FaultRecord) : (s.enterFault r).dt = s.dt := rfl
@[simp] theorem State.enterFault_st (s : State) (r : FaultRecord) : (s.enterFault r).st = s.st := rfl
@[simp] theorem State.enterFault_mem (s : State) (r : FaultRecord) : (s.enterFault r).mem = s.mem := rfl
@[simp] theorem State.enterFault_stdGrid (s : State) (r : FaultRecord) : (s.enterFault r).stdGrid = s.stdGrid := rfl
@[simp] theorem State.enterFault_extGrid (s : State) (r : FaultRecord) : (s.enterFault r).extGrid = s.extGrid := rfl
@[simp] theorem State.enterFault_extendedMode (s : State) (r : FaultRecord) : (s.enterFault r).extendedMode = s.extendedMode := rfl
@[simp] theorem State.enterFault_status (s : State) (r : FaultRecord) : (s.enterFault r).status = .faulted r := rfl
@[simp] theorem State.enterFault_tickPos (s : State) (r : FaultRecord) : (s.enterFault r).tickPos = s.tickPos := rfl
@[simp] theorem State.enterFault_keys (s : State) (r : FaultRecord) : (s.enterFault r).keys = s.keys := rfl
@[simp] theorem State.enterFault_randCount (s : State) (r : FaultRecord) : (s.enterFault r).randCount = s.randCount := rfl
@[simp] theorem State.enterFault_cfg (s : State) (r : FaultRecord) : (s.enterFault r).cfg = s.cfg := rfl

/-! ### `State.signalExit` -/

@[simp] theorem State.signalExit_v (s : State) : (s.signalExit).v = s.v := rfl
@[simp] theorem State.signalExit_pc (s : State) : (s.signalExit).pc = s.pc := rfl
@[simp] theorem State.signalExit_index (s : State) : (s.signalExit).index = s.index := rfl
@[simp] theorem State.signalExit_sp (s : State) : (s.signalExit).sp = s.sp := rfl
@[simp] theorem State.signalExit_dt (s : State) : (s.signalExit).dt = s.dt := rfl
@[simp] theorem State.signalExit_st (s : State) : (s.signalExit).st = s.st := rfl
@[simp] theorem State.signalExit_mem (s : State) : (s.signalExit).mem = s.mem := rfl
@[simp] theorem State.signalExit_stdGrid (s : State) : (s.signalExit).stdGrid = s.stdGrid := rfl
@[simp] theorem State.signalExit_extGrid (s : State) : (s.signalExit).extGrid = s.extGrid := rfl
@[simp] theorem State.signalExit_extendedMode (s : State) : (s.signalExit).extendedMode = s.extendedMode := rfl
@[simp] theorem State.signalExit_status (s : State) : (s.signalExit).status = .exited := rfl
@[simp] theorem State.signalExit_tickPos (s : State) : (s.signalExit).tickPos = s.tickPos := rfl
@[simp] theorem State.signalExit_keys (s : State) : (s.signalExit).keys = s.keys := rfl
@[simp] theorem State.signalExit_randCount (s : State) : (s.signalExit).randCount = s.randCount := rfl
@[simp] theorem State.signalExit_cfg (s : State) : (s.signalExit).cfg = s.cfg := rfl

/-! ### `State.timerTick` -/

@[simp] theorem State.timerTick_v (s : State) : (s.timerTick).v = s.v := rfl
@[simp] theorem State.timerTick_pc (s : State) : (s.timerTick).pc = s.pc := rfl
@[simp] theorem State.timerTick_index (s : State) : (s.timerTick).index = s.index := rfl
@[simp] theorem State.timerTick_sp (s : State) : (s.timerTick).sp = s.sp := rfl
@[simp] theorem State.timerTick_dt (s : State) : (s.timerTick).dt = countDown s.dt := rfl
@[simp] theorem State.timerTick_st (s : State) : (s.timerTick).st = countDown s.st := rfl
@[simp] theorem State.timerTick_mem (s : State) : (s.timerTick).mem = s.mem := rfl
@[simp] theorem State.timerTick_stdGrid (s : State) : (s.timerTick).stdGrid = s.stdGrid := rfl
@[simp] theorem State.timerTick_extGrid (s : State) : (s.timerTick).extGrid = s.extGrid := rfl
@[simp] theorem State.timerTick_extendedMode (s : State) : (s.timerTick).extendedMode = s.extendedMode := rfl
@[simp] theorem State.timerTick_status (s : State) : (s.timerTick).status = s.status := rfl
@[simp] theorem State.timerTick_tickPos (s : State) : (s.timerTick).tickPos = s.tickPos := rfl
@[simp] theorem State.timerTick_keys (s : State) : (s.timerTick).keys = s.keys := rfl
@[simp] theorem State.timerTick_randCount (s : State) : (s.timerTick).randCount = s.randCount := rfl
@[simp] theorem State.timerTick_cfg (s : State) : (s.timerTick).cfg = s.cfg := rfl

/-! ### `State.drawnRandom` -/

@[simp] theorem State.drawnRandom_v (s : State) : (s.drawnRandom).v = s.v := rfl
@[simp] theorem State.drawnRandom_pc (s : State) : (s.drawnRandom).pc = s.pc := rfl
@[simp] theorem State.drawnRandom_index (s : State) : (s.drawnRandom).index = s.index := rfl
@[simp] theorem State.drawnRandom_sp (s : State) : (s.drawnRandom).sp = s.sp := rfl
@[simp] theorem State.drawnRandom_dt (s : State) : (s.drawnRandom).dt = s.dt := rfl
@[simp] theorem State.drawnRandom_st (s : State) : (s.drawnRandom).st = s.st := rfl
@[simp] theorem State.drawnRandom_mem (s : State) : (s.drawnRandom).mem = s.mem := rfl
@[simp] theorem State.drawnRandom_stdGrid (s : State) : (s.drawnRandom).stdGrid = s.stdGrid := rfl
@[simp] theorem State.drawnRandom_extGrid (s : State) : (s.drawnRandom).extGrid = s.extGrid := rfl
@[simp] theorem State.drawnRandom_extendedMode (s : State) : (s.drawnRandom).extendedMode = s.extendedMode := rfl
@[simp] theorem State.drawnRandom_status (s : State) : (s.drawnRandom).status = s.status := rfl
@[simp] theorem State.drawnRandom_tickPos (s : State) : (s.drawnRandom).tickPos = s.tickPos := rfl
@[simp] theorem State.drawnRandom_keys (s : State) : (s.drawnRandom).keys = s.keys := rfl
@[simp] theorem State.drawnRandom_randCount (s : State) : (s.drawnRandom).randCount = s.randCount + 1 := rfl
@[simp] theorem State.drawnRandom_cfg (s : State) : (s.drawnRandom).cfg = s.cfg := rfl

/-! ### `State.writeByte` -/

@[simp] theorem State.writeByte_v (s : State) (a : Nat) (b : Byte) : (s.writeByte a b).v = s.v := rfl
@[simp] theorem State.writeByte_pc (s : State) (a : Nat) (b : Byte) : (s.writeByte a b).pc = s.pc := rfl
@[simp] theorem State.writeByte_index (s : State) (a : Nat) (b : Byte) : (s.writeByte a b).index = s.index := rfl
@[simp] theorem State.writeByte_sp (s : State) (a : Nat) (b : Byte) : (s.writeByte a b).sp = s.sp := rfl
@[simp] theorem State.writeByte_dt (s : State) (a : Nat) (b : Byte) : (s.writeByte a b).dt = s.dt := rfl
@[simp] theorem State.writeByte_st (s : State) (a : Nat) (b : Byte) : (s.writeByte a b).st = s.st := rfl
@[simp] theorem State.writeByte_mem (s : State) (a : Nat) (b : Byte) : (s.writeByte a b).mem = Memory.set s.cfg.fonts s.mem a b := rfl
@[simp] theorem State.writeByte_stdGrid (s : State) (a : Nat) (b : Byte) : (s.writeByte a b).stdGrid = s.stdGrid := rfl
@[simp] theorem State.writeByte_extGrid (s : State) (a : Nat) (b : Byte) : (s.writeByte a b).extGrid = s.extGrid := rfl
@[simp] theorem State.writeByte_extendedMode (s : State) (a : Nat) (b : Byte) : (s.writeByte a b).extendedMode = s.extendedMode := rfl
@[simp] theorem State.writeByte_status (s : State) (a : Nat) (b : Byte) : (s.writeByte a b).status = s.status := rfl
@[simp] theorem State.writeByte_tickPos (s : State) (a : Nat) (b : Byte) : (s.writeByte a b).tickPos = s.tickPos := rfl
@[simp] theorem State.writeByte_keys (s : State) (a : Nat) (b : Byte) : (s.writeByte a b).keys = s.keys := rfl
@[simp] theorem State.writeByte_randCount (s : State) (a : Nat) (b : Byte) : (s.writeByte a b).randCount = s.randCount := rfl
@[simp] theorem State.writeByte_cfg (s : State) (a : Nat) (b : Byte) : (s.writeByte a b).cfg = s.cfg := rfl

/-! ### `State.setKeys` -/

@[simp] theorem State.setKeys_v (s : State) (k : Keypad) : (s.setKeys k).v = s.v := rfl
@[simp] theorem State.setKeys_pc (s : State) (k : Keypad) : (s.setKeys k).pc = s.pc := rfl
@[simp] theorem State.setKeys_index (s : State) (k : Keypad) : (s.setKeys k).index = s.index := rfl
@[simp] theorem State.setKeys_sp (s : State) (k : Keypad) : (s.setKeys k).sp = s.sp := rfl
@[simp] theorem State.setKeys_dt (s : State) (k : Keypad) : (s.setKeys k).dt = s.dt := rfl
@[simp] theorem State.setKeys_st (s : State) (k : Keypad) : (s.setKeys k).st = s.st := rfl
@[simp] theorem State.setKeys_mem (s : State) (k : Keypad) : (s.setKeys k).mem = s.mem := rfl
@[simp] theorem State.setKeys_stdGrid (s : State) (k : Keypad) : (s.setKeys k).stdGrid = s.stdGrid := rfl
@[simp] theorem State.setKeys_extGrid (s : State) (k : Keypad) : (s.setKeys k).extGrid = s.extGrid := rfl
@[simp] theorem State.setKeys_extendedMode (s : State) (k : Keypad) : (s.setKeys k).extendedMode = s.extendedMode := rfl
@[simp] theorem State.setKeys_status (s : State) (k : Keypad) : (s.setKeys k).status = s.status := rfl
@[simp] theorem State.setKeys_tickPos (s : State) (k : Keypad) : (s.setKeys k).tickPos = s.tickPos := rfl
@[simp] theorem State.setKeys_keys (s : State) (k : Keypad) : (s.setKeys k).keys = k := rfl
@[simp] theorem State.setKeys_randCount (s : State) (k : Keypad) : (s.setKeys k).randCount = s.randCount := rfl
@[simp] theorem State.setKeys_cfg (s : State) (k : Keypad) : (s.setKeys k).cfg = s.cfg := rfl

/-! ### Reads of a register, a byte, a pixel and a key after an update of something else -/

/-- A register after a write of a register (R11). -/
theorem State.setReg_reg (s : State) (x y : Nibble) (b : Byte) :
    (s.setReg x b).reg y = if y = x then b else s.reg y := by
  unfold State.setReg State.reg
  simp only [Vector.getElem_set]
  by_cases h : y = x
  · simp [h]
  · have : x.toNat ≠ y.toNat := fun e => h (BitVec.eq_of_toNat_eq e.symm)
    simp [h, this]

@[simp] theorem State.setReg_reg_self (s : State) (x : Nibble) (b : Byte) : (s.setReg x b).reg x = b := by
  simp [State.setReg_reg]

theorem State.setReg_reg_ne (s : State) (x y : Nibble) (b : Byte) (h : y ≠ x) :
    (s.setReg x b).reg y = s.reg y := by
  simp [State.setReg_reg, h]

@[simp] theorem State.setReg_readByte (s : State) (x : Nibble) (b : Byte) (c : Nat) : (s.setReg x b).readByte c = s.readByte c := rfl
@[simp] theorem State.setReg_pixel (s : State) (x : Nibble) (b : Byte) (px py : Nat) : (s.setReg x b).pixel px py = s.pixel px py := rfl
@[simp] theorem State.setReg_width (s : State) (x : Nibble) (b : Byte) : (s.setReg x b).width = s.width := rfl
@[simp] theorem State.setReg_height (s : State) (x : Nibble) (b : Byte) : (s.setReg x b).height = s.height := rfl
@[simp] theorem State.setReg_indexAddr (s : State) (x : Nibble) (b : Byte) : (s.setReg x b).indexAddr = s.indexAddr := rfl
@[simp] theorem State.advance_reg (s : State) (y : Nibble) : (s.advance).reg y = s.reg y := rfl
@[simp] theorem State.advance_readByte (s : State) (c : Nat) : (s.advance).readByte c = s.readByte c := rfl
@[simp] theorem State.advance_pixel (s : State) (px py : Nat) : (s.advance).pixel px py = s.pixel px py := rfl
@[simp] theorem State.advance_width (s : State) : (s.advance).width = s.width := rfl
@[simp] theorem State.advance_height (s : State) : (s.advance).height = s.height := rfl
@[simp] theorem State.advance_indexAddr (s : State) : (s.advance).indexAddr = s.indexAddr := rfl
@[simp] theorem State.skip_reg (s : State) (y : Nibble) : (s.skip).reg y = s.reg y := rfl
@[simp] theorem State.skip_readByte (s : State) (c : Nat) : (s.skip).readByte c = s.readByte c := rfl
@[simp] theorem State.skip_pixel (s : State) (px py : Nat) : (s.skip).pixel px py = s.pixel px py := rfl
@[simp] theorem State.skip_width (s : State) : (s.skip).width = s.width := rfl
@[simp] theorem State.skip_height (s : State) : (s.skip).height = s.height := rfl
@[simp] theorem State.skip_indexAddr (s : State) : (s.skip).indexAddr = s.indexAddr := rfl
@[simp] theorem State.enterFault_reg (s : State) (r : FaultRecord) (y : Nibble) : (s.enterFault r).reg y = s.reg y := rfl
@[simp] theorem State.enterFault_readByte (s : State) (r : FaultRecord) (c : Nat) : (s.enterFault r).readByte c = s.readByte c := rfl
@[simp] theorem State.enterFault_pixel (s : State) (r : FaultRecord) (px py : Nat) : (s.enterFault r).pixel px py = s.pixel px py := rfl
@[simp] theorem State.enterFault_width (s : State) (r : FaultRecord) : (s.enterFault r).width = s.width := rfl
@[simp] theorem State.enterFault_height (s : State) (r : FaultRecord) : (s.enterFault r).height = s.height := rfl
@[simp] theorem State.enterFault_indexAddr (s : State) (r : FaultRecord) : (s.enterFault r).indexAddr = s.indexAddr := rfl
@[simp] theorem State.signalExit_reg (s : State) (y : Nibble) : (s.signalExit).reg y = s.reg y := rfl
@[simp] theorem State.signalExit_readByte (s : State) (c : Nat) : (s.signalExit).readByte c = s.readByte c := rfl
@[simp] theorem State.signalExit_pixel (s : State) (px py : Nat) : (s.signalExit).pixel px py = s.pixel px py := rfl
@[simp] theorem State.signalExit_width (s : State) : (s.signalExit).width = s.width := rfl
@[simp] theorem State.signalExit_height (s : State) : (s.signalExit).height = s.height := rfl
@[simp] theorem State.signalExit_indexAddr (s : State) : (s.signalExit).indexAddr = s.indexAddr := rfl
@[simp] theorem State.timerTick_reg (s : State) (y : Nibble) : (s.timerTick).reg y = s.reg y := rfl
@[simp] theorem State.timerTick_readByte (s : State) (c : Nat) : (s.timerTick).readByte c = s.readByte c := rfl
@[simp] theorem State.timerTick_pixel (s : State) (px py : Nat) : (s.timerTick).pixel px py = s.pixel px py := rfl
@[simp] theorem State.timerTick_width (s : State) : (s.timerTick).width = s.width := rfl
@[simp] theorem State.timerTick_height (s : State) : (s.timerTick).height = s.height := rfl
@[simp] theorem State.timerTick_indexAddr (s : State) : (s.timerTick).indexAddr = s.indexAddr := rfl
@[simp] theorem State.drawnRandom_reg (s : State) (y : Nibble) : (s.drawnRandom).reg y = s.reg y := rfl
@[simp] theorem State.drawnRandom_readByte (s : State) (c : Nat) : (s.drawnRandom).readByte c = s.readByte c := rfl
@[simp] theorem State.drawnRandom_pixel (s : State) (px py : Nat) : (s.drawnRandom).pixel px py = s.pixel px py := rfl
@[simp] theorem State.drawnRandom_width (s : State) : (s.drawnRandom).width = s.width := rfl
@[simp] theorem State.drawnRandom_height (s : State) : (s.drawnRandom).height = s.height := rfl
@[simp] theorem State.drawnRandom_indexAddr (s : State) : (s.drawnRandom).indexAddr = s.indexAddr := rfl
@[simp] theorem State.writeByte_reg (s : State) (a : Nat) (b : Byte) (y : Nibble) : (s.writeByte a b).reg y = s.reg y := rfl
@[simp] theorem State.writeByte_pixel (s : State) (a : Nat) (b : Byte) (px py : Nat) : (s.writeByte a b).pixel px py = s.pixel px py := rfl
@[simp] theorem State.writeByte_width (s : State) (a : Nat) (b : Byte) : (s.writeByte a b).width = s.width := rfl
@[simp] theorem State.writeByte_height (s : State) (a : Nat) (b : Byte) : (s.writeByte a b).height = s.height := rfl
@[simp] theorem State.writeByte_indexAddr (s : State) (a : Nat) (b : Byte) : (s.writeByte a b).indexAddr = s.indexAddr := rfl
@[simp] theorem State.setKeys_reg (s : State) (k : Keypad) (y : Nibble) : (s.setKeys k).reg y = s.reg y := rfl
@[simp] theorem State.setKeys_readByte (s : State) (k : Keypad) (c : Nat) : (s.setKeys k).readByte c = s.readByte c := rfl
@[simp] theorem State.setKeys_pixel (s : State) (k : Keypad) (px py : Nat) : (s.setKeys k).pixel px py = s.pixel px py := rfl
@[simp] theorem State.setKeys_width (s : State) (k : Keypad) : (s.setKeys k).width = s.width := rfl
@[simp] theorem State.setKeys_height (s : State) (k : Keypad) : (s.setKeys k).height = s.height := rfl
@[simp] theorem State.setKeys_indexAddr (s : State) (k : Keypad) : (s.setKeys k).indexAddr = s.indexAddr := rfl

end Sys2Proof.Machine
end

