-- ==== Sys2Proof/Laws/Framebuffer.lean ====
section
/-! SUPPORT. The laws of the framebuffer: what each grid operation leaves in each cell, that cells stay
0x00 or 0xFF, and what a sprite toggles. -/

namespace Sys2Proof.Machine

/-! ### Cells -/

theorem Grid.at_of_lt {w h : Nat} (g : Grid w h) {x y : Nat} (hx : x < w) (hy : y < h) :
    g.at x y = g.rows[y][x] := by
  simp [Grid.at, hx, hy]

theorem Grid.at_of_not_lt {w h : Nat} (g : Grid w h) {x y : Nat} (hn : ¬ (x < w ∧ y < h)) :
    g.at x y = 0x00#8 := by
  unfold Grid.at
  rw [dif_neg hn]

/-- Two grids with the same cells are the same grid. -/
theorem Grid.ext_at {w h : Nat} {g k : Grid w h} (e : ∀ x y, x < w → y < h → g.at x y = k.at x y) : g = k := by
  obtain ⟨r⟩ := g
  obtain ⟨q⟩ := k
  congr 1
  apply Vector.ext
  intro y hy
  apply Vector.ext
  intro x hx
  have := e x y hx hy
  rwa [Grid.at_of_lt _ hx hy, Grid.at_of_lt _ hx hy] at this

@[simp] theorem Grid.at_blank (w h x y : Nat) : (Grid.blank w h).at x y = 0x00#8 := by
  by_cases hxy : x < w ∧ y < h
  · rw [Grid.at_of_lt _ hxy.1 hxy.2]
    simp [Grid.blank]
  · exact Grid.at_of_not_lt _ hxy

/-- A cell after a write of a cell of the grid. -/
theorem Grid.at_put {w h : Nat} (g : Grid w h) {x y : Nat} (b : Byte) (hx : x < w) (hy : y < h) (px py : Nat) :
    (g.put x y b).at px py = if px = x ∧ py = y then b else g.at px py := by
  unfold Grid.put
  rw [dif_pos ⟨hx, hy⟩]
  by_cases hp : px < w ∧ py < h
  · rw [Grid.at_of_lt _ hp.1 hp.2, Grid.at_of_lt _ hp.1 hp.2]
    simp only [Vector.getElem_set]
    by_cases h1 : y = py
    · subst h1
      by_cases h2 : x = px
      · simp [h2]
      · have h3 : px ≠ x := fun e => h2 e.symm
        simp [h2, h3]
    · have : ¬ (px = x ∧ py = y) := fun e => h1 e.2.symm
      simp [h1, this]
  · have : ¬ (px = x ∧ py = y) := by rintro ⟨rfl, rfl⟩; exact hp ⟨hx, hy⟩
    rw [if_neg this, Grid.at_of_not_lt _ hp, Grid.at_of_not_lt _ hp]

theorem Grid.onOff_blank (w h : Nat) : (Grid.blank w h).onOff := fun x y => .inl (Grid.at_blank w h x y)

/-- `^ 0xFF` turns an on cell off and an off cell on. -/
theorem xor_onOff {b : Byte} (h : b = 0x00#8 ∨ b = 0xFF#8) : b ^^^ 0xFF#8 = 0x00#8 ∨ b ^^^ 0xFF#8 = 0xFF#8 := by
  rcases h with rfl | rfl <;> decide

/-! ### Scrolling (R173, R174) -/

theorem getElem_shiftUp {α : Type} {k : Nat} (n : Nat) (z : α) (v : Vector α k) (i : Nat) (hi : i < k) :
    (shiftUp n z v)[i] = if h : n ≤ i then v[i - n] else z := by
  simp only [shiftUp, Vector.getElem_mk, List.getElem_toArray, List.getElem_take, List.getElem_append]
  by_cases h : n ≤ i
  · simp [h, Nat.not_lt.2 h]
  · simp [h, Nat.lt_of_not_le h]

theorem getElem_shiftDown {α : Type} {k : Nat} (n : Nat) (z : α) (v : Vector α k) (i : Nat) (hi : i < k) :
    (shiftDown n z v)[i] = if h : i + n < k then v[i + n] else z := by
  simp only [shiftDown, Vector.getElem_mk, List.getElem_toArray, List.getElem_take, List.getElem_append]
  by_cases h : i + n < k
  · have h1 : i < k - n := by omega
    have h2 : n + i = i + n := Nat.add_comm n i
    simp [h, h1, h2]
  · have : ¬ i < k - n := by omega
    simp [h, this]

theorem Grid.at_scrollDown {w h : Nat} (n : Nat) (g : Grid w h) {x y : Nat} (hx : x < w) (hy : y < h) :
    (g.scrollDown n).at x y = if n ≤ y then g.at x (y - n) else 0x00#8 := by
  rw [Grid.at_of_lt _ hx hy]
  show (shiftUp n (Vector.replicate w 0x00#8) g.rows)[y][x] = _
  simp only [getElem_shiftUp]
  by_cases hn : n ≤ y
  · rw [if_pos hn, Grid.at_of_lt g hx (by omega)]
    simp [hn]
  · simp [hn]

theorem Grid.at_mapRows {w h : Nat} (f : Vector Byte w → Vector Byte w) (g : Grid w h) {x y : Nat} (hx : x < w)
    (hy : y < h) : (g.mapRows f).at x y = (f g.rows[y])[x] := by
  rw [Grid.at_of_lt _ hx hy]
  have : (g.mapRows f).rows[y] = f g.rows[y] := by
    simp only [Grid.mapRows, Vector.getElem_mk, List.getElem_toArray, List.getElem_map]
    rfl
  rw [this]

theorem Grid.at_scrollRight4 {w h : Nat} (g : Grid w h) {x y : Nat} (hx : x < w) (hy : y < h) :
    g.scrollRight4.at x y = if 4 ≤ x then g.at (x - 4) y else 0x00#8 := by
  rw [Grid.scrollRight4, Grid.at_mapRows _ _ hx hy, getElem_shiftUp]
  by_cases h4 : 4 ≤ x
  · rw [if_pos h4, dif_pos h4, Grid.at_of_lt g (by omega) hy]
  · rw [if_neg h4, dif_neg h4]

theorem Grid.at_scrollLeft4 {w h : Nat} (g : Grid w h) {x y : Nat} (hx : x < w) (hy : y < h) :
    g.scrollLeft4.at x y = if x + 4 < w then g.at (x + 4) y else 0x00#8 := by
  rw [Grid.scrollLeft4, Grid.at_mapRows _ _ hx hy, getElem_shiftDown]
  by_cases h4 : x + 4 < w
  · rw [if_pos h4, dif_pos h4, Grid.at_of_lt g h4 hy]
  · rw [if_neg h4, dif_neg h4]

theorem Grid.onOff_of_lt {w h : Nat} {g : Grid w h}
    (e : ∀ x y, x < w → y < h → g.at x y = 0x00#8 ∨ g.at x y = 0xFF#8) : g.onOff := by
  intro x y
  by_cases hxy : x < w ∧ y < h
  · exact e x y hxy.1 hxy.2
  · exact .inl (Grid.at_of_not_lt g hxy)

theorem Grid.onOff_scrollDown {w h : Nat} {g : Grid w h} (n : Nat) (hg : g.onOff) : (g.scrollDown n).onOff := by
  refine Grid.onOff_of_lt fun x y hx hy => ?_
  rw [Grid.at_scrollDown n g hx hy]
  split
  · exact hg _ _
  · exact .inl rfl

theorem Grid.onOff_scrollRight4 {w h : Nat} {g : Grid w h} (hg : g.onOff) : g.scrollRight4.onOff := by
  refine Grid.onOff_of_lt fun x y hx hy => ?_
  rw [Grid.at_scrollRight4 g hx hy]
  split
  · exact hg _ _
  · exact .inl rfl

theorem Grid.onOff_scrollLeft4 {w h : Nat} {g : Grid w h} (hg : g.onOff) : g.scrollLeft4.onOff := by
  refine Grid.onOff_of_lt fun x y hx hy => ?_
  rw [Grid.at_scrollLeft4 g hx hy]
  split
  · exact hg _ _
  · exact .inl rfl

/-! ### Wrapped offsets (R41) -/

theorem wrapOffset_lt {m p0 p : Nat} (hm : 0 < m) : wrapOffset m p0 p < m := Nat.mod_lt _ hm

theorem wrapOffset_eq {m p0 p : Nat} (hp : p < m) :
    wrapOffset m p0 p = if p0 % m ≤ p then p - p0 % m else p + m - p0 % m := by
  have hr : p0 % m < m := Nat.mod_lt _ (by omega)
  unfold wrapOffset
  split
  · have : p + m - p0 % m = (p - p0 % m) + m := by omega
    rw [this, Nat.add_mod_right, Nat.mod_eq_of_lt (by omega)]
  · exact Nat.mod_eq_of_lt (by omega)

theorem wrapOffset_zero {m p0 p : Nat} (hp : p < m) : p = p0 % m ↔ wrapOffset m p0 p = 0 := by
  have hr : p0 % m < m := Nat.mod_lt _ (by omega)
  rw [wrapOffset_eq hp]
  split <;> omega

/-- One cell further on an axis, the offset is one less, and wraps. -/
theorem wrapOffset_succ {m p0 p : Nat} (hp : p < m) :
    wrapOffset m (p0 + 1) p = if wrapOffset m p0 p = 0 then m - 1 else wrapOffset m p0 p - 1 := by
  have hr : p0 % m < m := Nat.mod_lt _ (by omega)
  have hs : (p0 + 1) % m = if p0 % m + 1 = m then 0 else p0 % m + 1 := by
    rw [Nat.add_mod]
    by_cases h1 : m = 1
    · subst h1; simp [Nat.mod_one]
    · rw [Nat.mod_eq_of_lt (by omega : 1 < m)]
      split
      · next e => rw [e, Nat.mod_self]
      · exact Nat.mod_eq_of_lt (by omega)
  rw [wrapOffset_eq hp, wrapOffset_eq hp, hs]
  split <;> split <;> split <;> (try split) <;> omega

/-- The cell `d` places behind `p0`, wrapping, has the offset `d`. -/
theorem wrapOffset_add {m p0 d : Nat} (h : d < m) : wrapOffset m p0 ((p0 + d) % m) = d := by
  have hm : p0 % m < m := Nat.mod_lt _ (by omega)
  have e : (p0 + d) % m = if p0 % m + d < m then p0 % m + d else p0 % m + d - m := by
    rw [Nat.add_mod, Nat.mod_eq_of_lt h]
    split
    · next c => exact Nat.mod_eq_of_lt c
    · next c => rw [Nat.mod_eq_sub_mod (by omega), Nat.mod_eq_of_lt (by omega)]
  rw [wrapOffset_eq (Nat.mod_lt _ (by omega)), e]
  split <;> split <;> omega

/-! ### Drawing (R171, R172) -/

theorem Canvas.toggle_at {w h : Nat} (c : Canvas w h) (x y : Nat) {px py : Nat} (hx : px < w) (hy : py < h) :
    (c.toggle x y).grid.at px py =
      if px = x % w ∧ py = y % h then c.grid.at px py ^^^ 0xFF#8 else c.grid.at px py := by
  have h1 : x % w < w := Nat.mod_lt _ (by omega)
  have h2 : y % h < h := Nat.mod_lt _ (by omega)
  show (c.grid.put _ _ _).at px py = _
  rw [Grid.at_put _ _ h1 h2]
  split
  · next e => rw [e.1, e.2]
  · rfl

theorem Canvas.onOff_toggle {w h : Nat} {c : Canvas w h} (x y : Nat) (hc : c.grid.onOff) :
    (c.toggle x y).grid.onOff := by
  refine Grid.onOff_of_lt fun px py hx hy => ?_
  rw [Canvas.toggle_at c x y hx hy]
  split
  · exact xor_onOff (hc _ _)
  · exact hc _ _

theorem Canvas.onOff_drawBits {w h : Nat} (x y : Nat) (bs : List Bool) {c : Canvas w h} (hc : c.grid.onOff) :
    (c.drawBits x y bs).grid.onOff := by
  induction bs generalizing x c with
  | nil => exact hc
  | cons b bs ih =>
    apply ih
    split
    · exact Canvas.onOff_toggle x y hc
    · exact hc

theorem Canvas.onOff_drawRows {w h k : Nat} (x y : Nat) (rs : List (BitVec k)) {c : Canvas w h}
    (hc : c.grid.onOff) : (c.drawRows x y rs).grid.onOff := by
  induction rs generalizing y c with
  | nil => exact hc
  | cons r rs ih => exact ih (y + 1) (Canvas.onOff_drawBits x y _ hc)

/-- The cells after a row of bits: the cells of row `y` under a 1 bit are toggled. -/
theorem Canvas.drawBits_at {w h : Nat} (x y : Nat) (bs : List Bool) (c : Canvas w h) (hl : bs.length ≤ w)
    {px py : Nat} (hx : px < w) (hy : py < h) :
    (c.drawBits x y bs).grid.at px py =
      if py = y % h ∧ bs.getD (wrapOffset w x px) false = true then c.grid.at px py ^^^ 0xFF#8
      else c.grid.at px py := by
  induction bs generalizing x c with
  | nil => simp [Canvas.drawBits]
  | cons b bs ih =>
    have hl' : bs.length + 1 ≤ w := hl
    have hb : (if b then c.toggle x y else c).grid.at px py =
        if b = true ∧ px = x % w ∧ py = y % h then c.grid.at px py ^^^ 0xFF#8 else c.grid.at px py := by
      cases b
      · simp
      · simp [Canvas.toggle_at c x y hx hy]
    rw [Canvas.drawBits, ih (x + 1) _ (by omega), hb, wrapOffset_succ hx]
    simp only [wrapOffset_zero hx]
    by_cases ho : wrapOffset w x px = 0
    · have : ¬ w - 1 < bs.length := by omega
      rw [ho, if_pos rfl]
      simp [List.getD_eq_getElem?_getD, List.getElem?_eq_none (Nat.le_of_not_lt this), and_comm]
    · obtain ⟨o, ho'⟩ : ∃ o, wrapOffset w x px = o + 1 := ⟨wrapOffset w x px - 1, by omega⟩
      rw [ho']
      simp

/-- A row of bits collides where a cell under a 1 bit is on. -/
theorem Canvas.drawBits_collision {w h : Nat} (x y : Nat) (bs : List Bool) (c : Canvas w h)
    (hl : bs.length ≤ w) (hh : 0 < h) :
    (c.drawBits x y bs).collision = true ↔ c.collision = true ∨
      ∃ px, px < w ∧ bs.getD (wrapOffset w x px) false = true ∧ c.grid.at px (y % h) = 0xFF#8 := by
  induction bs generalizing x c with
  | nil => simp [Canvas.drawBits]
  | cons b bs ih =>
    have hl' : bs.length + 1 ≤ w := hl
    have hw : 0 < w := by omega
    have hy : y % h < h := Nat.mod_lt _ hh
    rw [Canvas.drawBits, ih (x + 1) _ (by omega)]
    have key : ∀ px, px < w → (bs.getD (wrapOffset w (x + 1) px) false = true ↔
        wrapOffset w x px ≠ 0 ∧ (b :: bs).getD (wrapOffset w x px) false = true) := by
      intro px hx
      rw [wrapOffset_succ hx]
      by_cases ho : wrapOffset w x px = 0
      · have : ¬ w - 1 < bs.length := by omega
        simp [ho, List.getD_eq_getElem?_getD, List.getElem?_eq_none (Nat.le_of_not_lt this)]
      · obtain ⟨o, ho'⟩ : ∃ o, wrapOffset w x px = o + 1 := ⟨wrapOffset w x px - 1, by omega⟩
        simp [ho']
    have cell : ∀ px, px < w → wrapOffset w x px ≠ 0 →
        (if b then c.toggle x y else c).grid.at px (y % h) = c.grid.at px (y % h) := by
      intro px hx ho
      split
      · rw [Canvas.toggle_at c x y hx hy, if_neg]
        rintro ⟨e, -⟩
        exact ho ((wrapOffset_zero hx).1 e)
      · rfl
    have hcol : (if b then c.toggle x y else c).collision = true ↔
        c.collision = true ∨ (b = true ∧ c.grid.at (x % w) (y % h) = 0xFF#8) := by
      cases b <;> simp [Canvas.toggle]
    have h0 : wrapOffset w x (x % w) = 0 := (wrapOffset_zero (Nat.mod_lt _ hw)).1 rfl
    rw [hcol]
    constructor
    · rintro ((h1 | ⟨hb, h1⟩) | ⟨px, hx, h1, h2⟩)
      · exact .inl h1
      · exact .inr ⟨x % w, Nat.mod_lt _ hw, by simp [h0, hb], h1⟩
      · obtain ⟨ho, hbit⟩ := (key px hx).1 h1
        exact .inr ⟨px, hx, hbit, (cell px hx ho) ▸ h2⟩
    · rintro (h1 | ⟨px, hx, h1, h2⟩)
      · exact .inl (.inl h1)
      · by_cases ho : wrapOffset w x px = 0
        · have e := (wrapOffset_zero hx).2 ho
          rw [ho] at h1
          exact .inl (.inr ⟨by simpa using h1, e ▸ h2⟩)
        · exact .inr ⟨px, hx, (key px hx).2 ⟨ho, h1⟩, (cell px hx ho).symm ▸ h2⟩

theorem rowBits_getD {k : Nat} (r : BitVec k) (j : Nat) : (rowBits r).getD j false = r.getMsbD j := by
  unfold rowBits
  by_cases h : j < k
  · simp [List.getD_eq_getElem?_getD, h]
  · have h1 : ¬ j < k := h
    rw [List.getD_eq_getElem?_getD, List.getElem?_eq_none (by simpa using h1)]
    simp [BitVec.getMsbD, h1]

@[simp] theorem rowBits_length {k : Nat} (r : BitVec k) : (rowBits r).length = k := by simp [rowBits]

/-- Whether the cell (px, py) lies under a 1 bit of the rows drawn at (x, y). -/
def litByRows {k : Nat} (w h x y : Nat) (rows : List (BitVec k)) (px py : Nat) : Bool :=
  match rows[wrapOffset h y py]? with
  | some r => r.getMsbD (wrapOffset w x px)
  | none => false

theorem litByRows_cons {k w h x y : Nat} (r : BitVec k) (rs : List (BitVec k))
    {px py : Nat} (hy : py < h) :
    litByRows w h x y (r :: rs) px py =
      if py = y % h then r.getMsbD (wrapOffset w x px) else litByRows w h x (y + 1) rs px py := by
  unfold litByRows
  simp only [wrapOffset_zero hy, wrapOffset_succ hy]
  by_cases ho : wrapOffset h y py = 0
  · simp [ho]
  · obtain ⟨o, ho'⟩ : ∃ o, wrapOffset h y py = o + 1 := ⟨wrapOffset h y py - 1, by omega⟩
    simp [ho']

theorem litByRows_cons_tail {k w h x y : Nat} (rs : List (BitVec k)) (hl : rs.length + 1 ≤ h)
    {px py : Nat} (hy : py < h) (e : py = y % h) : litByRows w h x (y + 1) rs px py = false := by
  unfold litByRows
  rw [wrapOffset_succ hy, if_pos ((wrapOffset_zero hy).1 e), List.getElem?_eq_none (by omega)]

/-- The cells after a sprite: those under a 1 bit are toggled, the others are as before (R171). -/
theorem Canvas.drawRows_at {w h k : Nat} (x y : Nat) (rs : List (BitVec k)) (c : Canvas w h) (hk : k ≤ w)
    (hl : rs.length ≤ h) {px py : Nat} (hx : px < w) (hy : py < h) :
    (c.drawRows x y rs).grid.at px py =
      if litByRows w h x y rs px py = true then c.grid.at px py ^^^ 0xFF#8 else c.grid.at px py := by
  induction rs generalizing y c with
  | nil => simp [Canvas.drawRows, litByRows]
  | cons r rs ih =>
    have hl' : rs.length + 1 ≤ h := hl
    rw [Canvas.drawRows, ih (y + 1) _ (by omega), Canvas.drawBits_at x y _ c (by simpa using hk) hx hy,
      rowBits_getD, litByRows_cons r rs hy]
    by_cases e : py = y % h
    · rw [litByRows_cons_tail rs hl' hy e]
      simp [e]
    · simp [e]

/-- A sprite collides where a cell under a 1 bit is on (R171). -/
theorem Canvas.drawRows_collision {w h k : Nat} (x y : Nat) (rs : List (BitVec k)) (c : Canvas w h)
    (hk : k ≤ w) (hl : rs.length ≤ h) :
    (c.drawRows x y rs).collision = true ↔ c.collision = true ∨
      ∃ px py, px < w ∧ py < h ∧ litByRows w h x y rs px py = true ∧ c.grid.at px py = 0xFF#8 := by
  induction rs generalizing y c with
  | nil => simp [Canvas.drawRows, litByRows]
  | cons r rs ih =>
    have hl' : rs.length + 1 ≤ h := hl
    have hh : 0 < h := by omega
    have hb : (rowBits r).length ≤ w := by simpa using hk
    rw [Canvas.drawRows, ih (y + 1) _ (by omega), Canvas.drawBits_collision x y _ c hb hh]
    simp only [rowBits_getD]
    constructor
    · rintro ((h1 | ⟨px, hx, h1, h2⟩) | ⟨px, py, hx, hy, h1, h2⟩)
      · exact .inl h1
      · refine .inr ⟨px, y % h, hx, Nat.mod_lt _ hh, ?_, h2⟩
        rw [litByRows_cons r rs (Nat.mod_lt _ hh), if_pos rfl]
        exact h1
      · have e : py ≠ y % h := by
          intro e
          rw [litByRows_cons_tail rs hl' hy e] at h1
          cases h1
        rw [Canvas.drawBits_at x y _ c hb hx hy, if_neg (fun q => e q.1)] at h2
        exact .inr ⟨px, py, hx, hy, by rw [litByRows_cons r rs hy, if_neg e]; exact h1, h2⟩
    · rintro (h1 | ⟨px, py, hx, hy, h1, h2⟩)
      · exact .inl (.inl h1)
      · rw [litByRows_cons r rs hy] at h1
        by_cases e : py = y % h
        · rw [if_pos e] at h1
          exact .inl (.inr ⟨px, hx, h1, e ▸ h2⟩)
        · rw [if_neg e] at h1
          refine .inr ⟨px, py, hx, hy, h1, ?_⟩
          rw [Canvas.drawBits_at x y _ c hb hx hy, if_neg (fun q => e q.1)]
          exact h2

/-- Some cell lies under a 1 bit exactly if some row of the sprite has one (R185). -/
theorem litByRows_exists {k w h x y : Nat} (rows : List (BitVec k)) (hk : k ≤ w) (hl : rows.length ≤ h) :
    (∃ px py, px < w ∧ py < h ∧ litByRows w h x y rows px py = true) ↔ ∃ r ∈ rows, r ≠ 0#k := by
  constructor
  · rintro ⟨px, py, -, -, hb⟩
    unfold litByRows at hb
    split at hb
    · next r hr =>
      refine ⟨r, List.mem_of_getElem? hr, ?_⟩
      rintro rfl
      simp at hb
    · simp at hb
  · rintro ⟨r, hr, h0⟩
    obtain ⟨j, hj, rfl⟩ := List.getElem_of_mem hr
    obtain ⟨d, hd, hb⟩ : ∃ d, d < k ∧ rows[j].getMsbD d = true := by
      by_contra hc
      refine h0 (BitVec.eq_of_getMsbD_eq fun d hd => ?_)
      have : rows[j].getMsbD d = false := by
        cases hv : rows[j].getMsbD d with
        | false => rfl
        | true => exact absurd ⟨d, hd, hv⟩ hc
      simp [this]
    refine ⟨(x + d) % w, (y + j) % h, Nat.mod_lt _ (by omega), Nat.mod_lt _ (by omega), ?_⟩
    unfold litByRows
    rw [wrapOffset_add (by omega), wrapOffset_add (by omega), List.getElem?_eq_getElem hj]
    exact hb

end Sys2Proof.Machine
end

