-- ==== Sys2Proof/Laws/Memory.lean ====
section
/-! SUPPORT. The laws of the store: read after write, the canonical form kept by every operation, and
what the range check, the block write and the accessors do. -/

namespace Sys2Proof.Machine

/-! ### Read after write -/

theorem Memory.get_insert (f : Fonts) (m : Memory) (a c : Nat) (b : Byte) :
    Memory.get f (Memory.insert a b m) c = if c = a then b else Memory.get f m c := by
  induction m with
  | nil => rfl
  | cons e m ih =>
    unfold Memory.insert
    split
    · rfl
    · split
      · next h =>
        simp only [Memory.get]
        by_cases hc : c = a
        · simp [hc]
        · simp [hc, ← h]
      · next h =>
        simp only [Memory.get, ih]
        by_cases hc : c = e.1
        · have : c ≠ a := fun e' => h (e' ▸ hc)
          rw [if_pos hc, if_neg this, if_pos hc]
        · rw [if_neg hc, if_neg hc]

theorem Memory.get_filter (f : Fonts) (m : Memory) (a c : Nat) :
    Memory.get f (m.filter (fun e => e.1 != a)) c = if c = a then initialByte f a else Memory.get f m c := by
  induction m with
  | nil => by_cases h : c = a <;> simp [Memory.get, h]
  | cons e m ih =>
    by_cases he : e.1 = a
    · simp only [List.filter_cons, he, bne_self_eq_false, Bool.false_eq_true, if_false, ih, Memory.get]
      by_cases hc : c = a <;> simp [hc]
    · have : (e.1 != a) = true := by simpa using he
      simp only [List.filter_cons, this, if_true, Memory.get, ih]
      by_cases hc : c = e.1
      · have : c ≠ a := fun e' => he (hc ▸ e')
        simp [hc, he]
      · simp [hc]

/-- The byte at every address after a write of one. -/
theorem Memory.get_set (f : Fonts) (m : Memory) (a c : Nat) (b : Byte) :
    Memory.get f (Memory.set f m a b) c = if c = a then b else Memory.get f m c := by
  unfold Memory.set
  split
  · next h => rw [Memory.get_filter, h]
  · exact Memory.get_insert f m a c b

theorem State.readByte_writeByte (s : State) (a c : Nat) (b : Byte) :
    (s.writeByte a b).readByte c = if c = a then b else s.readByte c :=
  Memory.get_set s.cfg.fonts s.mem a c b

@[simp] theorem State.readByte_writeByte_self (s : State) (a : Nat) (b : Byte) :
    (s.writeByte a b).readByte a = b := by
  simp [State.readByte_writeByte]

/-! ### The canonical form -/

theorem Memory.mem_insert {a : Nat} {b : Byte} {m : Memory} {c : Host.Cell}
    (h : c ∈ Memory.insert a b m) : c = (a, b) ∨ c ∈ m := by
  induction m with
  | nil => simpa [Memory.insert] using h
  | cons e m ih =>
    unfold Memory.insert at h
    split at h
    · simpa using h
    · split at h
      · rcases List.mem_cons.1 h with h | h
        · exact .inl h
        · exact .inr (List.mem_cons_of_mem _ h)
      · rcases List.mem_cons.1 h with h | h
        · exact .inr (h ▸ List.mem_cons_self)
        · exact (ih h).imp id (List.mem_cons_of_mem _)

theorem Memory.pairwise_insert {a : Nat} {b : Byte} {m : Memory}
    (h : m.Pairwise (fun c d => c.1 < d.1)) : (Memory.insert a b m).Pairwise (fun c d => c.1 < d.1) := by
  induction m with
  | nil => simp [Memory.insert]
  | cons e m ih =>
    obtain ⟨he, hm⟩ := List.pairwise_cons.1 h
    unfold Memory.insert
    split
    · next ha =>
      refine List.pairwise_cons.2 ⟨fun c hc => ?_, h⟩
      rcases List.mem_cons.1 hc with rfl | hc
      · exact ha
      · exact Nat.lt_trans ha (he c hc)
    · split
      · next ha => exact List.pairwise_cons.2 ⟨fun c hc => ha ▸ he c hc, hm⟩
      · next h1 h2 =>
        refine List.pairwise_cons.2 ⟨fun c hc => ?_, ih hm⟩
        rcases Memory.mem_insert hc with rfl | hc
        · show e.1 < a
          omega
        · exact he c hc

/-- A write in range keeps the canonical form. -/
theorem Memory.set_keeps_wf {f : Fonts} {m : Memory} {a : Nat} {b : Byte} (ha : inRange a)
    (h : Memory.wf f m) : Memory.wf f (Memory.set f m a b) := by
  unfold Memory.set
  split
  · exact ⟨h.1.filter _, fun c hc => h.2 c (List.mem_of_mem_filter hc)⟩
  · next hb =>
    refine ⟨Memory.pairwise_insert h.1, fun c hc => ?_⟩
    rcases Memory.mem_insert hc with rfl | hc
    · exact ⟨ha, hb⟩
    · exact h.2 c hc

theorem State.writeByte_keeps_wf {s : State} {a : Nat} {b : Byte} (ha : inRange a)
    (h : Memory.wf s.cfg.fonts s.mem) : Memory.wf (s.writeByte a b).cfg.fonts (s.writeByte a b).mem :=
  Memory.set_keeps_wf ha h

theorem State.reset_mem_wf : Memory.wf State.reset.cfg.fonts State.reset.mem :=
  ⟨List.Pairwise.nil, fun _ hc => nomatch hc⟩

/-- A listed byte is the byte that is read. -/
theorem Memory.get_of_mem {f : Fonts} {m : Memory} (h : m.Pairwise (fun c d => c.1 < d.1)) {c : Host.Cell}
    (hc : c ∈ m) : Memory.get f m c.1 = c.2 := by
  induction m with
  | nil => cases hc
  | cons e m ih =>
    obtain ⟨he, hm⟩ := List.pairwise_cons.1 h
    rcases List.mem_cons.1 hc with rfl | hc
    · simp [Memory.get]
    · have := he c hc
      simp only [Memory.get, if_neg (by omega : c.1 ≠ e.1)]
      exact ih hm hc

/-! ### The range check -/

/-- The first address out of range of a block is 0x1000, or the block's first address if that lies
above. -/
theorem firstOutOfRange_eq (a n : Nat) :
    firstOutOfRange a n = if a + n ≤ 4096 ∨ n = 0 then none else some (max a 4096) := by
  unfold firstOutOfRange
  induction n with
  | zero => simp
  | succ n ih =>
    rw [List.range_succ, List.map_append, List.find?_append, ih]
    simp only [List.map_cons, List.map_nil, List.find?_cons, List.find?_nil, inRange]
    by_cases h1 : a + n ≤ 4096 ∨ n = 0
    · by_cases h2 : a + n < 4096
      · rw [if_pos h1]
        simp [h2]
        omega
      · rw [if_pos h1]
        have : max a 4096 = a + n := by omega
        simp [h2, this]
        omega
    · rw [if_neg h1, if_neg (by omega)]
      rfl

theorem firstOutOfRange_none {a n : Nat} (h : a + n ≤ 4096) : firstOutOfRange a n = none := by
  simp [firstOutOfRange_eq, h]

theorem firstOutOfRange_some {a n : Nat} (hn : 0 < n) (h : 4096 < a + n) :
    firstOutOfRange a n = some (max a 4096) := by
  rw [firstOutOfRange_eq, if_neg (by omega)]

theorem le_of_firstOutOfRange_none {a n : Nat} (h : firstOutOfRange a n = none) :
    a + n ≤ 4096 ∨ n = 0 := by
  rw [firstOutOfRange_eq] at h
  by_contra hc
  simp [hc] at h

/-! ### Block writes -/

/-- The bytes of the store after a block write. -/
theorem State.readByte_writeBytes (s : State) (a c : Nat) (bs : List Byte) :
    (s.writeBytes a bs).readByte c =
      if h : a ≤ c ∧ c < a + bs.length then bs[c - a] else s.readByte c := by
  induction bs generalizing s a with
  | nil => simp [State.writeBytes]
  | cons b bs ih =>
    rw [State.writeBytes, ih]
    by_cases h1 : a + 1 ≤ c ∧ c < a + 1 + bs.length
    · have h2 : a ≤ c ∧ c < a + (b :: bs).length := by simp; omega
      have h3 : c - a = (c - (a + 1)) + 1 := by omega
      rw [dif_pos h1, dif_pos h2]
      simp [h3]
    · rw [dif_neg h1, State.readByte_writeByte]
      by_cases h2 : c = a
      · subst h2
        simp
      · have h3 : ¬ (a ≤ c ∧ c < a + (b :: bs).length) := by simp; omega
        rw [if_neg h2, dif_neg h3]

/-- A block write changes the store alone. -/
theorem State.writeBytes_eq (s : State) (a : Nat) (bs : List Byte) :
    s.writeBytes a bs = { s with mem := (s.writeBytes a bs).mem } := by
  induction bs generalizing s a with
  | nil => rfl
  | cons b bs ih => exact ih (s.writeByte a b) (a + 1)

/-- A block write in range keeps the canonical form. -/
theorem State.writeBytes_keeps_wf {s : State} {a : Nat} {bs : List Byte} (ha : a + bs.length ≤ 4096)
    (h : Memory.wf s.cfg.fonts s.mem) : Memory.wf s.cfg.fonts (s.writeBytes a bs).mem := by
  induction bs generalizing s a with
  | nil => exact h
  | cons b bs ih =>
    have ha' : a + (bs.length + 1) ≤ 4096 := by simpa using ha
    exact ih (s := s.writeByte a b) (by omega)
      (Memory.set_keeps_wf (show a < 4096 by omega) h)

/-! ### The accessors -/

theorem State.get16_eq {s : State} {a : Nat} (h : a + 2 ≤ 4096) :
    s.get16 a = .ok (s.readByte a ++ s.readByte (a + 1)) := by
  simp [State.get16, firstOutOfRange_none h]

theorem State.set16_eq {s : State} {a : Nat} {w : Word} (h : a + 2 ≤ 4096) :
    s.set16 a w = .ok ((s.writeByte a (highByte w)).writeByte (a + 1) (lowByte w)) := by
  simp [State.set16, firstOutOfRange_none h]

/-- The two bytes of a word make the word (R62). -/
@[simp] theorem highByte_append_lowByte (w : Word) : highByte w ++ lowByte w = w := by
  unfold highByte lowByte
  ext i hi
  simp only [BitVec.getElem_append, BitVec.getElem_extractLsb']
  split
  · simp; rfl
  · next h =>
    have : 8 + (i - 8) = i := by omega
    simp [this]; rfl

@[simp] theorem highByte_append (a b : Byte) : highByte (a ++ b) = a := by
  unfold highByte
  ext i hi
  rw [BitVec.getElem_extractLsb', BitVec.getLsbD_append, if_neg (by omega), Nat.add_sub_cancel_left,
    BitVec.getLsbD_eq_getElem hi]

@[simp] theorem lowByte_append (a b : Byte) : lowByte (a ++ b) = b := by
  unfold lowByte
  ext i hi
  simp [BitVec.getElem_extractLsb']
  rw [BitVec.getLsbD_append]
  simp [hi]

end Sys2Proof.Machine
end

