-- ==== Sys2Proof/Laws/Ops.lean ====
section
/-! SUPPORT. What each shared operation over the state can do, said once: which fields it writes, and what it
leaves in them. -/

namespace Sys2Proof.Machine

/-! ### Frames -/

/-- A frame, part by part. -/
theorem keepsOthers_intro {l : List Part} {s t : State}
    (reg : ∀ x, Part.reg x ∉ l → t.reg x = s.reg x) (pc : Part.pc ∉ l → t.pc = s.pc)
    (index : Part.index ∉ l → t.index = s.index) (sp : Part.sp ∉ l → t.sp = s.sp)
    (dt : Part.dt ∉ l → t.dt = s.dt) (st : Part.st ∉ l → t.st = s.st)
    (byte : ∀ a, Part.byte a ∉ l → t.readByte a = s.readByte a)
    (std : Part.stdGrid ∉ l → t.stdGrid = s.stdGrid) (ext : Part.extGrid ∉ l → t.extGrid = s.extGrid)
    (mode : Part.mode ∉ l → t.extendedMode = s.extendedMode) (status : Part.status ∉ l → t.status = s.status)
    (tick : Part.tickPos ∉ l → t.tickPos = s.tickPos) (keys : Part.keys ∉ l → t.keys = s.keys)
    (rand : Part.randCount ∉ l → t.randCount = s.randCount) (cfg : Part.cfg ∉ l → t.cfg = s.cfg) :
    keepsOthers l s t := by
  intro p hp
  cases p with
  | reg x => exact reg x hp
  | pc => exact pc hp
  | index => exact index hp
  | sp => exact sp hp
  | dt => exact dt hp
  | st => exact st hp
  | byte a => exact byte a hp
  | stdGrid => exact std hp
  | extGrid => exact ext hp
  | mode => exact mode hp
  | status => exact status hp
  | tickPos => exact tick hp
  | keys => exact keys hp
  | randCount => exact rand hp
  | cfg => exact cfg hp

theorem keepsOthers_refl (l : List Part) (s : State) : keepsOthers l s s := by
  apply keepsOthers_intro <;> intros <;> rfl

theorem keepsOthers_trans {l : List Part} {s t u : State} (h : keepsOthers l s t) (k : keepsOthers l t u) :
    keepsOthers l s u := by
  intro p hp
  have h1 := h p hp
  have h2 := k p hp
  cases p <;> exact h2.trans h1

theorem keepsOthers_mono {l m : List Part} {s t : State} (h : keepsOthers l s t) (hm : ∀ p ∈ l, p ∈ m) :
    keepsOthers m s t :=
  fun p hp => h p (fun q => hp (hm p q))

/-! ### Flag-writing operations (R142) -/

/-- A flag-writing operation writes registers alone. -/
theorem State.withFlag_eq (s : State) (x y : Nibble) (f r : Byte → Byte → Byte) :
    s.withFlag x y f r = { s with v := (s.withFlag x y f r).v } := by
  unfold State.withFlag
  split <;> rfl

/-- … and of them `V[x]` and `VF` alone. -/
theorem State.withFlag_reg_other (s : State) (x y z : Nibble) (f r : Byte → Byte → Byte) (hx : z ≠ x)
    (hf : z ≠ vf) : (s.withFlag x y f r).reg z = s.reg z := by
  unfold State.withFlag
  split <;> simp [State.setReg_reg, hx, hf]

/-- Where neither operand is `VF`, the two orders of writes give the same. -/
theorem State.withFlag_away (s : State) (x y : Nibble) (f r : Byte → Byte → Byte) (hx : x ≠ vf) (hy : y ≠ vf) :
    (s.withFlag x y f r).reg x = r (s.reg x) (s.reg y) ∧
      (s.withFlag x y f r).reg vf = f (s.reg x) (s.reg y) := by
  unfold State.withFlag
  have hx' : vf ≠ x := Ne.symm hx
  split <;> simp [State.setReg_reg, hx, hy, hx']

/-- Under `FlagThenResult` the result is of the registers after the flag is written. -/
theorem State.withFlag_flagThenResult (s : State) (x y : Nibble) (f r : Byte → Byte → Byte)
    (h : s.cfg.flagWriteOrder = .flagThenResult) :
    (s.withFlag x y f r).reg x =
        r (if x = vf then f (s.reg x) (s.reg y) else s.reg x) (if y = vf then f (s.reg x) (s.reg y) else s.reg y) ∧
      (x ≠ vf → (s.withFlag x y f r).reg vf = f (s.reg x) (s.reg y)) := by
  unfold State.withFlag
  rw [h]
  refine ⟨by simp [State.setReg_reg], fun hx => ?_⟩
  simp [State.setReg_reg, Ne.symm hx]

/-- Under `ResultThenFlag` the flag is written last. -/
theorem State.withFlag_resultThenFlag (s : State) (x y : Nibble) (f r : Byte → Byte → Byte)
    (h : s.cfg.flagWriteOrder = .resultThenFlag) :
    (s.withFlag x y f r).reg vf = f (s.reg x) (s.reg y) ∧
      (x ≠ vf → (s.withFlag x y f r).reg x = r (s.reg x) (s.reg y)) := by
  unfold State.withFlag
  rw [h]
  exact ⟨by simp, fun hx => by simp [State.setReg_reg, hx]⟩

/-! ### Block loads of registers (R222) -/

theorem loadRegs_fold (s : State) (a n : Nat) (hn : n ≤ 16) :
    let t := (List.range n).foldl (fun t k => t.setReg (BitVec.ofNat 4 k) (t.readByte (a + k))) s
    t = { s with v := t.v } ∧ ∀ k : Nibble, t.reg k = if k.toNat < n then s.readByte (a + k.toNat) else s.reg k := by
  induction n with
  | zero => exact ⟨rfl, fun k => by simp⟩
  | succ n ih =>
    obtain ⟨h1, h2⟩ := ih (by omega)
    simp only [List.range_succ, List.foldl_append, List.foldl_cons, List.foldl_nil]
    generalize (List.range n).foldl (fun t k => t.setReg (BitVec.ofNat 4 k) (t.readByte (a + k))) s = t at h1 h2
    refine ⟨by rw [h1]; rfl, fun k => ?_⟩
    rw [State.setReg_reg, h2 k]
    have hb : t.readByte (a + n) = s.readByte (a + n) := by rw [h1]; rfl
    have hk : k = BitVec.ofNat 4 n ↔ k.toNat = n := by
      constructor
      · rintro rfl
        simp
        omega
      · intro e
        apply BitVec.eq_of_toNat_eq
        simp
        omega
    by_cases e : k.toNat = n
    · rw [if_pos (hk.2 e), if_pos (by omega), hb, e]
    · rw [if_neg (fun q => e (hk.1 q))]
      by_cases l : k.toNat < n
      · rw [if_pos l, if_pos (by omega)]
      · rw [if_neg l, if_neg (by omega)]

/-- A block load writes registers alone. -/
theorem State.loadRegsUpTo_eq (s : State) (x : Nibble) (a : Nat) :
    s.loadRegsUpTo x a = { s with v := (s.loadRegsUpTo x a).v } :=
  (loadRegs_fold s a (x.toNat + 1) (by have := x.isLt; omega)).1

/-- … each from its byte, up to `x`. -/
theorem State.loadRegsUpTo_reg (s : State) (x k : Nibble) (a : Nat) :
    (s.loadRegsUpTo x a).reg k = if k.toNat ≤ x.toNat then s.readByte (a + k.toNat) else s.reg k := by
  have h := (loadRegs_fold s a (x.toNat + 1) (by have := x.isLt; omega)).2 k
  rw [State.loadRegsUpTo, h]
  simp only [Nat.lt_succ_iff]

@[simp] theorem State.regsUpTo_length (s : State) (x : Nibble) : (s.regsUpTo x).length = x.toNat + 1 := by
  simp [State.regsUpTo]

theorem State.regsUpTo_getElem (s : State) (x k : Nibble) (h : k.toNat < (s.regsUpTo x).length) :
    (s.regsUpTo x)[k.toNat] = s.reg k := by
  simp [State.regsUpTo]

/-! ### The active grid (R41) -/

/-- A change of the active grid writes the two grids alone. -/
theorem State.onActiveGrid_eq (s : State) (f : (w h : Nat) → Grid w h → Grid w h) :
    s.onActiveGrid f =
      { s with stdGrid := (s.onActiveGrid f).stdGrid, extGrid := (s.onActiveGrid f).extGrid } := by
  unfold State.onActiveGrid
  split <;> rfl

/-- … and not the inactive one. -/
theorem State.onActiveGrid_inactive (s : State) (f : (w h : Nat) → Grid w h → Grid w h) :
    (s.extendedMode = true → (s.onActiveGrid f).stdGrid = s.stdGrid) ∧
      (s.extendedMode = false → (s.onActiveGrid f).extGrid = s.extGrid) := by
  unfold State.onActiveGrid
  constructor <;> intro h <;> simp [h]

/-- The cells of the active grid after a change of it. -/
theorem State.onActiveGrid_pixel (s : State) (f : (w h : Nat) → Grid w h → Grid w h) (px py : Nat) :
    (s.onActiveGrid f).pixel px py =
      if s.extendedMode then (f 128 64 s.extGrid).at px py else (f 64 32 s.stdGrid).at px py := by
  unfold State.onActiveGrid State.pixel
  cases s.extendedMode <;> simp

/-! ### Drawing (R176, R177) -/

/-- Painting writes the two grids alone. -/
theorem State.paint_eq {k : Nat} (s : State) (x0 y0 : Nat) (rows : List (BitVec k)) :
    (s.paint x0 y0 rows).1 =
      { s with stdGrid := (s.paint x0 y0 rows).1.stdGrid, extGrid := (s.paint x0 y0 rows).1.extGrid } := by
  unfold State.paint
  split <;> rfl

/-- The draw, with its coordinates named. -/
theorem State.drawSprite_coords {k : Nat} (s : State) (x y : Nibble) (rows : List (BitVec k)) :
    s.drawSprite x y rows =
      let p := (s.setReg vf 0x00#8).paint (s.drawCoord x) (s.drawCoord y) rows
      if p.2 then p.1.setReg vf 0x01#8 else p.1 := by
  unfold State.drawSprite State.drawCoord
  cases s.cfg.flagWriteOrder
  · simp only [State.setReg_reg]
    by_cases hx : x = vf <;> by_cases hy : y = vf <;> simp [hx, hy]
  · rfl

/-- A draw writes `VF` and the two grids alone. -/
theorem State.drawSprite_eq {k : Nat} (s : State) (x y : Nibble) (rows : List (BitVec k)) :
    s.drawSprite x y rows =
      { s with v := (s.drawSprite x y rows).v, stdGrid := (s.drawSprite x y rows).stdGrid,
               extGrid := (s.drawSprite x y rows).extGrid } := by
  have e := State.drawSprite_coords s x y rows
  have p := State.paint_eq (s.setReg vf 0x00#8) (s.drawCoord x) (s.drawCoord y) rows
  generalize s.drawSprite x y rows = d at e
  cases h : ((s.setReg vf 0x00#8).paint (s.drawCoord x) (s.drawCoord y) rows).2 <;>
    simp only [h, Bool.false_eq_true, if_false, if_true] at e <;> rw [e, p] <;> rfl

theorem State.paint_reg {k : Nat} (s : State) (x0 y0 : Nat) (rows : List (BitVec k)) (z : Nibble) :
    (s.paint x0 y0 rows).1.reg z = s.reg z := by
  unfold State.paint
  split <;> rfl

theorem State.paint_pixel {k : Nat} (s : State) (x0 y0 : Nat) (rows : List (BitVec k)) (hk : k ≤ 16)
    (hl : rows.length ≤ 16) {px py : Nat} (hx : px < s.width) (hy : py < s.height) :
    (s.paint x0 y0 rows).1.pixel px py =
      if litByRows s.width s.height x0 y0 rows px py = true then s.pixel px py ^^^ 0xFF#8
      else s.pixel px py := by
  unfold State.paint
  unfold State.width at hx ⊢
  unfold State.height at hy ⊢
  unfold State.pixel
  cases h : s.extendedMode
  · simp only [h, Bool.false_eq_true, if_false] at hx hy ⊢
    exact Canvas.drawRows_at x0 y0 rows ⟨s.stdGrid, false⟩ (by omega) (by omega) hx hy
  · simp only [h, if_true] at hx hy ⊢
    exact Canvas.drawRows_at x0 y0 rows ⟨s.extGrid, false⟩ (by omega) (by omega) hx hy

theorem State.paint_collision {k : Nat} (s : State) (x0 y0 : Nat) (rows : List (BitVec k)) (hk : k ≤ 16)
    (hl : rows.length ≤ 16) :
    (s.paint x0 y0 rows).2 = true ↔ ∃ px py, px < s.width ∧ py < s.height ∧
      litByRows s.width s.height x0 y0 rows px py = true ∧ s.pixel px py = 0xFF#8 := by
  unfold State.paint State.width State.height State.pixel
  cases h : s.extendedMode
  · simp only [Bool.false_eq_true, if_false]
    rw [Canvas.drawRows_collision x0 y0 rows ⟨s.stdGrid, false⟩ (by omega) (by omega)]
    simp
  · simp only [if_true]
    rw [Canvas.drawRows_collision x0 y0 rows ⟨s.extGrid, false⟩ (by omega) (by omega)]
    simp

theorem State.drawSprite_reg_other {k : Nat} (s : State) (x y z : Nibble) (rows : List (BitVec k)) (hz : z ≠ vf) :
    (s.drawSprite x y rows).reg z = s.reg z := by
  rw [State.drawSprite_coords]
  simp only
  split <;> simp [State.setReg_reg, State.paint_reg, hz]

/-- A draw does not touch the inactive grid. -/
theorem State.drawSprite_inactive {k : Nat} (s : State) (x y : Nibble) (rows : List (BitVec k)) :
    (s.extendedMode = true → (s.drawSprite x y rows).stdGrid = s.stdGrid) ∧
      (s.extendedMode = false → (s.drawSprite x y rows).extGrid = s.extGrid) := by
  rw [State.drawSprite_coords]
  unfold State.paint
  constructor <;> intro h <;> simp only [State.setReg_extendedMode, h, Bool.false_eq_true, if_false, if_true] <;>
    split <;> rfl

/-- What a draw does, in the terms of the statements: the cells under a 1 bit are toggled, and `VF` says
whether one of them was on. -/
theorem State.drawSprite_drawnBy {k : Nat} (s : State) (x y : Nibble) (rows : List (BitVec k)) (hk : k ≤ 16)
    (hl : rows.length ≤ 16) :
    s.drawnBy (s.drawSprite x y rows) (litByRows s.width s.height (s.drawCoord x) (s.drawCoord y) rows) := by
  rw [State.drawSprite_coords]
  have hc := State.paint_collision (s.setReg vf 0x00#8) (s.drawCoord x) (s.drawCoord y) rows hk hl
  refine ⟨fun px py hx hy => ?_, fun h => ?_, fun h => ?_⟩
  · have hp := State.paint_pixel (s.setReg vf 0x00#8) (s.drawCoord x) (s.drawCoord y) rows hk hl hx hy
    simp only
    split
    · rw [State.setReg_pixel, hp]
      rfl
    · rw [hp]
      rfl
  · simp only [hc.2 h, if_true, State.setReg_reg_self]
  · have : ¬ ((s.setReg vf 0x00#8).paint (s.drawCoord x) (s.drawCoord y) rows).2 = true := fun e => h (hc.1 e)
    simp only [this, if_false, State.paint_reg, State.setReg_reg_self, Bool.false_eq_true]

theorem State.onOff_drawSprite {k : Nat} (s : State) (x y : Nibble) (rows : List (BitVec k))
    (h1 : s.stdGrid.onOff) (h2 : s.extGrid.onOff) :
    (s.drawSprite x y rows).stdGrid.onOff ∧ (s.drawSprite x y rows).extGrid.onOff := by
  rw [State.drawSprite_coords]
  unfold State.paint
  cases h : s.extendedMode
  · simp only [State.setReg_extendedMode, h, Bool.false_eq_true, if_false]
    split
    · exact ⟨Canvas.onOff_drawRows _ _ _ h1, h2⟩
    · exact ⟨Canvas.onOff_drawRows _ _ _ h1, h2⟩
  · simp only [State.setReg_extendedMode, h, if_true]
    split
    · exact ⟨h1, Canvas.onOff_drawRows _ _ _ h2⟩
    · exact ⟨h1, Canvas.onOff_drawRows _ _ _ h2⟩

/-- The rows of an 8-bit sprite in the store, as the statements read them. -/
theorem State.litByRows_readBytes (s : State) (x0 y0 n px py : Nat) :
    litByRows s.width s.height x0 y0 (s.readBytes s.indexAddr n) px py = s.litBy8 x0 y0 n px py := by
  unfold litByRows State.litBy8 State.readBytes State.indexAddr
  simp only [List.getElem?_map]
  by_cases h : wrapOffset s.height y0 py < n
  · simp only [h, Option.map_some, List.getElem?_range]
    by_cases h8 : wrapOffset s.width x0 px < 8
    · simp [h8]
    · simp [h8, BitVec.getMsbD]
  · simp [h]

/-- The rows of a 16×16 sprite in the store, as the statements read them. -/
theorem State.litByRows_readWords (s : State) (x0 y0 px py : Nat) :
    litByRows s.width s.height x0 y0 (s.readWords s.indexAddr 16) px py = s.litBy16 x0 y0 px py := by
  unfold litByRows State.litBy16 State.readWords State.indexAddr
  simp only [List.getElem?_map]
  by_cases h : wrapOffset s.height y0 py < 16
  · simp only [h, Option.map_some, List.getElem?_range]
    by_cases h16 : wrapOffset s.width x0 px < 16
    · by_cases h8 : wrapOffset s.width x0 px < 8
      · simp only [BitVec.getMsbD_append]
        simp [h8, h16]
      · simp only [BitVec.getMsbD_append]
        simp [h8, h16]
    · simp [h16, BitVec.getMsbD]
  · simp [h]

/-! ### Timers and keys -/

theorem countDown_toNat (t : Byte) : (countDown t).toNat = t.toNat - 1 := by
  unfold countDown
  split
  · next h =>
    rw [BitVec.toNat_sub]
    have := t.isLt
    simp
    omega
  · next h => omega

theorem State.key_of_lt (s : State) {k : Nat} (h : k < 16) : s.key k = s.keys[k] := by
  simp [State.key, h]

end Sys2Proof.Machine
end

