-- ==== Sys2Proof/Laws/Exec.lean ====
section
/-! SUPPORT. The meanings of call and return as one equation each, what a step and a tick can do, said once, and that no
instruction reads the tick position. -/

namespace Sys2Proof.Machine

/-! ### Flags as numbers -/

theorem flagByte_decide_toNat (p : Prop) [Decidable p] : (flagByte (decide p)).toNat = if p then 1 else 0 := by
  by_cases h : p <;> simp [h, flagByte]

theorem shrFlag_toNat (a : Byte) : (shrFlag a).toNat = a.toNat % 2 := by
  revert a
  decide

theorem shlFlag_toNat (m : ShlFlagMode) (a : Byte) :
    (shlFlag m a).toNat = if m = .bit7 then a.toNat / 128 else 0 := by
  cases m
  · revert a
    decide
  · rfl

/-! ### Call and return -/

/-- A call writes the two bytes at the new `SP`, `SP` and `PC`; the write is always in range (R70, R121). -/
theorem execCall_eq (nnn : Addr12) (s : State) :
    execCall nnn s = .next { ({ s.advance with sp := s.sp + 2#8 }.writeByte (s.sp + 2#8).toNat
      (highByte (s.pc + 2#16))).writeByte ((s.sp + 2#8).toNat + 1) (lowByte (s.pc + 2#16)) with
        pc := zext16 nnn } := by
  have hs : (s.sp + 2#8).toNat + 2 ≤ 4096 := by
    have := (s.sp + 2#8).isLt
    omega
  unfold execCall
  simp only [State.advance_sp, State.advance_pc]
  rw [State.set16_eq hs]

/-- A return reads the word at `SP` and writes `SP` and `PC` (R122). -/
theorem execRet_eq (s : State) :
    execRet s = .next { s with pc := s.readByte s.sp.toNat ++ s.readByte (s.sp.toNat + 1), sp := s.sp - 2#8 } := by
  have hs : s.sp.toNat + 2 ≤ 4096 := by
    have := s.sp.isLt
    omega
  unfold execRet
  rw [State.get16_eq hs]

/-! ### What a step can do -/

/-- A step either finds the run at its end, or ends a tick that has no step left, or runs one instruction step
and moves the tick position on. -/
theorem step_cases {s t : State} (h : step s = .next t) :
    (s.status ≠ .running ∧ t = s) ∨
    (s.status = .running ∧ ¬ s.tickPos < s.cfg.ipt ∧ t = { s.beginStep with tickPos := 0 }) ∨
    (s.status = .running ∧ s.tickPos < s.cfg.ipt ∧ ∃ u, engineStep s.beginStep = .next u ∧ t = u.endStep) := by
  unfold step turn at h
  split at h
  · next hr =>
    split at h
    · next ht =>
      cases he : engineStep s.beginStep with
      | next u =>
        rw [he] at h
        cases h
        exact .inr (.inr ⟨hr, ht, u, rfl, rfl⟩)
      | fault r =>
        rw [he] at h
        cases h
      | refused r =>
        rw [he] at h
        cases h
    · next ht =>
      cases h
      exact .inr (.inl ⟨hr, ht, rfl⟩)
  · next hr =>
    cases h
    exact .inl ⟨hr, rfl⟩

/-- What the `tick` port answers: nothing new out of `Running`, the transaction at a tick boundary, and a
refusal while a tick is running (R258, R260, R269). -/
theorem tick_cases (s : State) :
    (s.status ≠ .running ∧ tick s = .next s) ∨
    (s.status = .running ∧ s.tickPos = 0 ∧ tick s = batch s.cfg.ipt s.timerTick) ∨
    (s.status = .running ∧ s.tickPos ≠ 0 ∧ tick s = .refused .tickRunning) := by
  unfold tick
  by_cases hr : s.status = .running
  · by_cases h0 : s.tickPos = 0 <;> simp [hr, h0]
  · simp [hr]

/-! ### No instruction reads the tick position -/

/-- The state at another tick position. -/
def State.atTick (p : Nat) (s : State) : State := { s with tickPos := p }

/-- The outcome at another tick position. -/
def outcomeAtTick (p : Nat) : Host.Outcome State Fault Refusal → Host.Outcome State Fault Refusal
  | .next t => .next (t.atTick p)
  | .fault r => .fault r
  | .refused r => .refused r

section
variable (p : Nat) (s : State)

theorem State.atTick_onActiveGrid (f : (w h : Nat) → Grid w h → Grid w h) :
    (s.atTick p).onActiveGrid f = (s.onActiveGrid f).atTick p := by
  unfold State.onActiveGrid
  show (if s.extendedMode then _ else _) = _
  split <;> rfl

theorem State.atTick_scroll (i : Instr) (f : (w h : Nat) → Grid w h → Grid w h) :
    (s.atTick p).scroll i f = (s.scroll i f).atTick p := by
  unfold State.scroll
  show (if s.scrollAllowed then _ else _) = _
  split
  · exact State.atTick_onActiveGrid p s.advance f
  · rfl

theorem State.atTick_skipIf (c : Bool) : (s.atTick p).skipIf c = (s.skipIf c).atTick p := by
  cases c <;> rfl

theorem State.atTick_withFlag (x y : Nibble) (f g : Byte → Byte → Byte) :
    (s.atTick p).withFlag x y f g = (s.withFlag x y f g).atTick p := by
  unfold State.withFlag
  rw [show (s.atTick p).cfg = s.cfg from rfl]
  cases s.cfg.flagWriteOrder <;> rfl

theorem State.atTick_paint {k : Nat} (x0 y0 : Nat) (rows : List (BitVec k)) :
    (s.atTick p).paint x0 y0 rows = ((s.paint x0 y0 rows).1.atTick p, (s.paint x0 y0 rows).2) := by
  unfold State.paint
  by_cases h : s.extendedMode = true
  · rw [if_pos h, if_pos (show (s.atTick p).extendedMode = true from h)]
    rfl
  · rw [if_neg h, if_neg (show ¬ (s.atTick p).extendedMode = true from h)]
    rfl

theorem State.atTick_drawSprite {k : Nat} (x y : Nibble) (rows : List (BitVec k)) :
    (s.atTick p).drawSprite x y rows = (s.drawSprite x y rows).atTick p := by
  rw [State.drawSprite_coords, State.drawSprite_coords]
  have e : ((s.atTick p).setReg vf 0x00#8).paint ((s.atTick p).drawCoord x) ((s.atTick p).drawCoord y) rows = _ :=
    State.atTick_paint p (s.setReg vf 0x00#8) (s.drawCoord x) (s.drawCoord y) rows
  simp only [e]
  split <;> rfl

theorem State.atTick_writeBytes (a : Nat) (bs : List Byte) :
    (s.atTick p).writeBytes a bs = (s.writeBytes a bs).atTick p := by
  induction bs generalizing s a with
  | nil => rfl
  | cons b bs ih => exact ih (s.writeByte a b) (a + 1)

theorem State.atTick_loadRegsUpTo (x : Nibble) (a : Nat) :
    (s.atTick p).loadRegsUpTo x a = (s.loadRegsUpTo x a).atTick p := by
  unfold State.loadRegsUpTo
  generalize List.range (x.toNat + 1) = l
  induction l generalizing s with
  | nil => rfl
  | cons b bs ih => exact ih (s.setReg (BitVec.ofNat 4 b) (s.readByte (a + b)))

end

/-- An instruction does the same at every tick position, and keeps it. -/
theorem exec_atTick (i : Instr) (s : State) (p : Nat) : exec i (s.atTick p) = outcomeAtTick p (exec i s) := by
  cases i
  case cls => exact congrArg _ (State.atTick_onActiveGrid p s.advance _)
  case scd | scr | scl => exact congrArg _ (State.atTick_scroll p s ..)
  case call nnn =>
    show execCall nnn _ = outcomeAtTick p (execCall nnn s)
    rw [execCall_eq, execCall_eq]
    rfl
  case ret =>
    show execRet _ = outcomeAtTick p (execRet s)
    rw [execRet_eq, execRet_eq]
    rfl
  case seImm | sneImm | seReg | sneReg => exact congrArg _ (State.atTick_skipIf p s.advance _)
  case addReg | sub | shr | subn | shl => exact congrArg _ (State.atTick_withFlag p s.advance ..)
  case skp x =>
    show execSkp x _ = outcomeAtTick p (execSkp x s)
    unfold execSkp
    show (if 0xF < (s.reg x).toNat then _ else _) = _
    split
    · rfl
    · exact congrArg _ (State.atTick_skipIf p s.advance _)
  case sknp x =>
    show execSknp x _ = outcomeAtTick p (execSknp x s)
    unfold execSknp
    show (if 0xF < (s.reg x).toNat then _ else _) = _
    split
    · rfl
    · exact congrArg _ (State.atTick_skipIf p s.advance _)
  case drw x y n =>
    show execDrw x y n _ = outcomeAtTick p (execDrw x y n s)
    unfold execDrw
    rw [show (s.atTick p).indexAddr = s.indexAddr from rfl]
    cases firstOutOfRange s.indexAddr n.toNat
    · exact congrArg _ (State.atTick_drawSprite p s.advance ..)
    · rfl
  case drw16 x y =>
    show execDrw16 x y _ = outcomeAtTick p (execDrw16 x y s)
    unfold execDrw16
    rw [show (s.atTick p).indexAddr = s.indexAddr from rfl,
      show (s.atTick p).extendedMode = s.extendedMode from rfl]
    split
    · cases firstOutOfRange s.indexAddr 32
      · exact congrArg _ (State.atTick_drawSprite p s.advance ..)
      · rfl
    · rfl
  case ldVxK x =>
    show execLdVxK x _ = outcomeAtTick p (execLdVxK x s)
    unfold execLdVxK
    rw [show (s.atTick p).firstKey = s.firstKey from rfl]
    cases s.firstKey <;> rfl
  case ldB x =>
    show execLdB x _ = outcomeAtTick p (execLdB x s)
    unfold execLdB
    rw [show (s.atTick p).indexAddr = s.indexAddr from rfl]
    cases firstOutOfRange s.indexAddr 3
    · exact congrArg _ (State.atTick_writeBytes p s.advance ..)
    · rfl
  case ldMemVx x =>
    show execLdMemVx x _ = outcomeAtTick p (execLdMemVx x s)
    unfold execLdMemVx
    rw [show (s.atTick p).indexAddr = s.indexAddr from rfl]
    cases firstOutOfRange s.indexAddr (x.toNat + 1)
    · exact congrArg _ (State.atTick_writeBytes p s.advance ..)
    · rfl
  case ldVxMem x =>
    show execLdVxMem x _ = outcomeAtTick p (execLdVxMem x s)
    unfold execLdVxMem
    rw [show (s.atTick p).indexAddr = s.indexAddr from rfl]
    cases firstOutOfRange s.indexAddr (x.toNat + 1)
    · exact congrArg _ (State.atTick_loadRegsUpTo p s.advance ..)
    · rfl
  all_goals rfl

end Sys2Proof.Machine
end

