-- ==== Sys2Proof/Laws/PerInstr.lean ====
section
/-! SUPPORT. What holds of every instruction as syntax, one lemma per constructor: an instruction's word
has the fixed bits of its row of spec/opcode_table.json. -/

namespace Sys2Proof

/-- The mask and the match of an instruction's row of spec/opcode_table.json. -/
def tableRow : Instr → Word × Word
  | .cls => (0xFFFF, 0x00E0)
  | .ret => (0xFFFF, 0x00EE)
  | .scd _ => (0xFFF0, 0x00C0)
  | .scr => (0xFFFF, 0x00FB)
  | .scl => (0xFFFF, 0x00FC)
  | .exit => (0xFFFF, 0x00FD)
  | .low => (0xFFFF, 0x00FE)
  | .high => (0xFFFF, 0x00FF)
  | .jp _ => (0xF000, 0x1000)
  | .call _ => (0xF000, 0x2000)
  | .seImm _ _ => (0xF000, 0x3000)
  | .sneImm _ _ => (0xF000, 0x4000)
  | .seReg _ _ => (0xF00F, 0x5000)
  | .ldImm _ _ => (0xF000, 0x6000)
  | .addImm _ _ => (0xF000, 0x7000)
  | .ldReg _ _ => (0xF00F, 0x8000)
  | .orReg _ _ => (0xF00F, 0x8001)
  | .andReg _ _ => (0xF00F, 0x8002)
  | .xorReg _ _ => (0xF00F, 0x8003)
  | .addReg _ _ => (0xF00F, 0x8004)
  | .sub _ _ => (0xF00F, 0x8005)
  | .shr _ _ => (0xF00F, 0x8006)
  | .subn _ _ => (0xF00F, 0x8007)
  | .shl _ _ => (0xF00F, 0x800E)
  | .sneReg _ _ => (0xF00F, 0x9000)
  | .ldI _ => (0xF000, 0xA000)
  | .jpV0 _ => (0xF000, 0xB000)
  | .rnd _ _ => (0xF000, 0xC000)
  | .drw _ _ _ => (0xF000, 0xD000)
  | .drw16 _ _ => (0xF00F, 0xD000)
  | .skp _ => (0xF0FF, 0xE09E)
  | .sknp _ => (0xF0FF, 0xE0A1)
  | .ldVxDt _ => (0xF0FF, 0xF007)
  | .ldVxK _ => (0xF0FF, 0xF00A)
  | .ldDtVx _ => (0xF0FF, 0xF015)
  | .ldStVx _ => (0xF0FF, 0xF018)
  | .addI _ => (0xF0FF, 0xF01E)
  | .ldF _ => (0xF0FF, 0xF029)
  | .ldHf _ => (0xF0FF, 0xF030)
  | .ldB _ => (0xF0FF, 0xF033)
  | .ldMemVx _ => (0xF0FF, 0xF055)
  | .ldVxMem _ => (0xF0FF, 0xF065)

/-- `&` of two words put together from a first and a last part is `&` of the parts. -/
theorem and_append {a b : Nat} (x y : BitVec a) (u v : BitVec b) : (x ++ u) &&& (y ++ v) = (x &&& y) ++ (u &&& v) := by
  ext i hi
  simp only [BitVec.getElem_and, BitVec.getElem_append]
  split <;> simp

/-- A mask of a 4-bit and a 12-bit part. -/
theorem and_nnn (m op : Nibble) (k nnn : Addr12) :
    (op ++ nnn : Word) &&& (m ++ k) = (op &&& m) ++ (nnn &&& k) := and_append op m nnn k

/-- A mask of two 4-bit parts and an 8-bit part. -/
theorem and_xkk (op x m k : Nibble) (kk l : Byte) :
    (op ++ x ++ kk : Word) &&& (m ++ k ++ l) = (op &&& m) ++ (x &&& k) ++ (kk &&& l) :=
  (and_append (op ++ x) (m ++ k) kk l).trans (by rw [and_append])

/-- A mask of four 4-bit parts. -/
theorem and_xyn (op x y n m k l j : Nibble) :
    (op ++ x ++ y ++ n : Word) &&& (m ++ k ++ l ++ j) = (op &&& m) ++ (x &&& k) ++ (y &&& l) ++ (n &&& j) :=
  (and_append (op ++ x ++ y) (m ++ k ++ l) n j).trans (by rw [and_append, and_append])

end Sys2Proof

namespace Sys2Proof.Laws.EncodesInRow

/-- The fixed bits of the instruction's word are those of its row of the opcode table. -/
def Statement (i : Instr) : Prop := encode i &&& (tableRow i).1 = (tableRow i).2

theorem cls : Statement .cls := by unfold Statement; decide
theorem ret : Statement .ret := by unfold Statement; decide
theorem scd (n : Nibble) : Statement (.scd n) := by
  show (0x00C#12 ++ n : Word) &&& 0xFFF0#16 = 0x00C0#16
  rw [scd_word]
  exact (and_xyn 0 0 0xC n 0xF 0xF 0xF 0).trans (by simp)
theorem scr : Statement .scr := by unfold Statement; decide
theorem scl : Statement .scl := by unfold Statement; decide
theorem exit : Statement .exit := by unfold Statement; decide
theorem low : Statement .low := by unfold Statement; decide
theorem high : Statement .high := by unfold Statement; decide
theorem jp (nnn : Addr12) : Statement (.jp nnn) := (and_nnn 0xF 1 0 nnn).trans (by simp; rfl)
theorem call (nnn : Addr12) : Statement (.call nnn) := (and_nnn 0xF 2 0 nnn).trans (by simp; rfl)
theorem seImm (x : Nibble) (kk : Byte) : Statement (.seImm x kk) := (and_xkk 3 x 0xF 0 kk 0).trans (by simp; rfl)
theorem sneImm (x : Nibble) (kk : Byte) : Statement (.sneImm x kk) := (and_xkk 4 x 0xF 0 kk 0).trans (by simp; rfl)
theorem seReg (x y : Nibble) : Statement (.seReg x y) := (and_xyn 5 x y 0 0xF 0 0 0xF).trans (by simp; rfl)
theorem ldImm (x : Nibble) (kk : Byte) : Statement (.ldImm x kk) := (and_xkk 6 x 0xF 0 kk 0).trans (by simp; rfl)
theorem addImm (x : Nibble) (kk : Byte) : Statement (.addImm x kk) := (and_xkk 7 x 0xF 0 kk 0).trans (by simp; rfl)
theorem ldReg (x y : Nibble) : Statement (.ldReg x y) := (and_xyn 8 x y 0 0xF 0 0 0xF).trans (by simp; rfl)
theorem orReg (x y : Nibble) : Statement (.orReg x y) := (and_xyn 8 x y 1 0xF 0 0 0xF).trans (by simp; rfl)
theorem andReg (x y : Nibble) : Statement (.andReg x y) := (and_xyn 8 x y 2 0xF 0 0 0xF).trans (by simp; rfl)
theorem xorReg (x y : Nibble) : Statement (.xorReg x y) := (and_xyn 8 x y 3 0xF 0 0 0xF).trans (by simp; rfl)
theorem addReg (x y : Nibble) : Statement (.addReg x y) := (and_xyn 8 x y 4 0xF 0 0 0xF).trans (by simp; rfl)
theorem sub (x y : Nibble) : Statement (.sub x y) := (and_xyn 8 x y 5 0xF 0 0 0xF).trans (by simp; rfl)
theorem shr (x y : Nibble) : Statement (.shr x y) := (and_xyn 8 x y 6 0xF 0 0 0xF).trans (by simp; rfl)
theorem subn (x y : Nibble) : Statement (.subn x y) := (and_xyn 8 x y 7 0xF 0 0 0xF).trans (by simp; rfl)
theorem shl (x y : Nibble) : Statement (.shl x y) := (and_xyn 8 x y 0xE 0xF 0 0 0xF).trans (by simp; rfl)
theorem sneReg (x y : Nibble) : Statement (.sneReg x y) := (and_xyn 9 x y 0 0xF 0 0 0xF).trans (by simp; rfl)
theorem ldI (nnn : Addr12) : Statement (.ldI nnn) := (and_nnn 0xF 0xA 0 nnn).trans (by simp; rfl)
theorem jpV0 (nnn : Addr12) : Statement (.jpV0 nnn) := (and_nnn 0xF 0xB 0 nnn).trans (by simp; rfl)
theorem rnd (x : Nibble) (kk : Byte) : Statement (.rnd x kk) := (and_xkk 0xC x 0xF 0 kk 0).trans (by simp; rfl)
theorem drw (x y n : Nibble) : Statement (.drw x y n) := (and_xyn 0xD x y n 0xF 0 0 0).trans (by simp; rfl)
theorem drw16 (x y : Nibble) : Statement (.drw16 x y) := (and_xyn 0xD x y 0 0xF 0 0 0xF).trans (by simp; rfl)
theorem skp (x : Nibble) : Statement (.skp x) := (and_xkk 0xE x 0xF 0 0x9E 0xFF).trans (by simp; rfl)
theorem sknp (x : Nibble) : Statement (.sknp x) := (and_xkk 0xE x 0xF 0 0xA1 0xFF).trans (by simp; rfl)
theorem ldVxDt (x : Nibble) : Statement (.ldVxDt x) := (and_xkk 0xF x 0xF 0 0x07 0xFF).trans (by simp; rfl)
theorem ldVxK (x : Nibble) : Statement (.ldVxK x) := (and_xkk 0xF x 0xF 0 0x0A 0xFF).trans (by simp; rfl)
theorem ldDtVx (x : Nibble) : Statement (.ldDtVx x) := (and_xkk 0xF x 0xF 0 0x15 0xFF).trans (by simp; rfl)
theorem ldStVx (x : Nibble) : Statement (.ldStVx x) := (and_xkk 0xF x 0xF 0 0x18 0xFF).trans (by simp; rfl)
theorem addI (x : Nibble) : Statement (.addI x) := (and_xkk 0xF x 0xF 0 0x1E 0xFF).trans (by simp; rfl)
theorem ldF (x : Nibble) : Statement (.ldF x) := (and_xkk 0xF x 0xF 0 0x29 0xFF).trans (by simp; rfl)
theorem ldHf (x : Nibble) : Statement (.ldHf x) := (and_xkk 0xF x 0xF 0 0x30 0xFF).trans (by simp; rfl)
theorem ldB (x : Nibble) : Statement (.ldB x) := (and_xkk 0xF x 0xF 0 0x33 0xFF).trans (by simp; rfl)
theorem ldMemVx (x : Nibble) : Statement (.ldMemVx x) := (and_xkk 0xF x 0xF 0 0x55 0xFF).trans (by simp; rfl)
theorem ldVxMem (x : Nibble) : Statement (.ldVxMem x) := (and_xkk 0xF x 0xF 0 0x65 0xFF).trans (by simp; rfl)

end Sys2Proof.Laws.EncodesInRow
end

