-- ==== Sys2Proof/Tests/Slice0.lean ====
section
/-! SUPPORT. The model's own tests. The words are written out from the patterns of R96; the expected results
are the vectors of spec/95_test_vectors.md, named in the docstrings, and each test is one step. Then, for
each statement with hypotheses, a witness that meets them. -/

namespace Sys2Proof.Tests

open Sys2Proof Sys2Proof.Machine

/-! ### WellFormed -/

/-- The one check of R97: a draw of `n = 0` rows is not `Dxyn`; its word is that of `Dxy0`. -/
theorem test_wellFormed_refuses_draw_of_no_rows : (Instr.drw 0x1 0x2 0x0).wellFormed = false := by decide

theorem test_wellFormed_accepts_draw_of_fifteen_rows : (Instr.drw 0x1 0x2 0xF).wellFormed = true := by decide

/-! ### Decoding, one word for each constructor -/

theorem test_decode_op0_bits :
    decode 0b0000000011000101#16 = .ok (.scd 0x5) ∧ decode 0b0000000011100000#16 = .ok .cls := by decide

theorem test_decode_op0 :
    decode 0x00EE#16 = .ok .ret ∧ decode 0x00FB#16 = .ok .scr ∧ decode 0x00FC#16 = .ok .scl ∧
    decode 0x00FD#16 = .ok .exit ∧ decode 0x00FE#16 = .ok .low ∧ decode 0x00FF#16 = .ok .high := by decide

theorem test_decode_control_bits :
    decode 0b0001001000000100#16 = .ok (.jp 0x204) ∧ decode 0b0011011110100101#16 = .ok (.seImm 0x7 0xA5) := by
  decide

theorem test_decode_control :
    decode 0x2ABC#16 = .ok (.call 0xABC) ∧ decode 0x4F01#16 = .ok (.sneImm 0xF 0x01) ∧
    decode 0x5AB0#16 = .ok (.seReg 0xA 0xB) ∧ decode 0x9AB0#16 = .ok (.sneReg 0xA 0xB) ∧
    decode 0xB300#16 = .ok (.jpV0 0x300) := by decide

theorem test_decode_alu_bits :
    decode 0b0110001111110101#16 = .ok (.ldImm 0x3 0xF5) ∧ decode 0b1000000100101110#16 = .ok (.shl 0x1 0x2) := by
  decide

theorem test_decode_alu :
    decode 0x7C01#16 = .ok (.addImm 0xC 0x01) ∧ decode 0x8120#16 = .ok (.ldReg 0x1 0x2) ∧
    decode 0x8121#16 = .ok (.orReg 0x1 0x2) ∧ decode 0x8122#16 = .ok (.andReg 0x1 0x2) ∧
    decode 0x8123#16 = .ok (.xorReg 0x1 0x2) ∧ decode 0x8124#16 = .ok (.addReg 0x1 0x2) ∧
    decode 0x8125#16 = .ok (.sub 0x1 0x2) ∧ decode 0x8126#16 = .ok (.shr 0x1 0x2) ∧
    decode 0x8127#16 = .ok (.subn 0x1 0x2) ∧ decode 0xC30F#16 = .ok (.rnd 0x3 0x0F) := by decide

theorem test_decode_draw_bits :
    decode 0b1101000100101111#16 = .ok (.drw 0x1 0x2 0xF) ∧ decode 0b1101000100100000#16 = .ok (.drw16 0x1 0x2) := by
  decide

theorem test_decode_key_timer_bits :
    decode 0b1110001010011110#16 = .ok (.skp 0x2) ∧ decode 0b1111101000010101#16 = .ok (.ldDtVx 0xA) := by decide

theorem test_decode_key_timer :
    decode 0xE2A1#16 = .ok (.sknp 0x2) ∧ decode 0xF107#16 = .ok (.ldVxDt 0x1) ∧
    decode 0xF30A#16 = .ok (.ldVxK 0x3) ∧ decode 0xF118#16 = .ok (.ldStVx 0x1) := by decide

theorem test_decode_index_memory_bits :
    decode 0b1010001000101000#16 = .ok (.ldI 0x228) ∧ decode 0b1111001000110011#16 = .ok (.ldB 0x2) := by decide

theorem test_decode_index_memory :
    decode 0xF01E#16 = .ok (.addI 0x0) ∧ decode 0xF029#16 = .ok (.ldF 0x0) ∧ decode 0xF030#16 = .ok (.ldHf 0x0) ∧
    decode 0xF355#16 = .ok (.ldMemVx 0x3) ∧ decode 0xF265#16 = .ok (.ldVxMem 0x2) := by decide

/-- V2, and the ends of the ranges of R98. -/
theorem test_decode_invalid :
    decode 0x0000#16 = .error (.invalidOp0 0x0000#16) ∧ decode 0x00BF#16 = .error (.invalidOp0 0x00BF#16) ∧
    decode 0x00D0#16 = .error (.invalidOp0 0x00D0#16) ∧ decode 0x01C0#16 = .error (.invalidOp0 0x01C0#16) ∧
    decode 0x0E00#16 = .error (.invalidOp0 0x0E00#16) ∧ decode 0x5121#16 = .error (.invalidOp5 0x5121#16) ∧
    decode 0x8008#16 = .error (.invalidOp8 0x8008#16) ∧ decode 0x800D#16 = .error (.invalidOp8 0x800D#16) ∧
    decode 0x800F#16 = .error (.invalidOp8 0x800F#16) ∧ decode 0x9AB1#16 = .error (.invalidOp9 0x9AB1#16) ∧
    decode 0xE09F#16 = .error (.invalidOpE 0xE09F#16) ∧ decode 0xF075#16 = .error (.invalidOpF 0xF075#16) ∧
    decode 0xFFFF#16 = .error (.invalidOpF 0xFFFF#16) ∧ decodeBytes [0x60#8] = .error .truncated := by decide

/-! ### One step -/

/-- The start state of the vectors, within a tick, so that no timer phase comes before the step. -/
def start : State := { State.reset with tickPos := 1 }

/-- The start state with registers set. -/
def withRegs (l : List (Nibble × Byte)) : State := l.foldl (fun s p => s.setReg p.1 p.2) start

/-- The state after one step that runs the word `w` at `PC`. -/
def after (s : State) (w : Nat) : State :=
  match step (s.withFetchWord 16 w) with
  | .next t => t
  | _ => s

/-- Whether an outcome is a next state of which `p` holds. -/
def nextHolds (o : Host.Outcome State Fault Refusal) (p : State → Bool) : Bool :=
  match o with
  | .next t => p t
  | _ => false

/-- A state with `I` at `a` and bytes there. -/
def withBytes (s : State) (a : Nat) (bs : List Byte) : State :=
  { s with index := BitVec.ofNat 16 a }.writeBytes a bs

/-- A state in extended mode. -/
def extended (s : State) : State := { s with extendedMode := true }

/-- A state with one parameter changed. -/
def flagLast (s : State) : State := { s with cfg := { s.cfg with flagWriteOrder := .resultThenFlag } }

/-- A state under `SHL_FLAG_MODE = ReferenceZero`. -/
def shlZero (s : State) : State := { s with cfg := { s.cfg with shlFlagMode := .referenceZero } }

/-- A state under `FONT_INDEX_MODE = LowNibble`. -/
def lowDigit (s : State) : State := { s with cfg := { s.cfg with fontIndexMode := .lowNibble } }

/-- A state under `SCROLL_IN_STANDARD = Fault`. -/
def scrollFaults (s : State) : State := { s with cfg := { s.cfg with scrollInStandard := .fault } }

/-- A state with the cells of a list on in both grids. -/
def withPixels (s : State) (l : List (Nat × Nat)) : State :=
  l.foldl (fun t p => { t with stdGrid := t.stdGrid.put p.1 p.2 0xFF#8, extGrid := t.extGrid.put p.1 p.2 0xFF#8 }) s

/-- A state with keys pressed. -/
def withKeys (s : State) (l : List (Fin 16)) : State :=
  s.setKeys (l.foldl (fun k i => k.set i.val true i.isLt) (Vector.replicate 16 false))

/-! #### The step itself (V1) -/

/-- V1.4: an odd fetch is legal. -/
theorem test_step_at_odd_pc :
    (after { start with pc := 0x201#16 } 0x6012).reg 0x0 = 0x12#8 ∧
    (after { start with pc := 0x201#16 } 0x6012).pc = 0x203#16 := by decide

/-- V1.3: the second byte of the fetch is out of range. -/
theorem test_step_fetch_at_the_last_byte :
    nextHolds (step { start with pc := 0xFFF#16 }) (fun t => decide (t.pc = 0xFFF#16 ∧
      t.status = .faulted ⟨.outOfRange, some 0xFFF#16, none, some 0x1000⟩)) = true := by decide

/-- V1.5: the advance is discarded. -/
theorem test_step_invalid_word :
    (after start 0x5121).status = .faulted ⟨.invalidOpcode, some 0x200#16, some 0x5121#16, none⟩ ∧
    (after start 0x5121).pc = 0x200#16 := by decide

/-- V1.6. -/
theorem test_step_after_exit : (after { start with status := .exited } 0x6012).pc = 0x200#16 := by decide

/-- V8.5: from reset the timer phase runs, then `0000` at 0x200 faults. -/
theorem test_step_from_reset_with_no_program :
    nextHolds (step { State.reset with st := 0x01#8 })
      (fun t => decide (t.st = 0x00#8 ∧ t.tickPos = 0 ∧ t.soundOn = false ∧
          t.status = .faulted ⟨.invalidOpcode, some 0x200#16, some 0x0000#16, none⟩)) = true := by decide

/-- E10: with `IPT = 0` a tick only counts down. -/
theorem test_tick_without_instructions :
    nextHolds (step { State.reset with dt := 0x02#8, cfg := { defaultConfig with ipt := 0 } })
      (fun t => decide (t.dt = 0x01#8 ∧ t.pc = 0x200#16 ∧ t.status = .running)) = true := by decide

/-- E1, E2: the bounds of the accessors. -/
theorem test_accessor_bounds :
    start.get8 0xFFF = .ok 0x00#8 ∧ start.get8 0x1000 = .error 0x1000 ∧ start.get16 0xFFF = .error 0x1000 := by
  decide

/-- E2: the high byte stands at the lower address. -/
theorem test_word_is_big_endian :
    (match start.set16 0x301 0xBEEF#16 with
      | .ok t => decide (t.readByte 0x301 = 0xBE#8 ∧ t.readByte 0x302 = 0xEF#8)
      | .error _ => false) = true := by decide

/-- V9.2: the image is one byte too long. -/
theorem test_boot_of_an_oversized_image :
    (boot defaultConfig .zero (List.replicate 3585 0x01#8)).status =
      .faulted ⟨.programTooLarge, none, none, some 3585⟩ := by decide +kernel

/-! #### Control transfer (V3) -/

/-- V3.1. -/
theorem test_call :
    let t := after { start with pc := 0x204#16 } 0x2210
    t.sp = 0x02#8 ∧ t.readByte 0x002 = 0x02#8 ∧ t.readByte 0x003 = 0x06#8 ∧ t.pc = 0x210#16 := by decide

/-- V3.2. -/
theorem test_call_wraps_sp :
    let t := after { start with sp := 0xFE#8 } 0x2300
    t.sp = 0x00#8 ∧ t.readByte 0x000 = 0x02#8 ∧ t.readByte 0x001 = 0x02#8 ∧ t.pc = 0x300#16 := by decide

/-- V3.3. -/
theorem test_ret :
    let t := after (withBytes { start with sp := 0x02#8 } 0x002 [0x02#8, 0x06#8]) 0x00EE
    t.pc = 0x206#16 ∧ t.sp = 0x00#8 := by decide

/-- V3.4. -/
theorem test_ret_unmatched : (after start 0x00EE).pc = 0x000#16 ∧ (after start 0x00EE).sp = 0xFE#8 := by
  decide

/-- V3.6. -/
theorem test_jp : (after { start with pc := 0x20A#16 } 0x1204).pc = 0x204#16 := by decide

/-- V3.8. -/
theorem test_jpV0 : (after (withRegs [(0x0, 0xFF)]) 0xBFFF).pc = 0x10FE#16 := by decide

/-- V3.10, V3.11. -/
theorem test_seImm :
    (after (withRegs [(0x0, 0x05)]) 0x3005).pc = 0x204#16 ∧ (after (withRegs [(0x0, 0x05)]) 0x3006).pc = 0x202#16 := by
  decide

/-- V3.12, V3.13. -/
theorem test_sneImm :
    (after { start with pc := 0x300#16 } 0x4001).pc = 0x304#16 ∧
    (after (withRegs [(0x0, 0x01)]) 0x4001).pc = 0x202#16 := by decide

/-- V3.14. -/
theorem test_seReg :
    (after (withRegs [(0x0, 0x07), (0x1, 0x07)]) 0x5010).pc = 0x204#16 ∧
    (after (withRegs [(0x0, 0x07), (0x1, 0x08)]) 0x5010).pc = 0x202#16 := by decide

/-- V3.15, V3.16. -/
theorem test_sneReg :
    (after (withRegs [(0x0, 0x07), (0x1, 0x07)]) 0x9010).pc = 0x202#16 ∧
    (after (withRegs [(0x0, 0x07), (0x1, 0x08)]) 0x9010).pc = 0x204#16 := by decide

/-- V3.17. -/
theorem test_exit : (after start 0x00FD).status = .exited ∧ (after start 0x00FD).pc = 0x202#16 := by decide

/-! #### Arithmetic and logic (V4) -/

/-- V4.1. -/
theorem test_ldImm : (after start 0x6A42).reg 0xA = 0x42#8 := by decide

/-- V4.2. -/
theorem test_addImm :
    let t := after (withRegs [(0x0, 0xFF), (vf, 0x77)]) 0x7001
    t.reg 0x0 = 0x00#8 ∧ t.reg vf = 0x77#8 := by decide

/-- V4.3. -/
theorem test_ldReg :
    let t := after (withRegs [(0x0, 0x12), (0x1, 0x34), (vf, 0x77)]) 0x8010
    t.reg 0x0 = 0x34#8 ∧ t.reg vf = 0x77#8 := by decide

/-- V4.4. -/
theorem test_orReg :
    let t := after (withRegs [(0x0, 0xF0), (0x1, 0x0F), (vf, 0x77)]) 0x8011
    t.reg 0x0 = 0xFF#8 ∧ t.reg vf = 0x77#8 := by decide

/-- V4.5. -/
theorem test_andReg :
    let t := after (withRegs [(0x0, 0xF0), (0x1, 0x3C), (vf, 0x77)]) 0x8012
    t.reg 0x0 = 0x30#8 ∧ t.reg vf = 0x77#8 := by decide

/-- V4.6. -/
theorem test_xorReg :
    let t := after (withRegs [(0x0, 0xFF), (0x1, 0x0F), (vf, 0x77)]) 0x8013
    t.reg 0x0 = 0xF0#8 ∧ t.reg vf = 0x77#8 := by decide

/-- E4a, V4.8: a sum of 256 carries, one of 255 does not. -/
theorem test_addReg :
    let t := after (withRegs [(0x0, 0xFF), (0x1, 0x01)]) 0x8014
    let u := after (withRegs [(0x0, 0x7F), (0x1, 0x80)]) 0x8014
    t.reg 0x0 = 0x00#8 ∧ t.reg vf = 0x01#8 ∧ u.reg 0x0 = 0xFF#8 ∧ u.reg vf = 0x00#8 := by decide

/-- V4.25, under either order. -/
theorem test_addReg_of_vf :
    let s := withRegs [(0x0, 0xF0), (vf, 0x20)]
    (after s 0x80F4).reg 0x0 = 0xF1#8 ∧ (after (flagLast s) 0x80F4).reg 0x0 = 0x10#8 := by decide

/-- V4.11, V4.12. -/
theorem test_sub :
    let t := after (withRegs [(0x0, 0x03), (0x1, 0x05)]) 0x8015
    let u := after (withRegs [(0x0, 0x04), (0x1, 0x04)]) 0x8015
    t.reg 0x0 = 0xFE#8 ∧ t.reg vf = 0x00#8 ∧ u.reg 0x0 = 0x00#8 ∧ u.reg vf = 0x01#8 := by decide

/-- V4.28, under either order. -/
theorem test_sub_of_vf :
    let s := withRegs [(0x0, 0x10), (vf, 0x20)]
    (after s 0x80F5).reg 0x0 = 0x10#8 ∧ (after (flagLast s) 0x80F5).reg 0x0 = 0xF0#8 := by decide

/-- V4.13, V4.14. -/
theorem test_shr :
    let t := after (withRegs [(0x0, 0x80), (0x1, 0x55)]) 0x8016
    let u := after (withRegs [(0x0, 0xFF)]) 0x8016
    t.reg 0x0 = 0x40#8 ∧ t.reg vf = 0x00#8 ∧ t.reg 0x1 = 0x55#8 ∧ u.reg 0x0 = 0x7F#8 ∧ u.reg vf = 0x01#8 := by
  decide

/-- V4.29, under either order. -/
theorem test_shr_of_vf :
    let s := withRegs [(vf, 0x03)]
    (after s 0x8F06).reg vf = 0x00#8 ∧ (after (flagLast s) 0x8F06).reg vf = 0x01#8 := by decide

/-- V4.16, V4.17. -/
theorem test_subn :
    let t := after (withRegs [(0x0, 0x03), (0x1, 0x05)]) 0x8017
    let u := after (withRegs [(0x0, 0x05), (0x1, 0x03)]) 0x8017
    t.reg 0x0 = 0x02#8 ∧ t.reg vf = 0x01#8 ∧ u.reg 0x0 = 0xFE#8 ∧ u.reg vf = 0x00#8 := by decide

/-- V4.31, under either order. -/
theorem test_subn_of_vf :
    let s := withRegs [(0x0, 0x01), (vf, 0x03)]
    (after s 0x80F7).reg 0x0 = 0x00#8 ∧ (after (flagLast s) 0x80F7).reg 0x0 = 0x02#8 := by decide

/-- V4.18, V4.19. -/
theorem test_shl :
    let t := after (withRegs [(0x0, 0x81)]) 0x800E
    let u := after (withRegs [(0x0, 0x40)]) 0x800E
    t.reg 0x0 = 0x02#8 ∧ t.reg vf = 0x01#8 ∧ u.reg 0x0 = 0x80#8 ∧ u.reg vf = 0x00#8 ∧
    (after (shlZero (withRegs [(0x0, 0x81)])) 0x800E).reg vf = 0x00#8 := by decide

/-- V4.32, under either order and either flag. -/
theorem test_shl_of_vf :
    let s := withRegs [(vf, 0x81)]
    (after s 0x8F0E).reg vf = 0x02#8 ∧ (after (shlZero s) 0x8F0E).reg vf = 0x00#8 ∧
    (after (flagLast s) 0x8F0E).reg vf = 0x01#8 := by decide

/-- V4.23, with the random byte of the vector in place of the free value. -/
theorem test_rnd :
    (start.rndWith 0x3 0x0F#8 0xA5#8).reg 0x3 = 0x05#8 ∧ (start.rndWith 0x3 0x0F#8 0xA5#8).pc = 0x202#16 := by
  decide

/-! #### Display (V5) -/

/-- V5.20, V5.21: the inactive grid keeps its cells. -/
theorem test_cls :
    let t := after (extended (withPixels start [(1, 1)])) 0x00E0
    t.extGrid.at 1 1 = 0x00#8 ∧ t.stdGrid.at 1 1 = 0xFF#8 := by decide

/-- V5.13. -/
theorem test_scd :
    let t := after (extended (withPixels start [(3, 60), (3, 58)])) 0x00C5
    t.pixel 3 63 = 0xFF#8 ∧ t.pixel 3 60 = 0x00#8 ∧ t.pixel 3 58 = 0x00#8 := by decide

/-- D36. -/
theorem test_scd_zero : (after (withPixels start [(3, 30)]) 0x00C0).pixel 3 30 = 0xFF#8 := by decide

/-- V5.15. -/
theorem test_scr :
    let t := after (withPixels start [(59, 0), (60, 0)]) 0x00FB
    t.pixel 63 0 = 0xFF#8 ∧ t.pixel 60 0 = 0x00#8 ∧ t.pixel 0 0 = 0x00#8 ∧ t.pixel 59 0 = 0x00#8 := by
  decide

/-- V5.19. -/
theorem test_scr_in_extended_mode : (after (scrollFaults (extended (withPixels start [(3, 0)]))) 0x00FB).pixel 7 0 = 0xFF#8 := by
  decide

/-- V5.17. -/
theorem test_scl :
    let t := after (withPixels start [(3, 0), (4, 0)]) 0x00FC
    t.pixel 0 0 = 0xFF#8 ∧ t.pixel 3 0 = 0x00#8 ∧ t.pixel 63 0 = 0x00#8 := by decide

/-- V5.18. -/
theorem test_scl_faults_in_standard_mode :
    let t := after (scrollFaults (withPixels start [(3, 0)])) 0x00FC
    t.status = .faulted ⟨.invalidOpcode, some 0x200#16, some 0x00FC#16, none⟩ ∧ t.pixel 3 0 = 0xFF#8 := by
  decide

/-- V5.22. -/
theorem test_low :
    let t := after (extended (withPixels start [(1, 1)])) 0x00FE
    t.extendedMode = false ∧ t.pixel 1 1 = 0xFF#8 := by decide

/-- V5.20. -/
theorem test_high : (after start 0x00FF).extendedMode = true := by decide

/-- E6: wraps at both edges. -/
theorem test_drw_wraps :
    let t := after (withBytes (withRegs [(0x0, 0x3F), (0x1, 0x1F)]) 0x300 [0xC0#8, 0xC0#8]) 0xD012
    t.pixel 63 31 = 0xFF#8 ∧ t.pixel 0 31 = 0xFF#8 ∧ t.pixel 63 0 = 0xFF#8 ∧ t.pixel 0 0 = 0xFF#8 ∧
    t.pixel 1 0 = 0x00#8 ∧ t.reg vf = 0x00#8 := by decide

/-- V5.7, under either order, and a collision. -/
theorem test_drw_of_vf :
    let s := withPixels (withBytes (withRegs [(vf, 0x05)]) 0x300 [0x80#8]) [(5, 0)]
    (after s 0xDF11).pixel 0 0 = 0xFF#8 ∧ (after s 0xDF11).reg vf = 0x00#8 ∧
    (after (flagLast s) 0xDF11).pixel 5 0 = 0x00#8 ∧ (after (flagLast s) 0xDF11).reg vf = 0x01#8 := by
  decide

/-- V5.11: the two bytes of a row. -/
theorem test_drw16 :
    let t := after (extended (withBytes start 0x300 [0x80#8, 0x01#8])) 0xD010
    t.pixel 0 0 = 0xFF#8 ∧ t.pixel 15 0 = 0xFF#8 ∧ t.pixel 1 0 = 0x00#8 ∧ t.stdGrid.at 0 0 = 0x00#8 := by
  decide +kernel

/-- V5.8: in standard mode no byte is read. -/
theorem test_drw16_in_standard_mode :
    let t := after { withRegs [(vf, 0x09)] with index := 0xFFF#16 } 0xD010
    t.reg vf = 0x00#8 ∧ t.status = .running ∧ t.pc = 0x202#16 := by decide

/-! #### Keypad and timers (V6) -/

/-- V6.1, V6.5. -/
theorem test_skp :
    (after (withKeys (withRegs [(0x2, 0x05)]) [5]) 0xE29E).pc = 0x204#16 ∧
    (after (withRegs [(0x2, 0x05)]) 0xE29E).pc = 0x202#16 ∧
    (after (withRegs [(0x2, 0x10)]) 0xE29E).status =
      .faulted ⟨.outOfRange, some 0x200#16, some 0xE29E#16, some 0x10⟩ := by decide

/-- V6.3, V6.4. -/
theorem test_sknp :
    (after (withKeys (withRegs [(0x2, 0x05)]) [5]) 0xE2A1).pc = 0x202#16 ∧
    (after (withRegs [(0x2, 0x05)]) 0xE2A1).pc = 0x204#16 := by decide

/-- V6.9. -/
theorem test_ldVxDt : (after { start with dt := 0x03#8 } 0xF007).reg 0x0 = 0x03#8 := by decide

/-- V6.6. -/
theorem test_ldVxK :
    let t := after (withKeys start [3, 9]) 0xF40A
    t.reg 0x4 = 0x03#8 ∧ t.pc = 0x202#16 := by decide

/-- V6.8. -/
theorem test_ldVxK_waits : (after start 0xF30A).pc = 0x200#16 ∧ (after start 0xF30A).tickPos = 2 := by decide

/-- V6.10. -/
theorem test_ldDtVx : (after (withRegs [(0xA, 0x03)]) 0xFA15).dt = 0x03#8 := by decide

/-- V6.11. -/
theorem test_ldStVx :
    (after (withRegs [(0x1, 0x3C)]) 0xF118).st = 0x3C#8 ∧ (after (withRegs [(0x1, 0x3C)]) 0xF118).soundOn = true := by
  decide

/-! #### The index register and the store (V7) -/

/-- V7.1. -/
theorem test_ldI : (after start 0xA228).index = 0x228#16 := by decide

/-- V7.2, V7.3. -/
theorem test_addI :
    (after { start with index := 0xFFF#16 } 0xF01E).reg vf = 0x00#8 ∧
    (after { withRegs [(0x0, 0x01)] with index := 0xFFF#16 } 0xF01E).index = 0x1000#16 ∧
    (after { withRegs [(0x0, 0x01)] with index := 0xFFF#16 } 0xF01E).reg vf = 0x01#8 := by decide

/-- V7.6, V7.7. -/
theorem test_addI_wraps :
    (after { withRegs [(0x0, 0x03)] with index := 0xFFFE#16 } 0xF01E).index = 0x0001#16 ∧
    (after { withRegs [(0x0, 0x03)] with index := 0xFFFE#16 } 0xF01E).reg vf = 0x01#8 ∧
    (after { withRegs [(vf, 0x10)] with index := 0x100#16 } 0xFF1E).reg vf = 0x00#8 := by decide

/-- V7.8, V7.10. -/
theorem test_ldF :
    (after (withRegs [(0x0, 0x0A)]) 0xF029).index = 0x132#16 ∧
    (after (withRegs [(0x0, 0x1A)]) 0xF029).index = 0x182#16 ∧
    (after (lowDigit (withRegs [(0x0, 0x1A)])) 0xF029).index = 0x132#16 := by decide

/-- V7.12, V7.13. -/
theorem test_ldHf :
    (after (withRegs [(0x0, 0x09)]) 0xF030).index = 0x1AA#16 ∧
    (after (withRegs [(0x0, 0xFF)]) 0xF030).index = 0xB46#16 := by decide

/-- V7.17. -/
theorem test_ldB :
    let t := after { withRegs [(0x0, 0x7B)] with index := 0xFFD#16 } 0xF033
    t.readByte 0xFFD = 0x01#8 ∧ t.readByte 0xFFE = 0x02#8 ∧ t.readByte 0xFFF = 0x03#8 := by decide

/-- V7.18. -/
theorem test_ldB_out_of_range :
    let t := after { withRegs [(0x0, 0x7B)] with index := 0xFFE#16 } 0xF033
    t.status = .faulted ⟨.outOfRange, some 0x200#16, some 0xF033#16, some 0x1000⟩ ∧ t.readByte 0xFFE = 0x00#8 := by
  decide

/-- V7.19. -/
theorem test_ldMemVx :
    let t := after { withRegs [(0x1, 0x01), (0x2, 0x02), (0x3, 0x03), (0x4, 0x04)] with index := 0x400#16 } 0xF355
    t.readByte 0x400 = 0x00#8 ∧ t.readByte 0x403 = 0x03#8 ∧ t.readByte 0x404 = 0x00#8 ∧ t.index = 0x400#16 := by
  decide

/-- V7.21. -/
theorem test_ldMemVx_out_of_range :
    let t := after { withRegs [(0x0, 0x55)] with index := 0xFF1#16 } 0xFF55
    t.status = .faulted ⟨.outOfRange, some 0x200#16, some 0xFF55#16, some 0x1000⟩ ∧ t.readByte 0xFF1 = 0x00#8 := by
  decide

/-- V7.22. -/
theorem test_ldVxMem :
    let t := after (withBytes (withRegs [(0x3, 0x33)]) 0x400 [0x09#8, 0x08#8, 0x07#8, 0x06#8]) 0xF265
    t.reg 0x0 = 0x09#8 ∧ t.reg 0x2 = 0x07#8 ∧ t.reg 0x3 = 0x33#8 ∧ t.index = 0x400#16 := by decide

/-! ### Witnesses: states and operands that meet the hypotheses of the statements -/

theorem witness_DecodeOfEncodeIsTheInstruction : (Instr.drw 0xF 0x0 0x1).wellFormed = true := by decide

theorem witness_EveryDecodedWordIsOneRow : decode 0xD12F#16 = .ok (.drw 0x1 0x2 0xF) := by decide

/-- One word of each of the five parts of the invalid space. -/
theorem witness_InvalidWordsAreExactlyTheInvalidSpace :
    fieldOp 0x00BF#16 = 0x0#4 ∧ fieldN 0x500F#16 ≠ 0x0#4 ∧ fieldN 0x9001#16 ≠ 0x0#4 ∧ fieldN 0x8008#16 = 0x8#4 ∧
    fieldKK 0xE09F#16 = 0x9F#8 ∧ fieldKK 0xF000#16 = 0x00#8 := by decide

/-- The two lengths where the clauses meet, and both `RESET_REGS`. -/
theorem witness_BootLoadsTheImageOrFaults :
    (List.replicate 3584 0x01#8).length ≤ 3584 ∧ 3584 < (List.replicate 3585 0x01#8).length ∧
    (boot defaultConfig .zero [0x60#8]).readByte 0x200 = 0x60#8 ∧
    (boot defaultConfig (.arbitrary (Vector.replicate 16 0x07#8) 0x300#16 0x01#8 0x02#8) []).reg 0xF = 0x07#8 :=
  ⟨List.length_replicate.le, by rw [List.length_replicate]; omega, by decide, by decide⟩

/-- The addresses where the clauses meet. -/
theorem witness_StoreAccessorsRoundTrip :
    (start.set8 0xFFF 0x01#8).isOk = true ∧ start.set8 0x1000 0x01#8 = .error 0x1000 ∧
    (start.set16 0xFFE 0xBEEF#16).isOk = true ∧ start.set16 0xFFF 0xBEEF#16 = .error 0x1000 := by decide

/-- An offset and a length where the clauses meet. -/
theorem witness_BulkLoadCopiesAllOrNothing :
    (start.load 0xFFE [0x01#8, 0x02#8]).isOk = true ∧ start.load 0xFFF [0x01#8, 0x02#8] = .error 0x1000 := by
  decide

/-- A state that meets the hypotheses of the step statements, with a word at `PC`. -/
def fetching (w : Nat) : State := State.reset.withFetchWord 16 w

theorem witness_StepRunsTheDecodedInstruction :
    (fetching 0x6012).status = .running ∧ (fetching 0x6012).tickPos < (fetching 0x6012).cfg.ipt ∧
    (fetching 0x6012).fetch = .ok 0x6012#16 ∧ decode 0x6012#16 = .ok (.ldImm 0x0 0x12) := by decide

/-- Both clauses of the record, at a tick's first step and within a tick. -/
theorem witness_FetchOutOfRangeFaults :
    let s := { State.reset with pc := 0xFFF#16 }
    let t := { start with pc := 0x1000#16 }
    s.status = .running ∧ s.tickPos < s.cfg.ipt ∧ 0xFFE < s.pc.toNat ∧ s.tickPos = 0 ∧
    t.status = .running ∧ t.tickPos < t.cfg.ipt ∧ 0xFFE < t.pc.toNat ∧ t.tickPos ≠ 0 := by decide

/-- At a tick's first step with timers above 0, and within a tick. -/
theorem witness_InvalidWordFaults :
    { fetching 0x5121 with dt := 0x02#8, tickPos := 0 }.status = .running ∧
    { fetching 0x5121 with dt := 0x02#8, tickPos := 0 }.fetch = .ok 0x5121#16 ∧
    nextHolds (step { fetching 0x5121 with dt := 0x02#8, tickPos := 0 }) (fun t => decide (t.dt = 0x01#8 ∧ t.tickPos = 0)) = true ∧
    { fetching 0x5121 with tickPos := 3 }.fetch = .ok 0x5121#16 ∧ 3 < (fetching 0x5121).cfg.ipt ∧
    nextHolds (step { fetching 0x5121 with dt := 0x02#8, tickPos := 3 }) (fun t => decide (t.dt = 0x02#8 ∧ t.tickPos = 0)) = true ∧
    (fetching 0x5121).status = .running ∧ (fetching 0x5121).tickPos < (fetching 0x5121).cfg.ipt ∧
    (fetching 0x5121).fetch = .ok 0x5121#16 ∧ decode 0x5121#16 = .error (.invalidOp5 0x5121#16) := by decide

theorem witness_FaultDiscardsEveryEffect :
    nextHolds (exec (.ldMemVx 0x1) { start with index := 0xFFF#16 })
      (fun t => decide (t.status = .faulted ⟨.outOfRange, some 0x200#16, some 0xF155#16, some 0x1000⟩)) = true := by
  decide

/-- One fault of each of the three clauses. -/
theorem witness_OnlyTheListedInstructionsFault :
    nextHolds (exec (.ldB 0x1) { start with index := 0xFFE#16 })
      (fun t => decide (t.status = .faulted ⟨.outOfRange, some 0x200#16, some 0xF133#16, some 0x1000⟩)) = true ∧
    nextHolds (exec (.sknp 0x2) (withRegs [(0x2, 0x10)]))
      (fun t => decide (t.status = .faulted ⟨.outOfRange, some 0x200#16, some 0xE2A1#16, some 0x10⟩)) = true ∧
    nextHolds (exec .scr (scrollFaults start))
      (fun t => decide (t.status = .faulted ⟨.invalidOpcode, some 0x200#16, some 0x00FB#16, none⟩)) = true := by
  decide

theorem witness_NothingChangesAfterTheRunHasEnded :
    { start with status := .exited }.status ≠ .running ∧
    nextHolds (runKeys [Vector.replicate 16 true] { start with status := .exited })
      (fun t => decide (t.pc = 0x200#16)) = true := by decide

/-- A tick boundary with steps to run, and one under `IPT = 0`. -/
theorem witness_StepsOfATickAreTheTickTransaction :
    (fetching 0x00FD).tickPos = 0 ∧ nextHolds (tick (fetching 0x00FD)) (fun t => decide (t.status = .exited)) = true ∧
    nextHolds (tick { State.reset with dt := 0x02#8, cfg := { defaultConfig with ipt := 0 } })
      (fun t => decide (t.dt = 0x01#8)) = true := by decide

theorem witness_TimerPhaseDecrementsEachTimerAboveZero :
    let s := { State.reset with dt := 0xFF#8, st := 0x00#8, cfg := { defaultConfig with ipt := 0 } }
    s.status = .running ∧ s.tickPos = 0 ∧ s.cfg.ipt = 0 ∧ s.timerTick.dt = 0xFE#8 ∧ s.timerTick.st = 0x00#8 := by
  decide

theorem witness_TicksWithoutInstructionsOnlyCountDown :
    let s := { State.reset with dt := 0x02#8, cfg := { defaultConfig with ipt := 0 } }
    s.status = .running ∧ s.tickPos = 0 ∧ s.cfg.ipt = 0 := by decide

/-- A step within a tick that writes a timer, and one that does not. -/
theorem witness_TimersHoldInsideATick :
    nextHolds (step ((withRegs [(0xA, 0x03)]).withFetchWord 16 0xFA15)) (fun t => decide (t.dt = 0x03#8)) = true ∧
    nextHolds (step ((withRegs [(0xA, 0x03)]).withFetchWord 16 0xFA18)) (fun t => decide (t.st = 0x03#8)) = true ∧
    nextHolds (step ({ start with dt := 0x05#8 }.withFetchWord 16 0x6012)) (fun t => decide (t.dt = 0x05#8)) = true := by
  decide

theorem witness_CoreNeverWritesItsInputs :
    nextHolds (step (withKeys (fetching 0x6012) [3])) (fun t => t.key 3) = true := by decide

/-- A state that meets the invariant and steps to another. -/
theorem witness_StepKeepsTheInvariant : State.reset.Inv ∧ nextHolds (step State.reset) (fun t => t.status.wf) = true := by
  have blank (w h : Nat) : (Grid.blank w h).onOff := by
    intro x y
    left
    simp [Grid.at, Grid.blank]
  exact ⟨⟨⟨List.Pairwise.nil, nofun⟩, rfl, blank _ _, blank _ _, .inl rfl, .inl rfl, rfl⟩, by decide⟩

theorem witness_InvariantHoldsUnderEveryKeyHistory :
    State.reset.Inv ∧ nextHolds (runKeys [Vector.replicate 16 true] (fetching 0xF30A)) (fun t => decide (t.reg 0x3 = 0x00#8 ∧ t.pc = 0x202#16)) = true :=
  ⟨witness_StepKeepsTheInvariant.1, by decide⟩

/-- Each clause, by an instruction that writes what it is about. -/
theorem witness_SpecialStateHasOnlyItsWriters :
    nextHolds (exec (.ldI 0x228) start) (fun t => decide (t.index ≠ start.index)) = true ∧
    nextHolds (exec .ret start) (fun t => decide (t.sp ≠ start.sp)) = true ∧
    nextHolds (exec (.ldDtVx 0x0) (withRegs [(0x0, 0x03)])) (fun t => decide (t.dt ≠ start.dt)) = true ∧
    nextHolds (exec (.ldStVx 0x0) (withRegs [(0x0, 0x03)])) (fun t => decide (t.st ≠ start.st)) = true ∧
    nextHolds (exec .high start) (fun t => decide (t.extendedMode ≠ start.extendedMode)) = true ∧
    nextHolds (exec .cls (withPixels start [(1, 1)])) (fun t => decide (t.stdGrid.at 1 1 ≠ 0xFF#8)) = true ∧
    nextHolds (exec .exit start) (fun t => decide (t.status = .exited)) = true ∧
    nextHolds (exec (.call 0x300) start) (fun t => decide (t.readByte 0x002 ≠ start.readByte 0x002)) = true ∧
    nextHolds (exec (.rnd 0x0 0x0F) start) (fun t => decide (t.randCount ≠ start.randCount)) = true := by
  decide

/-- `VF` changed by a flag, and as a destination. -/
theorem witness_FlagRegisterHasOnlyItsWriters :
    nextHolds (exec (.addReg 0x0 0x0) (withRegs [(0x0, 0x80)])) (fun t => decide (t.reg vf ≠ start.reg vf)) = true ∧
    nextHolds (exec (.ldImm vf 0x01) start) (fun t => decide (t.reg vf ≠ start.reg vf)) = true := by decide

theorem witness_JumpGoesToNNN : (0xFFF#12).toNat = 0xFFF := by decide

/-- A skip that is taken and one that is not. -/
theorem witness_SkipsPassOverOneWord :
    (Instr.seImm 0x0 0x00, start.reg 0x0 == 0x00#8) ∈ [(Instr.seImm 0x0 0x00, true)] ∧
    (Instr.sneReg 0x0 0x1, !(start.reg 0x0 == start.reg 0x1)) ∈ [(Instr.sneReg 0x0 0x1, false)] := by decide

theorem witness_MoveAndLogicWriteVxAlone :
    nextHolds (exec (.xorReg 0x0 0x1) (withRegs [(0x0, 0xFF), (0x1, 0x0F)]))
      (fun t => decide ((t.reg 0x0).getLsbD 7 = xor true false)) = true := by decide

theorem witness_AddAndSubtractReportCarryAndBorrow :
    let s := withRegs [(0xE, 0xFF), (0x0, 0x01)]
    (0xE#4) ≠ vf ∧ (0x0#4) ≠ vf ∧ ((s.reg 0xE).toNat + (s.reg 0x0).toNat) % 256 = 0 ∧
    255 < (s.reg 0xE).toNat + (s.reg 0x0).toNat := by decide

theorem witness_ShiftsReportTheBitShiftedOut :
    let s := withRegs [(0xE, 0x81)]
    (0xE#4) ≠ vf ∧ s.cfg.shlFlagMode = .bit7 ∧ (s.reg 0xE).toNat / 128 = 1 := by decide

/-- The default order; `x` naming `VF`, and `y` alone. -/
theorem witness_FlagThenResultTable :
    (withRegs [(vf, 0x90)]).cfg.flagWriteOrder = .flagThenResult ∧ (0xE#4) ≠ vf ∧
    2 * (((withRegs [(vf, 0x90)]).reg vf).toNat / 128) = 2 := by decide

theorem witness_ResultThenFlagTable : (flagLast start).cfg.flagWriteOrder = .resultThenFlag := by decide

theorem witness_RandomByteIsMaskedWithKK :
    nextHolds (exec (.rnd 0x0 0x00) start) (fun t => decide (t.randCount = 1)) = true := by decide

/-- The cells at the two ends of the active grid, in both modes, and the standard grid's pixels after `00FE`. -/
theorem witness_ClearBlanksTheActiveGrid :
    63 < start.width ∧ 31 < start.height ∧ 127 < (extended start).width ∧ 63 < (extended start).height ∧
    (extended start).extendedMode = true ∧
    nextHolds (exec .low (after (extended (withPixels start [(1, 1)])) 0x00E0)) (fun t => decide (t.pixel 1 1 = 0xFF#8)) = true := by
  decide

/-- The three premises about the mode and the parameter, and the cells where the shifts begin and end. -/
theorem witness_ScrollsShiftTheActiveGridOrFault :
    (scrollFaults start).cfg.scrollInStandard = .fault ∧ (scrollFaults start).extendedMode = false ∧
    start.cfg.scrollInStandard = .execute ∧ (extended (scrollFaults start)).extendedMode = true ∧
    nextHolds (exec .scl (withPixels start [(63, 0)])) (fun t => decide (t.pixel 59 0 = 0xFF#8 ∧ t.pixel 60 0 = 0x00#8)) = true ∧
    nextHolds (exec .scr (withPixels start [(0, 0)])) (fun t => decide (t.pixel 4 0 = 0xFF#8 ∧ t.pixel 3 0 = 0x00#8)) = true := by
  decide

/-- The last address, with a cell under a 1 bit that is on and one that is off. -/
theorem witness_DrawTogglesTheSprite :
    let s := withPixels (withBytes start 0xFFF [0xC0#8]) [(1, 0)]
    s.index.toNat + (0x1#4).toNat ≤ 4096 ∧ s.litBy8 0 0 1 1 0 = true ∧ s.pixel 1 0 = 0xFF#8 ∧
    s.litBy8 0 0 1 0 0 = true ∧ s.pixel 0 0 = 0x00#8 ∧ s.litBy8 0 0 1 2 0 = false := by decide

/-- The last address in extended mode, and standard mode. -/
theorem witness_Draw16TogglesTheSpriteInExtendedModeOnly :
    let s := extended (withBytes start 0xFE0 [0x80#8, 0x01#8])
    s.extendedMode = true ∧ s.index.toNat + 32 ≤ 4096 ∧ s.litBy16 0 0 15 0 = true ∧ s.litBy16 0 0 14 0 = false ∧
    start.extendedMode = false := by decide

/-- The three forms, each at the last address it may read; a sprite with a 1 bit and one without; and a
coordinate in `VF` under `ResultThenFlag`, which the first draw moves, so that the second is elsewhere. -/
theorem witness_DrawingTwiceRestoresTheGrid :
    (0x0#4 ≠ vf ∧ 0x1#4 ≠ vf) ∧ start.cfg.flagWriteOrder = .flagThenResult ∧
    (withBytes start 0xFFF [0xFF#8]).index.toNat + 1 ≤ 4096 ∧
    (withBytes start 0xFFF [0xFF#8]).readByte 0xFFF ≠ 0x00#8 ∧ start.readByte 0xFFF = 0x00#8 ∧
    (extended (withBytes start 0xFE0 [0x80#8])).extendedMode = true ∧
    (extended (withBytes start 0xFE0 [0x80#8])).index.toNat + 32 ≤ 4096 ∧ start.extendedMode = false ∧
    nextHolds (exec (.drw vf 0x1 0x1) (flagLast (withPixels (withBytes (withRegs [(vf, 0x05)]) 0xFFF [0x80#8]) [(5, 0)])))
      (fun t => decide (t.reg vf = 0x01#8)) = true := by
  refine ⟨by decide, by decide, by decide, by decide, by decide, by decide, by decide, by decide, by decide⟩

theorem witness_PictureIsRowMajorAtTickBoundaries :
    start.tickPos ≠ 0 ∧ start.picture = none ∧ State.reset.tickPos = 0 ∧ 31 < State.reset.height := by decide

/-- The key indices where the clauses meet. -/
theorem witness_KeySkipsTestTheKeyOrFault :
    ((withRegs [(0x2, 0x0F)]).reg 0x2).toNat = ((15 : Fin 16) : Nat) ∧ 0xF < ((withRegs [(0x2, 0x10)]).reg 0x2).toNat := by
  decide

theorem witness_KeyWaitTakesTheLowestKey :
    (withKeys start [15]).keys[(15 : Fin 16)] = true ∧
    (∀ j : Fin 16, j < 15 → (withKeys start [15]).keys[j] = false) ∧ (∀ k : Fin 16, start.keys[k] = false) := by
  decide

theorem witness_KeyWaitSpinsWhileNoKeyIsPressed :
    (fetching 0xF30A).status = .running ∧ (fetching 0xF30A).tickPos < (fetching 0xF30A).cfg.ipt ∧
    (fetching 0xF30A).fetch = .ok (encode (.ldVxK 0x3)) ∧ (∀ k : Fin 16, (fetching 0xF30A).keys[k] = false) := by
  decide

/-- A digit above 15, under either mode. -/
theorem witness_FontLoadsPointAtTheGlyph :
    (withRegs [(0x0, 0x1A)]).cfg.fontIndexMode = .full ∧ ((withRegs [(0x0, 0x1A)]).reg 0x0).toNat = 26 ∧
    (lowDigit (withRegs [(0x0, 0x1A)])).cfg.fontIndexMode ≠ .full ∧
    ((lowDigit (withRegs [(0x0, 0x1A)])).reg 0x0).toNat % 16 = 10 := by decide

theorem witness_LoadIndexSetsNNN : (0xFFF#12).toNat = 0xFFF ∧ firstOutOfRange 0xFFF 2 = some 0x1000 := by decide

/-- The values of `I` where the clauses meet. -/
theorem witness_DecimalDigitsAreStored :
    { start with index := 0xFFD#16 }.index.toNat + 2 ≤ 0xFFF ∧ 0xFFF < { start with index := 0xFFE#16 }.index.toNat + 2 := by
  decide

theorem witness_BlockStoreWritesV0ToVx : { start with index := 0xFF0#16 }.index.toNat + (0xF#4).toNat ≤ 0xFFF := by decide

theorem witness_BlockLoadReadsV0ToVx :
    { start with index := 0xFF0#16 }.index.toNat + (0xF#4).toNat ≤ 0xFFF ∧ (0xF#4) ≤ (0xF#4) := by decide

/-- The least `I` out of range, for each of the four forms, and an `I` above 0xFFF. -/
theorem witness_BlockAccessOutOfRangeFaults :
    (Instr.drw 0x0 0x1 0x1).wellFormed = true ∧ 4096 < (0x1000#16).toNat + (0x1#4).toNat ∧
    4096 < (0xFF1#16).toNat + ((0xF#4).toNat + 1) ∧ 4096 < (0xFE1#16).toNat + 32 ∧
    (extended start).extendedMode = true ∧
    nextHolds (exec (.drw16 0x0 0x1) (extended { start with index := 0xFE1#16 }))
      (fun t => decide (t.status = .faulted ⟨.outOfRange, some 0x200#16, some 0xD010#16, some 0x1000⟩)) = true := by
  decide

/-- V7.23, and for each of the three forms a store that ends at the last address it may reach. -/
theorem witness_StoredCodeIsFetchedNext :
    let s := { withRegs [(0x0, 0x60), (0x1, 0x99)] with index := 0x202#16 }
    s.index.toNat + (0x1#4).toNat ≤ 0xFFF ∧
    nextHolds (exec (.ldMemVx 0x1) s) (fun t => decide (t.fetch = .ok 0x6099#16)) = true ∧
    { s with index := 0xFFE#16 }.index.toNat + (0x1#4).toNat ≤ 0xFFF ∧
    { s with index := 0xFFD#16 }.index.toNat + 2 ≤ 0xFFF ∧
    nextHolds (exec (.ldB 0x0) s) (fun t => decide (t.fetch = .ok 0x0009#16)) = true ∧
    nextHolds (exec (.call 0x002) { start with sp := 0x00#8 }) (fun t => decide (t.fetch = .ok 0x0202#16)) = true := by
  decide

/-- R269: the two clauses, and a tick that runs. -/
theorem witness_HostActsBetweenTicksOnly :
    start.tickPos ≠ 0 ∧ start.status = .running ∧ tick start = .refused .tickRunning ∧
    (fetching 0x00FD).tickPos = 0 ∧ nextHolds (tick (fetching 0x00FD)) (fun t => decide (t.status = .exited)) = true ∧
    ((State.reset.setIpt 3).map (fun t => t.cfg.ipt)) = some 3 :=
  ⟨by decide, by decide, rfl, by decide, by decide, by decide⟩

/-- E5, each draw as one step: over the row it left on, the sprite turns it off with `VF = 1`; over a blank row,
which is what a third equal draw finds, it gives `VF = 0` (R171; log entry 15 on the third law of R185). -/
theorem test_equal_draws_over_lit_and_blank_rows :
    let blank := withBytes start 0x300 [0xFF#8]
    let lit := withPixels blank [(0, 0), (1, 0), (2, 0), (3, 0), (4, 0), (5, 0), (6, 0), (7, 0)]
    ((after lit 0xD011).reg vf = 0x01#8 ∧ (after lit 0xD011).stdGrid.rows[0] = blank.stdGrid.rows[0]) ∧
    (after blank 0xD011).reg vf = 0x00#8 ∧ (after blank 0xD011).stdGrid.rows[0] = lit.stdGrid.rows[0] := by decide

/-- R71: small-font digits A and F, at 0x100 + 5d. -/
theorem test_small_font_bytes :
    State.reset.readBytes 0x132 5 = [0xF0#8, 0x90#8, 0xF0#8, 0x90#8, 0x90#8] ∧
    State.reset.readBytes 0x14B 5 = [0xF0#8, 0x80#8, 0xF0#8, 0x80#8, 0x80#8] := by decide

/-- R72: the unused big-font slots 0xA to 0xF are zero (their first and last bytes). -/
theorem test_big_font_unused_slots_zero :
    State.reset.readByte 0x1B4 = 0x00#8 ∧ State.reset.readByte 0x1EF = 0x00#8 := by decide

end Sys2Proof.Tests
end

/-! PROOFS. The frame of a block write and what a bulk load does (R79). -/

section
namespace Sys2Proof.Machine

/-! ### The bytes of a block as parts of the state -/

theorem byte_mem_bytesFrom {a n c : Nat} : Part.byte c ∈ bytesFrom a n ↔ a ≤ c ∧ c < a + n := by
  simp only [bytesFrom, List.mem_map, List.mem_range, Part.byte.injEq]
  constructor
  · rintro ⟨k, hk, rfl⟩
    omega
  · rintro ⟨hl, hu⟩
    exact ⟨c - a, by omega, by omega⟩

/-! ### The frame of a block write -/

/-- A state that differs from another in the store alone has the frame that its bytes give. -/
theorem keepsOthers_of_mem {l : List Part} {s t : State} (h : t = { s with mem := t.mem })
    (hb : ∀ c, Part.byte c ∉ l → t.readByte c = s.readByte c) : keepsOthers l s t := by
  apply keepsOthers_intro
  case byte => exact hb
  case reg =>
    intro x _
    rw [h]
    rfl
  all_goals
    intro
    rw [h]

/-- A block write writes the block's bytes alone. -/
theorem State.writeBytes_keepsOthers (s : State) (a : Nat) (bs : List Byte) :
    keepsOthers (bytesFrom a bs.length) s (s.writeBytes a bs) := by
  refine keepsOthers_of_mem (State.writeBytes_eq s a bs) fun c hc => ?_
  rw [byte_mem_bytesFrom] at hc
  rw [State.readByte_writeBytes, dif_neg hc]

/-- … and leaves each of them in its place. -/
theorem State.readByte_writeBytes_getElem (s : State) (a : Nat) (bs : List Byte) (k : Nat)
    (hk : k < bs.length) : (s.writeBytes a bs).readByte (a + k) = bs[k] := by
  rw [State.readByte_writeBytes, dif_pos (by omega)]
  simp only [Nat.add_sub_cancel_left]

/-- A second write of the same block changes no part of the state. -/
theorem State.writeBytes_again_keeps (s : State) (a : Nat) (bs : List Byte) :
    keepsOthers [] (s.writeBytes a bs) ((s.writeBytes a bs).writeBytes a bs) := by
  refine keepsOthers_of_mem (State.writeBytes_eq _ a bs) fun c _ => ?_
  rw [State.readByte_writeBytes]
  split
  · next hc => rw [State.readByte_writeBytes, dif_pos hc]
  · rfl

/-! ### The bulk load (R79) -/

theorem State.load_eq_ok {s : State} {offset : Nat} {data : List Byte} (h : offset + data.length ≤ 4096) :
    s.load offset data = .ok (s.writeBytes offset data) :=
  if_pos h

theorem State.load_eq_error {s : State} {offset : Nat} {data : List Byte} (h : 4096 < offset + data.length) :
    s.load offset data = .error (max offset 4096) :=
  if_neg (Nat.not_le_of_lt h)

/-- Settles O8: a load in range is a block write, whose frame and second run are known; one out of range
answers an address and no state. -/
theorem bulkLoadCopiesAllOrNothing : Obligations.BulkLoadCopiesAllOrNothing := by
  unfold Obligations.BulkLoadCopiesAllOrNothing
  intro s offset data
  constructor
  · intro hout
    exact ⟨_, State.load_eq_error hout⟩
  · intro hin
    exact ⟨_, _, State.load_eq_ok hin, State.readByte_writeBytes_getElem s offset data,
      State.writeBytes_keepsOthers s offset data, State.load_eq_ok hin,
      State.writeBytes_again_keeps s offset data⟩

end Sys2Proof.Machine
end

/-! PROOFS. Where a jump goes, and what a fetch beyond the store answers (R123). -/

section
namespace Sys2Proof.Machine

/-! ### Writes of `PC` alone -/

/-- A state that differs from another in `PC` alone has every other part as before. -/
theorem keepsOthers_setPc (s : State) (w : Word) : keepsOthers [.pc] s { s with pc := w } := by
  apply keepsOthers_intro
  case pc => exact fun hp => absurd (List.mem_singleton_self _) hp
  all_goals
    intros
    rfl

@[simp] theorem toNat_zext16 (nnn : Addr12) : (zext16 nnn).toNat = nnn.toNat :=
  BitVec.toNat_setWidth_of_le (by decide)

/-! ### Fetching beyond the store (R61, R66) -/

theorem State.get16_eq_error {s : State} {a : Nat} (h : 4096 < a + 2) :
    s.get16 a = .error (max a 4096) := by
  simp [State.get16, firstOutOfRange_some Nat.zero_lt_two h]

theorem State.fetch_eq_error {s : State} (h : 4096 < s.pc.toNat + 2) :
    s.fetch = .error (max s.pc.toNat 4096) :=
  State.get16_eq_error h

/-! ### The jump (R123) -/

theorem decode_jp (nnn : Addr12) : decode (0x1#4 ++ nnn) = .ok (.jp nnn) := by
  simp [decode]

theorem exec_jp (nnn : Addr12) (s : State) : exec (.jp nnn) s = .next { s with pc := zext16 nnn } := rfl

/-- Settles O26: a jump writes `PC` alone, and a word at 0xFFF reaches past the store. -/
theorem jumpGoesToNNN : Obligations.JumpGoesToNNN := by
  unfold Obligations.JumpGoesToNNN
  intro nnn s
  refine ⟨decode_jp nnn, _, exec_jp nnn s, toNat_zext16 nnn, keepsOthers_setPc s _, fun hlast => ?_⟩
  have hpc : (zext16 nnn).toNat = 0xFFF := (toNat_zext16 nnn).trans hlast
  rw [State.fetch_eq_error (by simp only [hpc]; decide)]
  simp only [hpc]
  rfl

end Sys2Proof.Machine
end

/-! PROOFS. The frame of a register load, and the load of an immediate (R140). -/

section
namespace Sys2Proof.Machine

/-! ### Writes of one register -/

/-- A register write writes that register alone. -/
theorem State.setReg_keepsOthers (s : State) (x : Nibble) (b : Byte) :
    keepsOthers [.reg x] s (s.setReg x b) := by
  apply keepsOthers_intro
  case reg =>
    intro y hy
    have hne : y ≠ x := fun e => hy (by simp [e])
    exact State.setReg_reg_ne s x y b hne
  all_goals
    intros
    rfl

/-- Advancing `PC` and writing one register write these two parts alone. -/
theorem State.advance_setReg_keepsOthers (s : State) (x : Nibble) (b : Byte) :
    keepsOthers [.pc, .reg x] s (s.advance.setReg x b) := by
  have hpc : keepsOthers [.pc] s s.advance := keepsOthers_setPc s _
  have hreg : keepsOthers [.reg x] s.advance (s.advance.setReg x b) := s.advance.setReg_keepsOthers x b
  exact keepsOthers_trans (keepsOthers_mono hpc (by simp)) (keepsOthers_mono hreg (by simp))

/-! ### The load of an immediate (R140) -/

theorem decode_ldImm (x : Nibble) (kk : Byte) : decode (0x6#4 ++ x ++ kk) = .ok (.ldImm x kk) := by
  simp [decode]

theorem exec_ldImm (x : Nibble) (kk : Byte) (s : State) :
    exec (.ldImm x kk) s = .next (s.advance.setReg x kk) := rfl

/-- Settles O33: `PC` advances and one register is written; the argument is the same where `V[X]` is `VF`. -/
theorem loadImmediateWritesKK : Obligations.LoadImmediateWritesKK := by
  unfold Obligations.LoadImmediateWritesKK
  intro x kk s
  exact ⟨decode_ldImm x kk, _, exec_ldImm x kk s, s.advance.setReg_reg_self x kk,
    s.advance.setReg_pc x kk, s.advance_setReg_keepsOthers x kk⟩

end Sys2Proof.Machine
end

/-! PROOFS. The frame of a change of the active grid, the clear of it (R175), and the mode switches (R183, R184). -/

section
namespace Sys2Proof.Machine

/-! ### Writes of the active grid (R40, R41) -/

@[simp] theorem State.activePart_advance (s : State) : s.advance.activePart = s.activePart := rfl

/-- A change of the active grid writes that grid alone. -/
theorem State.onActiveGrid_keepsOthers (s : State) (f : (w h : Nat) → Grid w h → Grid w h) :
    keepsOthers [s.activePart] s (s.onActiveGrid f) := by
  have hgrids := s.onActiveGrid_eq f
  obtain ⟨hstd, hext⟩ := s.onActiveGrid_inactive f
  apply keepsOthers_intro
  case std =>
    intro hp
    cases hm : s.extendedMode with
    | true => exact hstd hm
    | false => simp [State.activePart, hm] at hp
  case ext =>
    intro hp
    cases hm : s.extendedMode with
    | true => simp [State.activePart, hm] at hp
    | false => exact hext hm
  case reg | byte =>
    intros
    rw [hgrids]
    rfl
  all_goals
    intro
    rw [hgrids]

/-- Advancing `PC` and changing the active grid write these two parts alone. -/
theorem State.advance_onActiveGrid_keepsOthers (s : State) (f : (w h : Nat) → Grid w h → Grid w h) :
    keepsOthers [.pc, s.activePart] s (s.advance.onActiveGrid f) := by
  have hpc : keepsOthers [.pc] s s.advance := keepsOthers_setPc s _
  have hgrid : keepsOthers [s.activePart] s.advance (s.advance.onActiveGrid f) :=
    s.advance.onActiveGrid_keepsOthers f
  exact keepsOthers_trans (keepsOthers_mono hpc (by simp)) (keepsOthers_mono hgrid (by simp))

theorem State.onActiveGrid_pc (s : State) (f : (w h : Nat) → Grid w h → Grid w h) :
    (s.onActiveGrid f).pc = s.pc := by
  rw [s.onActiveGrid_eq f]

/-- A change that blanks a grid leaves every cell of the active one off. -/
theorem State.onActiveGrid_blank_pixel (s : State) (px py : Nat) :
    (s.onActiveGrid fun w h _ => Grid.blank w h).pixel px py = 0x00#8 := by
  simp [State.onActiveGrid_pixel]

/-! ### Writes of the mode (R183, R184) -/

/-- Advancing `PC` and selecting a grid write these two parts alone: neither grid is among them. -/
theorem State.advance_setMode_keepsOthers (s : State) (m : Bool) :
    keepsOthers [.pc, .mode] s { s.advance with extendedMode := m } := by
  apply keepsOthers_intro
  case pc => exact fun hp => absurd (by simp) hp
  case mode => exact fun hp => absurd (by simp) hp
  all_goals
    intros
    rfl

theorem State.pixel_standard (s : State) (px py : Nat) :
    State.pixel { s with extendedMode := false } px py = s.stdGrid.at px py := rfl

theorem decode_cls : decode 0x00E0#16 = .ok .cls := rfl

theorem decode_low : decode 0x00FE#16 = .ok .low := rfl

theorem decode_high : decode 0x00FF#16 = .ok .high := rfl

theorem exec_cls (s : State) :
    exec .cls s = .next (s.advance.onActiveGrid fun w h _ => Grid.blank w h) := rfl

theorem exec_low (s : State) : exec .low s = .next { s.advance with extendedMode := false } := rfl

theorem exec_high (s : State) : exec .high s = .next { s.advance with extendedMode := true } := rfl

/-- Settles O41: a clear blanks the active grid within its frame, so in extended mode the standard grid is left
for `00FE` to select. -/
theorem clearBlanksTheActiveGrid : Obligations.ClearBlanksTheActiveGrid := by
  unfold Obligations.ClearBlanksTheActiveGrid
  intro s
  refine ⟨decode_cls, _, exec_cls s, fun px py _ _ => s.advance.onActiveGrid_blank_pixel px py,
    s.advance.onActiveGrid_pc _, s.advance_onActiveGrid_keepsOthers _, fun hmode => ?_⟩
  have hstd : (s.advance.onActiveGrid fun w h _ => Grid.blank w h).stdGrid = s.stdGrid :=
    (s.advance.onActiveGrid_inactive _).1 hmode
  refine ⟨_, exec_low _, fun px py => ?_⟩
  rw [State.pixel_standard, State.advance_stdGrid, hstd]

/-- Settles O42: both switches are a write of `PC` and the mode, and the frame holds for either mode. -/
theorem modeSwitchesKeepBothGrids : Obligations.ModeSwitchesKeepBothGrids := by
  unfold Obligations.ModeSwitchesKeepBothGrids
  intro s
  exact ⟨decode_high, decode_low,
    ⟨_, exec_high s, rfl, s.advance_pc, s.advance_setMode_keepsOthers true⟩,
    ⟨_, exec_low s, rfl, s.advance_pc, s.advance_setMode_keepsOthers false⟩⟩

end Sys2Proof.Machine
end

/-! PROOFS. The frame of an index load, and the range of an access at the last address (R215). -/

section
namespace Sys2Proof.Machine

/-! ### Writes of `I` (R34) -/

/-- Advancing `PC` and writing `I` write these two parts alone. -/
theorem State.advance_setIndex_keepsOthers (s : State) (w : Word) :
    keepsOthers [.pc, .index] s { s.advance with index := w } := by
  apply keepsOthers_intro
  case pc => exact fun hp => absurd (by simp) hp
  case index => exact fun hp => absurd (by simp) hp
  all_goals
    intros
    rfl

/-! ### Accesses at the last address (R61, R66) -/

/-- The last address holds one byte. -/
theorem firstOutOfRange_last_one : firstOutOfRange 0xFFF 1 = none :=
  firstOutOfRange_none (by decide)

/-- A longer access there first leaves the store just behind it. -/
theorem firstOutOfRange_last_longer {n : Nat} (hn : 1 < n) : firstOutOfRange 0xFFF n = some 0x1000 :=
  firstOutOfRange_some (by omega) (by omega)

/-! ### The index load (R215) -/

theorem decode_ldI (nnn : Addr12) : decode (0xA#4 ++ nnn) = .ok (.ldI nnn) := by
  simp [decode]

theorem exec_ldI (nnn : Addr12) (s : State) :
    exec (.ldI nnn) s = .next { s.advance with index := zext16 nnn } := rfl

/-- Settles O52: `PC` advances and `I` is written; where NNN is the last address, an access at `I` is one
there. -/
theorem loadIndexSetsNNN : Obligations.LoadIndexSetsNNN := by
  unfold Obligations.LoadIndexSetsNNN
  intro nnn s
  refine ⟨decode_ldI nnn, _, exec_ldI nnn s, toNat_zext16 nnn, s.advance_pc,
    s.advance_setIndex_keepsOthers _, fun hlast => ?_⟩
  have hindex : State.indexAddr { s.advance with index := zext16 nnn } = 0xFFF :=
    (toNat_zext16 nnn).trans hlast
  rw [hindex]
  exact ⟨firstOutOfRange_last_one, fun _ hn => firstOutOfRange_last_longer hn⟩

end Sys2Proof.Machine
end

/-! PROOFS. The decoder and the encoder invert each other, and the words that decode to nothing (R91 to R101). -/

section
namespace Sys2Proof

/-! ### An instruction is decoded from its word -/

theorem decode_encode {i : Instr} (h : i.wellFormed = true) : decode (encode i) = .ok i := by
  cases i with
  | scd n => simp [encode, scd_word, decode, decodeOp0]
  | cls | ret | scr | scl | exit | low | high => rfl
  | jp | call | ldI | jpV0 => simp [encode, decode]
  | seImm | sneImm | ldImm | addImm | rnd => simp [encode, decode]
  | seReg | sneReg | drw16 => simp [encode, decode]
  | drw x y n =>
    have hn : n ≠ 0x0#4 := by simpa [Instr.wellFormed] using h
    simp [encode, decode, hn]
  | ldReg | orReg | andReg | xorReg | addReg | sub | shr | subn | shl => simp [encode, decode, decodeOp8]
  | skp | sknp => simp [encode, decode, decodeOpE]
  | ldVxDt | ldVxK | ldDtVx | ldStVx | addI | ldF | ldHf | ldB | ldMemVx | ldVxMem =>
    simp [encode, decode, decodeOpF]

theorem decodeBytes_encodeBytes {i : Instr} (h : i.wellFormed = true) (rest : List Byte) :
    decodeBytes (encodeBytes i ++ rest) = .ok (i, rest) := by
  simp [encodeBytes, decodeBytes, decode_encode h]

/-! ### A decoded word is the word of its instruction -/

/-- What a decoded instruction must satisfy of the word it was decoded from. -/
def IsRowOf (w : Word) (i : Instr) : Prop := encode i = w ∧ i.wellFormed = true

section
variable {w : Word} {op x n : Nibble} {kk : Byte} (hop : fieldOp w = op)
include hop

theorem nnn_eq_word : op ++ fieldNNN w = w := by rw [← hop, word_nnn]

theorem xkk_eq_word (hkk : fieldKK w = kk) : op ++ fieldX w ++ kk = w := by rw [← hop, ← hkk, word_xkk]

theorem xyn_eq_word (hn : fieldN w = n) : op ++ fieldX w ++ fieldY w ++ n = w := by rw [← hop, ← hn, word_xyn]

end

theorem decodeOp0_isRowOf {w : Word} {i : Instr} (hop : fieldOp w = 0x0#4) (h : decodeOp0 w = .ok i) :
    IsRowOf w i := by
  unfold decodeOp0 at h
  split at h
  · cases h
  next hx =>
    have hx : fieldX w = 0x0#4 := not_not.1 hx
    split at h
    · next hy =>
      cases h
      have hw : 0x0#4 ++ fieldX w ++ fieldY w ++ fieldN w = w := xyn_eq_word hop rfl
      rw [hx, hy, ← scd_word] at hw
      exact ⟨hw, rfl⟩
    · split at h <;> cases h
      all_goals
        next hkk =>
          have hw := xkk_eq_word hop hkk
          rw [hx] at hw
          exact ⟨hw, rfl⟩

theorem decodeOp8_isRowOf {w : Word} {i : Instr} (hop : fieldOp w = 0x8#4) (h : decodeOp8 w = .ok i) :
    IsRowOf w i := by
  unfold decodeOp8 at h
  split at h <;> cases h
  all_goals
    next hn => exact ⟨xyn_eq_word hop hn, rfl⟩

theorem decodeOpE_isRowOf {w : Word} {i : Instr} (hop : fieldOp w = 0xE#4) (h : decodeOpE w = .ok i) :
    IsRowOf w i := by
  unfold decodeOpE at h
  split at h <;> cases h
  all_goals
    next hkk => exact ⟨xkk_eq_word hop hkk, rfl⟩

theorem decodeOpF_isRowOf {w : Word} {i : Instr} (hop : fieldOp w = 0xF#4) (h : decodeOpF w = .ok i) :
    IsRowOf w i := by
  unfold decodeOpF at h
  split at h <;> cases h
  all_goals
    next hkk => exact ⟨xkk_eq_word hop hkk, rfl⟩

/-- The encoder gives back a word that decodes. -/
theorem decode_isRowOf {w : Word} {i : Instr} (h : decode w = .ok i) : IsRowOf w i := by
  unfold decode at h
  split at h
  case h_1 hop => exact decodeOp0_isRowOf hop h
  case h_9 hop => exact decodeOp8_isRowOf hop h
  case h_15 hop => exact decodeOpE_isRowOf hop h
  case h_16 =>
    have hop : fieldOp w = 0xF#4 := by
      simp only [imp_false] at *
      bv_omega
    exact decodeOpF_isRowOf hop h
  case h_2 hop | h_3 hop | h_11 hop | h_12 hop =>
    cases h
    exact ⟨nnn_eq_word hop, rfl⟩
  case h_4 hop | h_5 hop | h_7 hop | h_8 hop | h_13 hop =>
    cases h
    exact ⟨xkk_eq_word hop rfl, rfl⟩
  case h_6 hop | h_10 hop =>
    split at h <;> cases h
    next hn => exact ⟨xyn_eq_word hop hn, rfl⟩
  case h_14 hop =>
    split at h <;> cases h
    · next hn => exact ⟨xyn_eq_word hop hn, rfl⟩
    · next hn => exact ⟨xyn_eq_word hop rfl, by simpa [Instr.wellFormed] using hn⟩

/-! ### The invalid space (R98) -/

theorem fieldY_toNat (w : Word) : (fieldY w).toNat = (fieldKK w).toNat / 16 := by
  simp only [fieldY, fieldKK, BitVec.extractLsb'_toNat, Nat.shiftRight_eq_div_pow]
  omega

/-- An op-0 word is its field `x` and its low byte. -/
theorem toNat_of_fieldOp_zero {w : Word} (hop : fieldOp w = 0x0#4) :
    w.toNat = 256 * (fieldX w).toNat + (fieldKK w).toNat := by
  have hw : w.toNat / 4096 % 16 = 0 := by
    have := congrArg BitVec.toNat hop
    simpa [fieldOp, BitVec.extractLsb'_toNat, Nat.shiftRight_eq_div_pow] using this
  have hlt := w.isLt
  simp only [fieldX, fieldKK, BitVec.extractLsb'_toNat, Nat.shiftRight_eq_div_pow]
  omega

theorem decodeOp0_error_iff {w : Word} (hop : fieldOp w = 0x0#4) :
    (∃ e, decodeOp0 w = .error e) ↔ ¬ (0x00C0 ≤ w.toNat ∧ w.toNat ≤ 0x00CF) ∧
      w.toNat ∉ [0x00E0, 0x00EE, 0x00FB, 0x00FC, 0x00FD, 0x00FE, 0x00FF] := by
  have hw := toNat_of_fieldOp_zero hop
  have hy := fieldY_toNat w
  simp only [List.mem_cons, List.not_mem_nil, or_false]
  unfold decodeOp0
  split
  · next hx =>
    refine iff_of_true ⟨_, rfl⟩ ?_
    bv_omega
  · split
    · refine iff_of_false (by simp) ?_
      bv_omega
    · split
      case h_8 =>
        simp only [imp_false] at *
        refine iff_of_true ⟨_, rfl⟩ ?_
        bv_omega
      all_goals
        refine iff_of_false (by simp) ?_
        bv_omega

theorem decodeOp8_error_iff (w : Word) :
    (∃ e, decodeOp8 w = .error e) ↔ fieldN w ∈ [0x8#4, 0x9#4, 0xA#4, 0xB#4, 0xC#4, 0xD#4, 0xF#4] := by
  simp only [List.mem_cons, List.not_mem_nil, or_false]
  unfold decodeOp8
  split
  case h_10 =>
    simp only [imp_false] at *
    refine iff_of_true ⟨_, rfl⟩ ?_
    bv_omega
  all_goals
    next hn => simp [hn]

theorem decodeOpE_error_iff (w : Word) :
    (∃ e, decodeOpE w = .error e) ↔ fieldKK w ∉ [0x9E#8, 0xA1#8] := by
  unfold decodeOpE
  split <;> simp_all

theorem decodeOpF_error_iff (w : Word) :
    (∃ e, decodeOpF w = .error e) ↔
      fieldKK w ∉ [0x07#8, 0x0A#8, 0x15#8, 0x18#8, 0x1E#8, 0x29#8, 0x30#8, 0x33#8, 0x55#8, 0x65#8] := by
  unfold decodeOpF
  split <;> simp_all

/-! ### The obligations -/

/-- Settles O1: each word is decoded by computation. -/
theorem wordsFromThePatternsDecode : Obligations.WordsFromThePatternsDecode := by
  unfold Obligations.WordsFromThePatternsDecode
  decide

/-- Settles O2: the word of an instruction has the fields of its pattern, so the decoder takes its arm. -/
theorem decodeOfEncodeIsTheInstruction : Obligations.DecodeOfEncodeIsTheInstruction := by
  unfold Obligations.DecodeOfEncodeIsTheInstruction
  intro i rest h
  exact ⟨decode_encode h, decodeBytes_encodeBytes h rest⟩

/-- Settles O3: in each arm of the decoder the instruction keeps every field of the word. -/
theorem everyDecodedWordIsOneRow : Obligations.EveryDecodedWordIsOneRow := by
  unfold Obligations.EveryDecodedWordIsOneRow
  exact fun w i h => decode_isRowOf h

/-- Settles O4: op by op, an arm answers an error on its part of the invalid space alone. -/
theorem invalidWordsAreExactlyTheInvalidSpace : Obligations.InvalidWordsAreExactlyTheInvalidSpace := by
  unfold Obligations.InvalidWordsAreExactlyTheInvalidSpace
  intro w
  unfold decode
  split
  case h_1 hop => rw [decodeOp0_error_iff hop]; simp [hop]
  case h_9 hop => rw [decodeOp8_error_iff]; simp [hop]
  case h_15 hop => rw [decodeOpE_error_iff]; simp [hop]
  case h_16 =>
    have hop : fieldOp w = 0xF#4 := by
      simp only [imp_false] at *
      bv_omega
    rw [decodeOpF_error_iff]
    simp [hop]
  case h_6 hop | h_10 hop => split <;> simp_all
  case h_14 hop => split <;> simp [hop]
  all_goals
    next hop => simp [hop]

end Sys2Proof
end

/-! PROOFS. What each instruction may write and which fault it raises, said once for all of them, with the frames
of the shared operations that this needs (R120, R240, R241). -/

section
namespace Sys2Proof.Machine

/-! ### Frames of single parts, and of two writes in a row -/

theorem keepsOthers_append {l m : List Part} {s t u : State} (h : keepsOthers l s t) (k : keepsOthers m t u) :
    keepsOthers (l ++ m) s u :=
  keepsOthers_trans (keepsOthers_mono h fun _ => List.mem_append_left m)
    (keepsOthers_mono k fun _ => List.mem_append_right l)

theorem keepsOthers_setIndex (s : State) (w : Word) : keepsOthers [.index] s { s with index := w } :=
  fun p hp => by cases p <;> simp at hp <;> rfl

theorem keepsOthers_setSp (s : State) (b : Byte) : keepsOthers [.sp] s { s with sp := b } :=
  fun p hp => by cases p <;> simp at hp <;> rfl

theorem keepsOthers_setDt (s : State) (b : Byte) : keepsOthers [.dt] s { s with dt := b } :=
  fun p hp => by cases p <;> simp at hp <;> rfl

theorem keepsOthers_setSt (s : State) (b : Byte) : keepsOthers [.st] s { s with st := b } :=
  fun p hp => by cases p <;> simp at hp <;> rfl

theorem keepsOthers_setStatus (s : State) (st : Status) : keepsOthers [.status] s { s with status := st } :=
  fun p hp => by cases p <;> simp at hp <;> rfl

theorem keepsOthers_setTickPos (s : State) (n : Nat) : keepsOthers [.tickPos] s { s with tickPos := n } :=
  fun p hp => by cases p <;> simp at hp <;> rfl

theorem keepsOthers_setRandCount (s : State) (n : Nat) : keepsOthers [.randCount] s { s with randCount := n } :=
  fun p hp => by cases p <;> simp at hp <;> rfl

/-! ### Frames of the shared operations -/

theorem State.advance_keepsOthers (s : State) : keepsOthers [.pc] s s.advance := keepsOthers_setPc s _

theorem State.enterFault_keepsOthers (s : State) (r : FaultRecord) : keepsOthers [.status] s (s.enterFault r) :=
  keepsOthers_setStatus s _

theorem State.timerTick_keepsOthers (s : State) : keepsOthers [.dt, .st] s s.timerTick :=
  keepsOthers_append (keepsOthers_setDt s (countDown s.dt)) (keepsOthers_setSt _ (countDown s.st))

theorem State.endStep_keepsOthers (s : State) : keepsOthers [.tickPos] s s.endStep := keepsOthers_setTickPos s _

theorem State.skipIf_keepsOthers (s : State) (c : Bool) : keepsOthers [.pc] s (s.skipIf c) := by
  cases c with
  | false => exact keepsOthers_refl _ s
  | true => exact keepsOthers_setPc s _

theorem State.advance_skipIf_keepsOthers (s : State) (c : Bool) : keepsOthers [.pc] s (s.advance.skipIf c) :=
  keepsOthers_trans s.advance_keepsOthers (s.advance.skipIf_keepsOthers c)

/-- A state that differs from another in its registers alone has the frame that these give. -/
theorem keepsOthers_of_v {l : List Part} {s t : State} (h : t = { s with v := t.v })
    (hr : ∀ x, Part.reg x ∉ l → t.reg x = s.reg x) : keepsOthers l s t := by
  apply keepsOthers_intro
  case reg => exact hr
  case byte =>
    intro c _
    rw [h]
    rfl
  all_goals
    intro
    rw [h]

theorem State.withFlag_keepsOthers (s : State) (x y : Nibble) (f r : Byte → Byte → Byte) :
    keepsOthers [.reg x, .reg vf] s (s.withFlag x y f r) := by
  refine keepsOthers_of_v (s.withFlag_eq x y f r) fun z hz => ?_
  have hne : z ≠ x ∧ z ≠ vf := by simpa using hz
  exact s.withFlag_reg_other x y z f r hne.1 hne.2

theorem reg_mem_regsTo {x k : Nibble} : Part.reg k ∈ regsTo x ↔ k.toNat ≤ x.toNat := by
  simp only [regsTo, List.mem_map, List.mem_range, Part.reg.injEq]
  constructor
  · rintro ⟨j, hj, rfl⟩
    have := x.isLt
    simp
    omega
  · intro hk
    exact ⟨k.toNat, by omega, by simp⟩

theorem State.loadRegsUpTo_keepsOthers (s : State) (x : Nibble) (a : Nat) :
    keepsOthers (regsTo x) s (s.loadRegsUpTo x a) := by
  refine keepsOthers_of_v (s.loadRegsUpTo_eq x a) fun k hk => ?_
  rw [reg_mem_regsTo] at hk
  rw [State.loadRegsUpTo_reg, if_neg hk]

/-- A draw writes `VF` and the active grid alone. -/
theorem State.drawSprite_keepsOthers {k : Nat} (s : State) (x y : Nibble) (rows : List (BitVec k)) :
    keepsOthers [.reg vf, s.activePart] s (s.drawSprite x y rows) := by
  have hd := s.drawSprite_eq x y rows
  obtain ⟨hstd, hext⟩ := s.drawSprite_inactive x y rows
  apply keepsOthers_intro
  case reg =>
    intro z hz
    exact s.drawSprite_reg_other x y z rows fun e => hz (by simp [e])
  case std =>
    intro hp
    cases hm : s.extendedMode with
    | true => exact hstd hm
    | false => simp [State.activePart, hm] at hp
  case ext =>
    intro hp
    cases hm : s.extendedMode with
    | true => simp [State.activePart, hm] at hp
    | false => exact hext hm
  case byte =>
    intros
    rw [hd]
    rfl
  all_goals
    intro
    rw [hd]

theorem State.advance_drawSprite_keepsOthers {k : Nat} (s : State) (x y : Nibble) (rows : List (BitVec k)) :
    keepsOthers [.pc, .reg vf, s.activePart] s (s.advance.drawSprite x y rows) :=
  keepsOthers_append s.advance_keepsOthers (s.advance.drawSprite_keepsOthers x y rows)

theorem State.advance_writeBytes_keepsOthers (s : State) (a : Nat) (bs : List Byte) :
    keepsOthers (.pc :: bytesFrom a bs.length) s (s.advance.writeBytes a bs) :=
  keepsOthers_append s.advance_keepsOthers (s.advance.writeBytes_keepsOthers a bs)

/-! ### The call as a block write (R121) -/

/-- The address a call stores at. -/
def State.pushAddr (s : State) : Nat := (s.sp + 2#8).toNat

theorem State.pushAddr_eq (s : State) : s.pushAddr = (s.sp.toNat + 2) % 256 := by
  simp [State.pushAddr]

theorem State.pushAddr_lt (s : State) : s.pushAddr < 256 := (s.sp + 2#8).isLt

/-- The two bytes a call stores there. -/
def State.returnBytes (s : State) : List Byte := [highByte (s.pc + 2#16), lowByte (s.pc + 2#16)]

theorem exec_call (nnn : Addr12) (s : State) :
    exec (.call nnn) s = .next { s.writeBytes s.pushAddr s.returnBytes with sp := s.sp + 2#8, pc := zext16 nnn } :=
  execCall_eq nnn s

theorem exec_ret (s : State) :
    exec .ret s =
      .next { s with pc := s.readByte s.sp.toNat ++ s.readByte (s.sp.toNat + 1), sp := s.sp - 2#8 } :=
  execRet_eq s

theorem bytesFrom_two (a : Nat) : bytesFrom a 2 = [.byte a, .byte (a + 1)] := rfl

/-! ### Which fault an instruction raises (R240, R242, R243) -/

/-- The `OutOfRange` fault of an access of `n` bytes at `I` by the instruction `i`, if it leaves the store. -/
def blockFault (i : Instr) (n : Nat) (s : State) : Option FaultRecord :=
  (firstOutOfRange s.indexAddr n).map fun a => ⟨.outOfRange, some s.pc, some (encode i), some a⟩

/-- The `OutOfRange` fault of a key skip `i` on `V[x]`, if that is no key index. -/
def keyFault (i : Instr) (x : Nibble) (s : State) : Option FaultRecord :=
  if 0xF < (s.reg x).toNat then some ⟨.outOfRange, some s.pc, some (encode i), some (s.reg x).toNat⟩ else none

/-- The `InvalidOpcode` fault of a scroll `i`, where `SCROLL_IN_STANDARD` asks for it. -/
def scrollFault (i : Instr) (s : State) : Option FaultRecord :=
  if s.scrollAllowed then none else some ⟨.invalidOpcode, some s.pc, some (encode i), none⟩

/-- The record of the fault that executing an instruction raises, if it raises one. -/
def faultOf (i : Instr) (s : State) : Option FaultRecord :=
  match i with
  | .scd _ | .scr | .scl => scrollFault i s
  | .skp x | .sknp x => keyFault i x s
  | .drw _ _ n => blockFault i n.toNat s
  | .drw16 _ _ => if s.extendedMode then blockFault i 32 s else none
  | .ldB _ => blockFault i 3 s
  | .ldMemVx x | .ldVxMem x => blockFault i (x.toNat + 1) s
  | _ => none

/-- The parts that executing an instruction may write where it raises no fault. -/
def writtenBy (i : Instr) (s : State) : List Part :=
  match i with
  | .jp _ | .jpV0 _ | .seImm _ _ | .sneImm _ _ | .seReg _ _ | .sneReg _ _ | .skp _ | .sknp _ => [.pc]
  | .call _ => [.pc, .sp, .byte s.pushAddr, .byte (s.pushAddr + 1)]
  | .ret => [.pc, .sp]
  | .exit => [.pc, .status]
  | .low | .high => [.pc, .mode]
  | .cls | .scd _ | .scr | .scl => [.pc, s.activePart]
  | .ldImm x _ | .addImm x _ | .ldReg x _ | .orReg x _ | .andReg x _ | .xorReg x _ | .ldVxDt x | .ldVxK x =>
    [.pc, .reg x]
  | .addReg x _ | .sub x _ | .shr x _ | .subn x _ | .shl x _ => [.pc, .reg x, .reg vf]
  | .rnd x _ => [.pc, .reg x, .randCount]
  | .ldI _ | .ldF _ | .ldHf _ => [.pc, .index]
  | .addI _ => [.pc, .index, .reg vf]
  | .drw _ _ _ | .drw16 _ _ => [.pc, .reg vf, s.activePart]
  | .ldDtVx _ => [.pc, .dt]
  | .ldStVx _ => [.pc, .st]
  | .ldB _ => .pc :: bytesFrom s.index.toNat 3
  | .ldMemVx x => .pc :: bytesFrom s.index.toNat (x.toNat + 1)
  | .ldVxMem x => .pc :: regsTo x

theorem blockFault_eq_none {i : Instr} {n : Nat} {s : State} :
    blockFault i n s = none ↔ firstOutOfRange s.indexAddr n = none := by
  simp [blockFault]

theorem blockFault_eq_some {i : Instr} {n : Nat} {s : State} {r : FaultRecord} :
    blockFault i n s = some r ↔ ∃ a, firstOutOfRange s.indexAddr n = some a ∧
      r = ⟨.outOfRange, some s.pc, some (encode i), some a⟩ := by
  simp [blockFault, eq_comm]

theorem keyFault_eq_none {i : Instr} {x : Nibble} {s : State} :
    keyFault i x s = none ↔ ¬ 0xF < (s.reg x).toNat := by
  simp [keyFault]

theorem keyFault_eq_some {i : Instr} {x : Nibble} {s : State} {r : FaultRecord} :
    keyFault i x s = some r ↔ 0xF < (s.reg x).toNat ∧
      r = ⟨.outOfRange, some s.pc, some (encode i), some (s.reg x).toNat⟩ := by
  simp [keyFault, eq_comm]

theorem scrollFault_eq_none {i : Instr} {s : State} : scrollFault i s = none ↔ s.scrollAllowed = true := by
  simp [scrollFault]

theorem scrollFault_eq_some {i : Instr} {s : State} {r : FaultRecord} :
    scrollFault i s = some r ↔ s.scrollAllowed = false ∧
      r = ⟨.invalidOpcode, some s.pc, some (encode i), none⟩ := by
  unfold scrollFault
  cases s.scrollAllowed <;> simp [eq_comm]

/-! ### The instructions that may fault, where they do not -/

theorem exec_scd {n : Nibble} {s : State} (h : s.scrollAllowed = true) :
    exec (.scd n) s = .next (s.advance.onActiveGrid fun _ _ g => g.scrollDown n.toNat) :=
  congrArg _ (if_pos h)

theorem exec_scr {s : State} (h : s.scrollAllowed = true) :
    exec .scr s = .next (s.advance.onActiveGrid fun _ _ g => g.scrollRight4) :=
  congrArg _ (if_pos h)

theorem exec_scl {s : State} (h : s.scrollAllowed = true) :
    exec .scl s = .next (s.advance.onActiveGrid fun _ _ g => g.scrollLeft4) :=
  congrArg _ (if_pos h)

theorem exec_drw {x y n : Nibble} {s : State} (h : firstOutOfRange s.indexAddr n.toNat = none) :
    exec (.drw x y n) s = .next (s.advance.drawSprite x y (s.readBytes s.indexAddr n.toNat)) := by
  simp [exec, execDrw, h]

theorem exec_drw16_extended {x y : Nibble} {s : State} (hm : s.extendedMode = true)
    (h : firstOutOfRange s.indexAddr 32 = none) :
    exec (.drw16 x y) s = .next (s.advance.drawSprite x y (s.readWords s.indexAddr 16)) := by
  simp [exec, execDrw16, hm, h]

theorem exec_drw16_standard {x y : Nibble} {s : State} (hm : s.extendedMode = false) :
    exec (.drw16 x y) s = .next (s.advance.setReg vf 0x00#8) := by
  simp [exec, execDrw16, hm]

theorem exec_ldB {x : Nibble} {s : State} (h : firstOutOfRange s.indexAddr 3 = none) :
    exec (.ldB x) s = .next (s.advance.writeBytes s.indexAddr (decimalDigits (s.reg x))) := by
  simp [exec, execLdB, h]

theorem exec_ldMemVx {x : Nibble} {s : State} (h : firstOutOfRange s.indexAddr (x.toNat + 1) = none) :
    exec (.ldMemVx x) s = .next (s.advance.writeBytes s.indexAddr (s.regsUpTo x)) := by
  simp [exec, execLdMemVx, h]

theorem exec_ldVxMem {x : Nibble} {s : State} (h : firstOutOfRange s.indexAddr (x.toNat + 1) = none) :
    exec (.ldVxMem x) s = .next (s.advance.loadRegsUpTo x s.indexAddr) := by
  simp [exec, execLdVxMem, h]

theorem exec_skp {x : Nibble} {s : State} (h : ¬ 0xF < (s.reg x).toNat) :
    exec (.skp x) s = .next (s.advance.skipIf (s.key (s.reg x).toNat)) :=
  if_neg h

theorem exec_sknp {x : Nibble} {s : State} (h : ¬ 0xF < (s.reg x).toNat) :
    exec (.sknp x) s = .next (s.advance.skipIf (!s.key (s.reg x).toNat)) :=
  if_neg h

/-- With no key pressed the key wait goes back to itself: `PC` is as it was. -/
theorem exec_ldVxK_none {x : Nibble} {s : State} (h : s.firstKey = none) : exec (.ldVxK x) s = .next s := by
  simp [exec, execLdVxK, h, State.advance]

theorem exec_ldVxK_some {x : Nibble} {s : State} {k : Nat} (h : s.firstKey = some k) :
    exec (.ldVxK x) s = .next (s.advance.setReg x (BitVec.ofNat 8 k)) := by
  simp [exec, execLdVxK, h]

/-! ### The two outcomes of an instruction -/

/-- An instruction that faults enters the fault from the state before it (R241). -/
theorem exec_of_fault {i : Instr} {s : State} {r : FaultRecord} (h : faultOf i s = some r) :
    exec i s = .next (s.enterFault r) := by
  cases i with
  | scd | scr | scl =>
    obtain ⟨hs, rfl⟩ := scrollFault_eq_some.1 h
    simp only [exec, execScd, execScr, execScl, State.scroll, hs]
    rfl
  | skp | sknp =>
    obtain ⟨hk, rfl⟩ := keyFault_eq_some.1 h
    exact if_pos hk
  | drw | ldB | ldMemVx | ldVxMem =>
    obtain ⟨a, ha, rfl⟩ := blockFault_eq_some.1 h
    simp only [exec, execDrw, execLdB, execLdMemVx, execLdVxMem, ha]
    rfl
  | drw16 x y =>
    cases hm : s.extendedMode with
    | false => simp [faultOf, hm] at h
    | true =>
      obtain ⟨a, ha, rfl⟩ := blockFault_eq_some.1 (by simpa [faultOf, hm] using h)
      simp only [exec, execDrw16, hm, ha]
      rfl
  | _ => cases h

/-- An instruction that does not fault writes its parts alone. -/
theorem exec_of_no_fault {i : Instr} {s : State} (h : faultOf i s = none) :
    ∃ t, exec i s = .next t ∧ keepsOthers (writtenBy i s) s t := by
  cases i with
  | jp | jpV0 => exact ⟨_, rfl, keepsOthers_setPc s _⟩
  | seImm | sneImm | seReg | sneReg => exact ⟨_, rfl, s.advance_skipIf_keepsOthers _⟩
  | skp => exact ⟨_, exec_skp (keyFault_eq_none.1 h), s.advance_skipIf_keepsOthers _⟩
  | sknp => exact ⟨_, exec_sknp (keyFault_eq_none.1 h), s.advance_skipIf_keepsOthers _⟩
  | call nnn =>
    refine ⟨_, exec_call nnn s, ?_⟩
    have hw := s.writeBytes_keepsOthers s.pushAddr s.returnBytes
    have hr := keepsOthers_append (keepsOthers_setSp (s.writeBytes s.pushAddr s.returnBytes) (s.sp + 2#8))
      (keepsOthers_setPc _ (zext16 nnn))
    exact keepsOthers_mono (keepsOthers_append hw hr) (by simp [State.returnBytes, bytesFrom_two, writtenBy])
  | ret =>
    have hpc := keepsOthers_setPc s (s.readByte s.sp.toNat ++ s.readByte (s.sp.toNat + 1))
    exact ⟨_, exec_ret s, keepsOthers_append hpc (keepsOthers_setSp _ (s.sp - 2#8))⟩
  | exit => exact ⟨_, rfl, keepsOthers_append s.advance_keepsOthers (keepsOthers_setStatus _ _)⟩
  | low | high => exact ⟨_, rfl, s.advance_setMode_keepsOthers _⟩
  | cls => exact ⟨_, rfl, s.advance_onActiveGrid_keepsOthers _⟩
  | scd => exact ⟨_, exec_scd (scrollFault_eq_none.1 h), s.advance_onActiveGrid_keepsOthers _⟩
  | scr => exact ⟨_, exec_scr (scrollFault_eq_none.1 h), s.advance_onActiveGrid_keepsOthers _⟩
  | scl => exact ⟨_, exec_scl (scrollFault_eq_none.1 h), s.advance_onActiveGrid_keepsOthers _⟩
  | ldImm | addImm | ldReg | orReg | andReg | xorReg | ldVxDt =>
    exact ⟨_, rfl, s.advance_setReg_keepsOthers _ _⟩
  | ldVxK x =>
    cases hk : s.firstKey with
    | none => exact ⟨_, exec_ldVxK_none hk, keepsOthers_refl _ s⟩
    | some k => exact ⟨_, exec_ldVxK_some hk, s.advance_setReg_keepsOthers _ _⟩
  | addReg | sub | shr | subn | shl =>
    exact ⟨_, rfl, keepsOthers_append s.advance_keepsOthers (s.advance.withFlag_keepsOthers _ _ _ _)⟩
  | rnd =>
    exact ⟨_, rfl, keepsOthers_append (s.advance_setReg_keepsOthers _ _) (keepsOthers_setRandCount _ _)⟩
  | ldI | ldF | ldHf => exact ⟨_, rfl, s.advance_setIndex_keepsOthers _⟩
  | addI =>
    exact ⟨_, rfl, keepsOthers_append (s.advance_setIndex_keepsOthers _) (State.setReg_keepsOthers _ vf _)⟩
  | drw => exact ⟨_, exec_drw (blockFault_eq_none.1 h), s.advance_drawSprite_keepsOthers _ _ _⟩
  | drw16 x y =>
    cases hm : s.extendedMode with
    | false =>
      refine ⟨_, exec_drw16_standard hm, keepsOthers_mono (s.advance_setReg_keepsOthers vf _) ?_⟩
      simp [writtenBy]
    | true =>
      have hb : blockFault (.drw16 x y) 32 s = none := by simpa [faultOf, hm] using h
      exact ⟨_, exec_drw16_extended hm (blockFault_eq_none.1 hb), s.advance_drawSprite_keepsOthers _ _ _⟩
  | ldDtVx => exact ⟨_, rfl, keepsOthers_append s.advance_keepsOthers (keepsOthers_setDt _ _)⟩
  | ldStVx => exact ⟨_, rfl, keepsOthers_append s.advance_keepsOthers (keepsOthers_setSt _ _)⟩
  | ldB x =>
    exact ⟨_, exec_ldB (blockFault_eq_none.1 h), s.advance_writeBytes_keepsOthers _ (decimalDigits (s.reg x))⟩
  | ldMemVx x =>
    refine ⟨_, exec_ldMemVx (blockFault_eq_none.1 h), ?_⟩
    have hw := s.advance_writeBytes_keepsOthers s.indexAddr (s.regsUpTo x)
    rwa [State.regsUpTo_length] at hw
  | ldVxMem =>
    exact ⟨_, exec_ldVxMem (blockFault_eq_none.1 h),
      keepsOthers_append s.advance_keepsOthers (s.advance.loadRegsUpTo_keepsOthers _ _)⟩

/-- The next state of an instruction: the state before it with a fault, or one in which it has written its parts
alone. -/
theorem exec_cases {i : Instr} {s t : State} (h : exec i s = .next t) :
    (∃ r, faultOf i s = some r ∧ t = s.enterFault r) ∨
    (faultOf i s = none ∧ keepsOthers (writtenBy i s) s t) := by
  cases hf : faultOf i s with
  | some r =>
    rw [exec_of_fault hf] at h
    cases h
    exact .inl ⟨r, rfl, rfl⟩
  | none =>
    obtain ⟨u, hu, hk⟩ := exec_of_no_fault hf
    rw [hu] at h
    cases h
    exact .inr ⟨rfl, hk⟩

/-- The frame of an instruction that answers a state it has computed without a fault. -/
theorem exec_frame {i : Instr} {s t : State} (h : exec i s = .next t) (hf : faultOf i s = none) :
    keepsOthers (writtenBy i s) s t := by
  rcases exec_cases h with ⟨r, hr, -⟩ | ⟨-, hk⟩
  · rw [hf] at hr
    cases hr
  · exact hk

/-- A part that an instruction changes, the status aside, is one of those it may write. -/
theorem mem_writtenBy_of_changed {i : Instr} {s t : State} (h : exec i s = .next t) {p : Part}
    (hp : ¬ p.same s t) (hs : p ≠ .status) : p ∈ writtenBy i s := by
  by_contra hw
  rcases exec_cases h with ⟨r, -, rfl⟩ | ⟨-, hk⟩
  · exact hp (s.enterFault_keepsOthers r p (by simpa using hs))
  · exact hp (hk p hw)

/-- Every instruction answers a next state. -/
theorem exec_total (i : Instr) (s : State) : ∃ t, exec i s = .next t := by
  cases hf : faultOf i s with
  | some r => exact ⟨_, exec_of_fault hf⟩
  | none =>
    obtain ⟨t, ht, -⟩ := exec_of_no_fault hf
    exact ⟨t, ht⟩

end Sys2Proof.Machine
end

/-! PROOFS. Which instructions fault, with which records, and which instructions write which part of the state
(R32 to R44, R240 to R243). -/

section
namespace Sys2Proof.Machine

/-! ### Which part is written by which instruction -/

theorem State.activePart_cases (s : State) : s.activePart = .stdGrid ∨ s.activePart = .extGrid := by
  unfold State.activePart
  cases s.extendedMode <;> simp

/-- A part other than the two grids is not the active grid. -/
theorem State.ne_activePart {p : Part} (s : State) (h1 : p ≠ .stdGrid) (h2 : p ≠ .extGrid) :
    p ≠ s.activePart := by
  rcases s.activePart_cases with h | h <;> rw [h] <;> assumption

section
variable {i : Instr} {s : State}

theorem index_mem_writtenBy (h : Part.index ∈ writtenBy i s) : ∃ nnn x, i ∈ [.ldI nnn, .addI x, .ldF x, .ldHf x] := by
  have hg := s.ne_activePart (p := .index) (by simp) (by simp)
  cases i <;> simp [writtenBy, bytesFrom, regsTo, hg] at h ⊢

theorem sp_mem_writtenBy (h : Part.sp ∈ writtenBy i s) : ∃ nnn, i ∈ [.call nnn, .ret] := by
  have hg := s.ne_activePart (p := .sp) (by simp) (by simp)
  cases i <;> simp [writtenBy, bytesFrom, regsTo, hg] at h ⊢

theorem dt_mem_writtenBy (h : Part.dt ∈ writtenBy i s) : ∃ x, i = .ldDtVx x := by
  have hg := s.ne_activePart (p := .dt) (by simp) (by simp)
  cases i <;> simp [writtenBy, bytesFrom, regsTo, hg] at h ⊢

theorem st_mem_writtenBy (h : Part.st ∈ writtenBy i s) : ∃ x, i = .ldStVx x := by
  have hg := s.ne_activePart (p := .st) (by simp) (by simp)
  cases i <;> simp [writtenBy, bytesFrom, regsTo, hg] at h ⊢

theorem mode_mem_writtenBy (h : Part.mode ∈ writtenBy i s) : i ∈ [.low, .high] := by
  have hg := s.ne_activePart (p := .mode) (by simp) (by simp)
  cases i <;> simp [writtenBy, bytesFrom, regsTo, hg] at h ⊢

theorem grid_mem_writtenBy (h : Part.stdGrid ∈ writtenBy i s ∨ Part.extGrid ∈ writtenBy i s) :
    ∃ x y n, i ∈ [.cls, .scd n, .scr, .scl, .drw x y n, .drw16 x y] := by
  cases i <;> simp [writtenBy, bytesFrom, regsTo] at h ⊢

theorem status_mem_writtenBy (h : Part.status ∈ writtenBy i s) : i = .exit := by
  have hg := s.ne_activePart (p := .status) (by simp) (by simp)
  cases i <;> simp [writtenBy, bytesFrom, regsTo, hg] at h ⊢

theorem byte_mem_writtenBy {a : Nat} (h : Part.byte a ∈ writtenBy i s) :
    ∃ nnn x, i ∈ [.call nnn, .ldB x, .ldMemVx x] := by
  have hg := s.ne_activePart (p := .byte a) (by simp) (by simp)
  cases i <;> simp [writtenBy, regsTo, hg] at h ⊢

theorem randCount_mem_writtenBy (h : Part.randCount ∈ writtenBy i s) : ∃ x kk, i = .rnd x kk := by
  have hg := s.ne_activePart (p := .randCount) (by simp) (by simp)
  cases i <;> simp [writtenBy, bytesFrom, regsTo, hg] at h ⊢

theorem vf_mem_writtenBy (h : Part.reg vf ∈ writtenBy i s) :
    (∃ x y n, i ∈ [.addReg x y, .sub x y, .shr x y, .subn x y, .shl x y, .drw x y n, .drw16 x y, .addI x]) ∨
    (∃ y kk, i ∈ [.ldImm vf kk, .addImm vf kk, .ldReg vf y, .orReg vf y, .andReg vf y, .xorReg vf y,
      .rnd vf kk, .ldVxDt vf, .ldVxK vf, .ldVxMem vf]) := by
  have hg := s.ne_activePart (p := .reg vf) (by simp) (by simp)
  cases i with
  | ldVxMem x =>
    have hx : vf.toNat ≤ x.toNat := by simpa [writtenBy, reg_mem_regsTo] using h
    have hvf : x = vf := by bv_omega
    simp [hvf]
  | _ => simp [writtenBy, bytesFrom, hg] at h ⊢ <;> simp [h]

theorem not_mem_writtenBy : Part.tickPos ∉ writtenBy i s ∧ Part.keys ∉ writtenBy i s ∧ Part.cfg ∉ writtenBy i s := by
  have ht := s.ne_activePart (p := .tickPos) (by simp) (by simp)
  have hk := s.ne_activePart (p := .keys) (by simp) (by simp)
  have hc := s.ne_activePart (p := .cfg) (by simp) (by simp)
  cases i <;> simp [writtenBy, bytesFrom, regsTo, ht, hk, hc]

end

/-- No instruction writes the tick position, the keypad flags or the parameters. -/
theorem exec_keeps_inputs {i : Instr} {s t : State} (h : exec i s = .next t) :
    t.tickPos = s.tickPos ∧ t.keys = s.keys ∧ t.cfg = s.cfg := by
  obtain ⟨ht, hk, hc⟩ := not_mem_writtenBy (i := i) (s := s)
  rcases exec_cases h with ⟨r, -, rfl⟩ | ⟨-, hw⟩
  · exact ⟨rfl, rfl, rfl⟩
  · exact ⟨hw _ ht, hw _ hk, hw _ hc⟩

/-- The status after an instruction: a fault, the exit, or the one before. -/
theorem exec_status {i : Instr} {s t : State} (h : exec i s = .next t) :
    (∃ r, faultOf i s = some r ∧ t = s.enterFault r) ∨ (i = .exit ∧ t.status = .exited) ∨ t.status = s.status := by
  rcases exec_cases h with hf | ⟨-, hw⟩
  · exact .inl hf
  · by_cases hs : Part.status ∈ writtenBy i s
    · obtain rfl := status_mem_writtenBy hs
      cases h
      exact .inr (.inl ⟨rfl, rfl⟩)
    · exact .inr (.inr (hw _ hs))

/-- From `Running`, a `Faulted` state after an instruction is one with that instruction's fault. -/
theorem exec_faulted {i : Instr} {s t : State} {r : FaultRecord} (hr : s.status = .running)
    (h : exec i s = .next t) (ht : t.status = .faulted r) : faultOf i s = some r ∧ t = s.enterFault r := by
  rcases exec_status h with ⟨q, hq, rfl⟩ | ⟨-, he⟩ | he
  · cases ht
    exact ⟨hq, rfl⟩
  · rw [he] at ht
    cases ht
  · rw [he, hr] at ht
    cases ht

/-! ### The records of the faults -/

theorem lt_of_firstOutOfRange {a n b : Nat} (h : firstOutOfRange a n = some b) : 0xFFF < b := by
  rw [firstOutOfRange_eq] at h
  split at h
  · cases h
  · cases h
    omega

theorem State.scrollAllowed_eq_false {s : State} (h : s.scrollAllowed = false) :
    s.cfg.scrollInStandard = .fault ∧ s.extendedMode = false := by
  unfold State.scrollAllowed at h
  cases hc : s.cfg.scrollInStandard with
  | execute => simp [hc] at h
  | fault => exact ⟨rfl, by simpa [hc] using h⟩

/-- The record of an instruction's fault holds its `PC` and its word. -/
theorem faultOf_record {i : Instr} {s : State} {r : FaultRecord} (h : faultOf i s = some r) :
    r.pc = some s.pc ∧ r.opcode = some (encode i) := by
  cases i with
  | scd | scr | scl =>
    obtain ⟨-, rfl⟩ := scrollFault_eq_some.1 h
    exact ⟨rfl, rfl⟩
  | skp | sknp =>
    obtain ⟨-, rfl⟩ := keyFault_eq_some.1 h
    exact ⟨rfl, rfl⟩
  | drw | ldB | ldMemVx | ldVxMem =>
    obtain ⟨-, -, rfl⟩ := blockFault_eq_some.1 h
    exact ⟨rfl, rfl⟩
  | drw16 =>
    simp only [faultOf] at h
    split at h
    · obtain ⟨-, -, rfl⟩ := blockFault_eq_some.1 h
      exact ⟨rfl, rfl⟩
    · cases h
  | _ => cases h

/-- The three kinds of fault, each with its instructions (R240, R243). -/
theorem faultOf_kind {i : Instr} {s : State} {r : FaultRecord} (h : faultOf i s = some r) :
    (r.kind = .outOfRange ∧ (∃ a, r.addr = some a ∧ 0xFFF < a) ∧
      ∃ x y n, i ∈ [.drw x y n, .drw16 x y, .ldB x, .ldMemVx x, .ldVxMem x]) ∨
    (r.kind = .outOfRange ∧ (∃ a, r.addr = some a ∧ 0xF < a) ∧ ∃ x, i ∈ [.skp x, .sknp x]) ∨
    (r.kind = .invalidOpcode ∧ r.addr = none ∧ s.cfg.scrollInStandard = .fault ∧ s.extendedMode = false ∧
      ∃ n, i ∈ [.scd n, .scr, .scl]) := by
  cases i with
  | scd | scr | scl =>
    obtain ⟨hs, rfl⟩ := scrollFault_eq_some.1 h
    obtain ⟨hc, hm⟩ := State.scrollAllowed_eq_false hs
    exact .inr (.inr ⟨rfl, rfl, hc, hm, by simp⟩)
  | skp | sknp =>
    obtain ⟨hk, rfl⟩ := keyFault_eq_some.1 h
    exact .inr (.inl ⟨rfl, ⟨_, rfl, hk⟩, by simp⟩)
  | drw | ldB | ldMemVx | ldVxMem =>
    obtain ⟨a, ha, rfl⟩ := blockFault_eq_some.1 h
    exact .inl ⟨rfl, ⟨a, rfl, lt_of_firstOutOfRange ha⟩, by simp⟩
  | drw16 =>
    simp only [faultOf] at h
    split at h
    · obtain ⟨a, ha, rfl⟩ := blockFault_eq_some.1 h
      exact .inl ⟨rfl, ⟨a, rfl, lt_of_firstOutOfRange ha⟩, by simp⟩
    · cases h
  | _ => cases h

/-! ### The obligations -/

/-- Settles O12: a fault is entered from the state before the instruction, with the record of its fault. -/
theorem faultDiscardsEveryEffect : Obligations.FaultDiscardsEveryEffect := by
  unfold Obligations.FaultDiscardsEveryEffect
  intro i s t r hr h ht
  obtain ⟨hf, rfl⟩ := exec_faulted hr h ht
  exact ⟨s.enterFault_keepsOthers r, faultOf_record hf⟩

/-- Settles O13: the fault is the one that `faultOf` names, whose kinds are known. -/
theorem onlyTheListedInstructionsFault : Obligations.OnlyTheListedInstructionsFault := by
  unfold Obligations.OnlyTheListedInstructionsFault
  intro i s t r hr h ht
  exact faultOf_kind (exec_faulted hr h ht).1

/-- Settles O24: a changed part is among those its instruction may write, and each such part has only its
writers. -/
theorem specialStateHasOnlyItsWriters : Obligations.SpecialStateHasOnlyItsWriters := by
  unfold Obligations.SpecialStateHasOnlyItsWriters
  intro i s t h
  have changed (p : Part) (hs : p ≠ .status) (hp : ¬ p.same s t) : p ∈ writtenBy i s :=
    mem_writtenBy_of_changed h hp hs
  refine ⟨fun hp => index_mem_writtenBy (changed .index (by simp) hp),
    fun hp => sp_mem_writtenBy (changed .sp (by simp) hp),
    fun hp => dt_mem_writtenBy (changed .dt (by simp) hp),
    fun hp => st_mem_writtenBy (changed .st (by simp) hp),
    fun hp => mode_mem_writtenBy (changed .mode (by simp) hp),
    fun hp => grid_mem_writtenBy (hp.imp (changed .stdGrid (by simp)) (changed .extGrid (by simp))),
    fun he => ?_,
    fun ⟨a, hp⟩ => byte_mem_writtenBy (changed (.byte a) (by simp) hp),
    fun hp => randCount_mem_writtenBy (changed .randCount (by simp) hp),
    (exec_keeps_inputs h).1⟩
  rcases exec_status h with ⟨r, -, rfl⟩ | ⟨hi, -⟩ | hs
  · cases he
  · exact .inr hi
  · exact .inl (hs ▸ he)

/-- Settles O25: `VF` is among the parts of a flag-writing instruction, or the instruction names it. -/
theorem flagRegisterHasOnlyItsWriters : Obligations.FlagRegisterHasOnlyItsWriters := by
  unfold Obligations.FlagRegisterHasOnlyItsWriters
  intro i s t h hne
  exact vf_mem_writtenBy (mem_writtenBy_of_changed h (p := .reg vf) hne (by simp))

end Sys2Proof.Machine
end

/-! PROOFS. What a step does: the three ways an instruction step can go, and the end of a run (R67, R98, R120,
R248, R260). -/

section
namespace Sys2Proof.Machine

/-! ### The start of a step's turn -/

theorem State.beginStep_eq (s : State) : s.beginStep = if s.tickPos = 0 then s.timerTick else s := rfl

theorem State.beginStep_of_ne {s : State} (h : s.tickPos ≠ 0) : s.beginStep = s := if_neg h

theorem State.beginStep_keepsOthers (s : State) : keepsOthers [.dt, .st] s s.beginStep := by
  rw [State.beginStep_eq]
  split
  · exact s.timerTick_keepsOthers
  · exact keepsOthers_refl _ s

@[simp] theorem State.beginStep_pc (s : State) : s.beginStep.pc = s.pc :=
  s.beginStep_keepsOthers .pc (by simp)

@[simp] theorem State.beginStep_status (s : State) : s.beginStep.status = s.status :=
  s.beginStep_keepsOthers .status (by simp)

@[simp] theorem State.beginStep_tickPos (s : State) : s.beginStep.tickPos = s.tickPos :=
  s.beginStep_keepsOthers .tickPos (by simp)

@[simp] theorem State.beginStep_keys (s : State) : s.beginStep.keys = s.keys :=
  s.beginStep_keepsOthers .keys (by simp)

@[simp] theorem State.beginStep_cfg (s : State) : s.beginStep.cfg = s.cfg :=
  s.beginStep_keepsOthers .cfg (by simp)

/-- The timer phase does not touch what a fetch reads. -/
@[simp] theorem State.beginStep_fetch (s : State) : s.beginStep.fetch = s.fetch := by
  rw [State.beginStep_eq]
  split <;> rfl

/-! ### The end of a step's turn -/

@[simp] theorem State.endStep_status (s : State) : s.endStep.status = s.status := rfl

@[simp] theorem State.endStep_keys (s : State) : s.endStep.keys = s.keys := rfl

@[simp] theorem State.endStep_cfg (s : State) : s.endStep.cfg = s.cfg := rfl

theorem State.endStep_tickPos_of_not_running {s : State} (h : s.status ≠ .running) : s.endStep.tickPos = 0 :=
  if_neg fun hc => h hc.1

/-! ### One instruction step (R120) -/

theorem engineStep_of_error {s : State} {a : Nat} (h : s.fetch = .error a) :
    engineStep s = .next (s.enterFault ⟨.outOfRange, some s.pc, none, some a⟩) := by
  simp only [engineStep, h]

theorem engineStep_of_invalid {s : State} {w : Word} {e : DecodeError} (h : s.fetch = .ok w)
    (he : decode w = .error e) :
    engineStep s = .next (s.enterFault ⟨.invalidOpcode, some s.pc, some w, none⟩) := by
  simp only [engineStep, h, he]
  rfl

theorem engineStep_of_decoded {s : State} {w : Word} {i : Instr} (h : s.fetch = .ok w) (hi : decode w = .ok i) :
    engineStep s = exec i s := by
  simp only [engineStep, h, hi]

/-- An instruction step enters a fault with a record of R240, or is the execution of the fetched instruction. -/
theorem engineStep_cases (s : State) :
    ∃ t, engineStep s = .next t ∧ ((∃ r, r.wf = true ∧ t = s.enterFault r) ∨
      ∃ i, s.fetch = .ok (encode i) ∧ exec i s = .next t) := by
  cases hf : s.fetch with
  | error a => exact ⟨_, engineStep_of_error hf, .inl ⟨_, rfl, rfl⟩⟩
  | ok w =>
    cases hd : decode w with
    | error e => exact ⟨_, engineStep_of_invalid hf hd, .inl ⟨_, rfl, rfl⟩⟩
    | ok i =>
      obtain ⟨t, ht⟩ := exec_total i s
      obtain ⟨hw, -⟩ := decode_isRowOf hd
      exact ⟨t, (engineStep_of_decoded hf hd).trans ht, .inr ⟨i, by rw [hw], ht⟩⟩

theorem engineStep_keeps_inputs {s t : State} (h : engineStep s = .next t) :
    t.tickPos = s.tickPos ∧ t.keys = s.keys ∧ t.cfg = s.cfg := by
  obtain ⟨u, hu, hc⟩ := engineStep_cases s
  rw [hu] at h
  cases h
  rcases hc with ⟨r, -, rfl⟩ | ⟨i, -, he⟩
  · exact ⟨rfl, rfl, rfl⟩
  · exact exec_keeps_inputs he

/-! ### One step of the machine -/

theorem step_of_halted {s : State} (h : s.status ≠ .running) : step s = .next s := if_neg h

theorem step_of_running {s : State} (hr : s.status = .running) (ht : s.tickPos < s.cfg.ipt) :
    step s = endOutcome (engineStep s.beginStep) := by
  simp only [step, turn, hr, ht, if_true]

theorem step_of_no_step_left {s : State} (hr : s.status = .running) (ht : ¬ s.tickPos < s.cfg.ipt) :
    step s = .next { s.beginStep with tickPos := 0 } := by
  simp only [step, turn, hr, ht, if_true, if_false]

/-- Every step answers a next state. -/
theorem step_total (s : State) : ∃ t, step s = .next t := by
  by_cases hr : s.status = .running
  · by_cases ht : s.tickPos < s.cfg.ipt
    · obtain ⟨u, hu, -⟩ := engineStep_cases s.beginStep
      exact ⟨u.endStep, by rw [step_of_running hr ht, hu]; rfl⟩
    · exact ⟨_, step_of_no_step_left hr ht⟩
  · exact ⟨s, step_of_halted hr⟩

/-- A step that enters a fault ends the tick, and besides the status the state is the one after the timer
phase. -/
theorem step_of_fault {s : State} {r : FaultRecord} (hr : s.status = .running) (ht : s.tickPos < s.cfg.ipt)
    (he : engineStep s.beginStep = .next (s.beginStep.enterFault r)) :
    ∃ t, step s = .next t ∧ t.status = .faulted r ∧ t.tickPos = 0 ∧
      keepsOthers [.status, .tickPos] s.beginStep t := by
  refine ⟨(s.beginStep.enterFault r).endStep, ?_, rfl, ?_, ?_⟩
  · rw [step_of_running hr ht, he]
    rfl
  · exact State.endStep_tickPos_of_not_running (by simp)
  · exact keepsOthers_append (s.beginStep.enterFault_keepsOthers r) (State.endStep_keepsOthers _)

/-! ### Runs out of `Running` -/

theorem run_of_halted {s : State} (h : s.status ≠ .running) (n : Nat) : run n s = .next s := by
  induction n with
  | zero => rfl
  | succ n ih => simp only [run, step_of_halted h, ih]

theorem State.setKeys_keepsOthers (s : State) (k : Keypad) : keepsOthers [.keys] s (s.setKeys k) :=
  fun p hp => by cases p <;> simp at hp <;> rfl

theorem runKeys_of_halted {s t : State} {ks : List Keypad} (h : s.status ≠ .running)
    (hr : runKeys ks s = .next t) : keepsOthers [.keys] s t := by
  induction ks generalizing s with
  | nil =>
    cases hr
    exact keepsOthers_refl _ _
  | cons k ks ih =>
    have hs : step (s.setKeys k) = .next (s.setKeys k) := step_of_halted h
    simp only [runKeys, hs] at hr
    exact keepsOthers_trans (s.setKeys_keepsOthers k) (ih (s := s.setKeys k) h hr)

/-! ### The obligations -/

/-- Settles O9: after the timer phase the same word is fetched, and its instruction is executed. -/
theorem stepRunsTheDecodedInstruction : Obligations.StepRunsTheDecodedInstruction := by
  unfold Obligations.StepRunsTheDecodedInstruction
  intro s w i hr ht hf hd
  rw [step_of_running hr ht, engineStep_of_decoded (s.beginStep_fetch.trans hf) hd]
  rfl

/-- Settles O10: the fetch answers the first address beyond the store, and its fault ends the tick. -/
theorem fetchOutOfRangeFaults : Obligations.FetchOutOfRangeFaults := by
  unfold Obligations.FetchOutOfRangeFaults
  intro s hr ht hpc
  have hf : s.beginStep.fetch = .error (max s.pc.toNat 4096) :=
    s.beginStep_fetch.trans (State.fetch_eq_error (by omega))
  have haddr : max s.pc.toNat 4096 = if s.pc.toNat = 0xFFF then 0x1000 else s.pc.toNat := by
    split <;> omega
  have he := engineStep_of_error hf
  rw [haddr, State.beginStep_pc] at he
  exact step_of_fault hr ht he

/-- Settles O11: the fetch answers the word, and the fault of its decoding ends the tick. -/
theorem invalidWordFaults : Obligations.InvalidWordFaults := by
  unfold Obligations.InvalidWordFaults
  intro s w hr ht hf ⟨e, hd⟩
  have he := engineStep_of_invalid (s.beginStep_fetch.trans hf) hd
  rw [State.beginStep_pc] at he
  exact step_of_fault hr ht he

/-- Settles O14: out of `Running` a step answers the state itself, so a run does, by induction on its length. -/
theorem nothingChangesAfterTheRunHasEnded : Obligations.NothingChangesAfterTheRunHasEnded := by
  unfold Obligations.NothingChangesAfterTheRunHasEnded
  intro s h
  exact ⟨run_of_halted h, fun ks t => runKeys_of_halted h, if_neg h⟩

/-- Settles O15: a fault is a next state too. -/
theorem everyStepAnswersANextState : Obligations.EveryStepAnswersANextState := by
  unfold Obligations.EveryStepAnswersANextState
  exact ⟨exec_total, step_total⟩

/-- A timer that an instruction step changes is set by the fetched instruction. -/
theorem engineStep_timers {s t : State} (h : engineStep s = .next t) :
    (t.dt = s.dt ∨ ∃ x, s.fetch = .ok (encode (.ldDtVx x)) ∧ t.dt = s.reg x) ∧
    (t.st = s.st ∨ ∃ x, s.fetch = .ok (encode (.ldStVx x)) ∧ t.st = s.reg x) := by
  obtain ⟨u, hu, hc⟩ := engineStep_cases s
  rw [hu] at h
  cases h
  rcases hc with ⟨r, -, rfl⟩ | ⟨i, hf, he⟩
  · exact ⟨.inl rfl, .inl rfl⟩
  · constructor
    · by_cases hd : t.dt = s.dt
      · exact .inl hd
      · obtain ⟨x, rfl⟩ := dt_mem_writtenBy (mem_writtenBy_of_changed he (p := .dt) hd (by simp))
        cases he
        exact .inr ⟨x, hf, rfl⟩
    · by_cases hd : t.st = s.st
      · exact .inl hd
      · obtain ⟨x, rfl⟩ := st_mem_writtenBy (mem_writtenBy_of_changed he (p := .st) hd (by simp))
        cases he
        exact .inr ⟨x, hf, rfl⟩

/-- Settles O19: inside a tick no timer phase runs, and a timer that changes is set by the fetched
instruction. -/
theorem timersHoldInsideATick : Obligations.TimersHoldInsideATick := by
  unfold Obligations.TimersHoldInsideATick
  intro s t hp h
  rcases step_cases h with ⟨-, rfl⟩ | ⟨-, -, rfl⟩ | ⟨-, -, u, hu, rfl⟩
  · exact ⟨.inl rfl, .inl rfl⟩
  · rw [State.beginStep_of_ne hp]
    exact ⟨.inl rfl, .inl rfl⟩
  · rw [State.beginStep_of_ne hp] at hu
    have htimers := engineStep_timers hu
    exact htimers

theorem step_keeps_inputs {s t : State} (h : step s = .next t) : t.keys = s.keys ∧ t.cfg = s.cfg := by
  rcases step_cases h with ⟨-, rfl⟩ | ⟨-, -, rfl⟩ | ⟨-, -, u, hu, rfl⟩
  · exact ⟨rfl, rfl⟩
  · exact ⟨s.beginStep_keys, s.beginStep_cfg⟩
  · obtain ⟨-, hk, hc⟩ := engineStep_keeps_inputs hu
    exact ⟨hk.trans s.beginStep_keys, hc.trans s.beginStep_cfg⟩

/-- Settles O20: neither the timer phase nor an instruction writes them. -/
theorem coreNeverWritesItsInputs : Obligations.CoreNeverWritesItsInputs := by
  unfold Obligations.CoreNeverWritesItsInputs
  exact fun s t => step_keeps_inputs

end Sys2Proof.Machine
end

/-! PROOFS. The invariant of the machine: what every instruction, every step, every run and every boot keeps of it
(R39, R70, R240, R258). -/

section
namespace Sys2Proof.Machine

/-! ### The part of the invariant that instructions keep -/

/-- The invariant without its two clauses on the tick position, which the step keeps and an instruction does not. -/
structure State.DataInv (s : State) : Prop where
  memory : Memory.wf s.cfg.fonts s.mem
  spEven : s.sp.toNat % 2 = 0
  std    : s.stdGrid.onOff
  ext    : s.extGrid.onOff
  record : s.status.wf = true

theorem State.Inv.data {s : State} (h : s.Inv) : s.DataInv :=
  ⟨h.memory, h.spEven, h.std, h.ext, h.record⟩

/-- At a tick boundary the two parts of the invariant are one. -/
theorem State.DataInv.inv_of_tickPos {s : State} (h : s.DataInv) (ht : s.tickPos = 0) : s.Inv :=
  ⟨h.memory, h.spEven, h.std, h.ext, .inl ht, .inr ht, h.record⟩

/-- The end of a step's turn establishes the clauses on the tick position. -/
theorem State.DataInv.endStep {s : State} (h : s.DataInv) : s.endStep.Inv := by
  by_cases hc : s.status = .running ∧ s.tickPos + 1 < s.cfg.ipt
  · have ht : s.endStep.tickPos = s.tickPos + 1 := if_pos hc
    exact ⟨h.memory, h.spEven, h.std, h.ext, .inr (ht ▸ hc.2), .inl hc.1, h.record⟩
  · exact State.DataInv.inv_of_tickPos ⟨h.memory, h.spEven, h.std, h.ext, h.record⟩ (if_neg hc)

/-! ### The shared operations keep it -/

section
variable {s : State} (hs : s.DataInv)
include hs

theorem State.DataInv.setReg (x : Nibble) (b : Byte) : (s.setReg x b).DataInv :=
  ⟨hs.memory, hs.spEven, hs.std, hs.ext, hs.record⟩

theorem State.DataInv.setPc (w : Word) : State.DataInv { s with pc := w } :=
  ⟨hs.memory, hs.spEven, hs.std, hs.ext, hs.record⟩

theorem State.DataInv.setIndex (w : Word) : State.DataInv { s with index := w } :=
  ⟨hs.memory, hs.spEven, hs.std, hs.ext, hs.record⟩

theorem State.DataInv.setSp {b : Byte} (hb : b.toNat % 2 = 0) : State.DataInv { s with sp := b } :=
  ⟨hs.memory, hb, hs.std, hs.ext, hs.record⟩

theorem State.DataInv.setTimers (dt st : Byte) : State.DataInv { s with dt := dt, st := st } :=
  ⟨hs.memory, hs.spEven, hs.std, hs.ext, hs.record⟩

theorem State.DataInv.setMode (m : Bool) : State.DataInv { s with extendedMode := m } :=
  ⟨hs.memory, hs.spEven, hs.std, hs.ext, hs.record⟩

theorem State.DataInv.drawnRandom : s.drawnRandom.DataInv :=
  ⟨hs.memory, hs.spEven, hs.std, hs.ext, hs.record⟩

theorem State.DataInv.signalExit : s.signalExit.DataInv :=
  ⟨hs.memory, hs.spEven, hs.std, hs.ext, rfl⟩

theorem State.DataInv.enterFault {r : FaultRecord} (hr : r.wf = true) : (s.enterFault r).DataInv :=
  ⟨hs.memory, hs.spEven, hs.std, hs.ext, hr⟩

theorem State.DataInv.beginStep : s.beginStep.DataInv := by
  rw [State.beginStep_eq]
  split
  · exact hs.setTimers _ _
  · exact hs

theorem State.DataInv.skipIf (c : Bool) : (s.skipIf c).DataInv := by
  cases c with
  | false => exact hs
  | true => exact hs.setPc _

theorem State.DataInv.withFlag (x y : Nibble) (f r : Byte → Byte → Byte) : (s.withFlag x y f r).DataInv := by
  rw [State.withFlag_eq]
  exact ⟨hs.memory, hs.spEven, hs.std, hs.ext, hs.record⟩

theorem State.DataInv.loadRegsUpTo (x : Nibble) (a : Nat) : (s.loadRegsUpTo x a).DataInv := by
  rw [State.loadRegsUpTo_eq]
  exact ⟨hs.memory, hs.spEven, hs.std, hs.ext, hs.record⟩

theorem State.DataInv.writeBytes {a : Nat} {bs : List Byte} (ha : a + bs.length ≤ 4096) :
    (s.writeBytes a bs).DataInv := by
  rw [State.writeBytes_eq]
  exact ⟨State.writeBytes_keeps_wf ha hs.memory, hs.spEven, hs.std, hs.ext, hs.record⟩

theorem State.DataInv.onActiveGrid {f : (w h : Nat) → Grid w h → Grid w h}
    (hf : ∀ w h g, g.onOff → (f w h g).onOff) : (s.onActiveGrid f).DataInv := by
  unfold State.onActiveGrid
  split
  · exact ⟨hs.memory, hs.spEven, hs.std, hf _ _ _ hs.ext, hs.record⟩
  · exact ⟨hs.memory, hs.spEven, hf _ _ _ hs.std, hs.ext, hs.record⟩

theorem State.DataInv.drawSprite {k : Nat} (x y : Nibble) (rows : List (BitVec k)) :
    (s.drawSprite x y rows).DataInv := by
  obtain ⟨hstd, hext⟩ := s.onOff_drawSprite x y rows hs.std hs.ext
  rw [State.drawSprite_eq]
  exact ⟨hs.memory, hs.spEven, hstd, hext, hs.record⟩

end

/-! ### Every instruction keeps it -/

theorem faultOf_wf {i : Instr} {s : State} {r : FaultRecord} (h : faultOf i s = some r) : r.wf = true := by
  obtain ⟨hpc, hop⟩ := faultOf_record h
  rcases faultOf_kind h with ⟨hk, ⟨a, ha, -⟩, -⟩ | ⟨hk, ⟨a, ha, -⟩, -⟩ | ⟨hk, ha, -⟩ <;>
    simp [FaultRecord.wf, hk, hpc, hop, ha]

theorem exec_keeps_dataInv {i : Instr} {s t : State} (hs : s.DataInv) (h : exec i s = .next t) : t.DataInv := by
  suffices hx : ∃ u, exec i s = .next u ∧ u.DataInv by
    obtain ⟨u, hu, hi⟩ := hx
    rw [hu] at h
    cases h
    exact hi
  have ha : s.advance.DataInv := hs.setPc _
  cases hf : faultOf i s with
  | some r => exact ⟨_, exec_of_fault hf, hs.enterFault (faultOf_wf hf)⟩
  | none =>
    cases i with
    | jp | jpV0 => exact ⟨_, rfl, hs.setPc _⟩
    | seImm | sneImm | seReg | sneReg => exact ⟨_, rfl, ha.skipIf _⟩
    | skp => exact ⟨_, exec_skp (keyFault_eq_none.1 hf), ha.skipIf _⟩
    | sknp => exact ⟨_, exec_sknp (keyFault_eq_none.1 hf), ha.skipIf _⟩
    | call nnn =>
      have hsp : (s.sp + 2#8).toNat % 2 = 0 := by
        have := hs.spEven
        bv_omega
      have hp := s.pushAddr_lt
      have hw : (s.writeBytes s.pushAddr s.returnBytes).DataInv :=
        hs.writeBytes (show s.pushAddr + 2 ≤ 4096 by omega)
      exact ⟨_, exec_call nnn s, (hw.setSp hsp).setPc _⟩
    | ret =>
      have hsp : (s.sp - 2#8).toNat % 2 = 0 := by
        have := hs.spEven
        bv_omega
      exact ⟨_, exec_ret s, (hs.setSp hsp).setPc _⟩
    | exit => exact ⟨_, rfl, ha.signalExit⟩
    | low | high => exact ⟨_, rfl, ha.setMode _⟩
    | cls => exact ⟨_, rfl, ha.onActiveGrid fun w h _ _ => Grid.onOff_blank w h⟩
    | scd n =>
      exact ⟨_, exec_scd (scrollFault_eq_none.1 hf), ha.onActiveGrid fun _ _ _ => Grid.onOff_scrollDown n.toNat⟩
    | scr => exact ⟨_, exec_scr (scrollFault_eq_none.1 hf), ha.onActiveGrid fun _ _ _ => Grid.onOff_scrollRight4⟩
    | scl => exact ⟨_, exec_scl (scrollFault_eq_none.1 hf), ha.onActiveGrid fun _ _ _ => Grid.onOff_scrollLeft4⟩
    | ldImm | addImm | ldReg | orReg | andReg | xorReg | ldVxDt => exact ⟨_, rfl, ha.setReg _ _⟩
    | ldVxK =>
      cases hk : s.firstKey with
      | none => exact ⟨_, exec_ldVxK_none hk, hs⟩
      | some k => exact ⟨_, exec_ldVxK_some hk, ha.setReg _ _⟩
    | addReg | sub | shr | subn | shl => exact ⟨_, rfl, ha.withFlag _ _ _ _⟩
    | rnd => exact ⟨_, rfl, (ha.setReg _ _).drawnRandom⟩
    | ldI | ldF | ldHf => exact ⟨_, rfl, ha.setIndex _⟩
    | addI => exact ⟨_, rfl, (ha.setIndex _).setReg vf _⟩
    | drw => exact ⟨_, exec_drw (blockFault_eq_none.1 hf), ha.drawSprite _ _ _⟩
    | drw16 x y =>
      cases hm : s.extendedMode with
      | false => exact ⟨_, exec_drw16_standard hm, ha.setReg vf _⟩
      | true =>
        have hb : blockFault (.drw16 x y) 32 s = none := by simpa [faultOf, hm] using hf
        exact ⟨_, exec_drw16_extended hm (blockFault_eq_none.1 hb), ha.drawSprite _ _ _⟩
    | ldDtVx | ldStVx => exact ⟨_, rfl, ha.setTimers _ _⟩
    | ldB x =>
      have hr := blockFault_eq_none.1 hf
      exact ⟨_, exec_ldB hr, ha.writeBytes ((le_of_firstOutOfRange_none hr).resolve_right (by decide))⟩
    | ldMemVx x =>
      have hr := blockFault_eq_none.1 hf
      have hl := (le_of_firstOutOfRange_none hr).resolve_right (Nat.succ_ne_zero _)
      exact ⟨_, exec_ldMemVx hr, ha.writeBytes (by rwa [State.regsUpTo_length])⟩
    | ldVxMem => exact ⟨_, exec_ldVxMem (blockFault_eq_none.1 hf), ha.loadRegsUpTo _ _⟩

/-! ### Every step, run and boot keeps it -/

theorem engineStep_keeps_dataInv {s t : State} (hs : s.DataInv) (h : engineStep s = .next t) : t.DataInv := by
  obtain ⟨u, hu, hc⟩ := engineStep_cases s
  rw [hu] at h
  cases h
  rcases hc with ⟨r, hr, rfl⟩ | ⟨i, -, he⟩
  · exact hs.enterFault hr
  · exact exec_keeps_dataInv hs he

theorem step_keeps_inv {s t : State} (hs : s.Inv) (h : step s = .next t) : t.Inv := by
  rcases step_cases h with ⟨-, rfl⟩ | ⟨-, -, rfl⟩ | ⟨-, -, u, hu, rfl⟩
  · exact hs
  · obtain ⟨hmem, hsp, hstd, hext, hrec⟩ := hs.data.beginStep
    exact State.DataInv.inv_of_tickPos ⟨hmem, hsp, hstd, hext, hrec⟩ rfl
  · exact (engineStep_keeps_dataInv hs.data.beginStep hu).endStep

theorem State.Inv.setKeys {s : State} (hs : s.Inv) (k : Keypad) : (s.setKeys k).Inv :=
  ⟨hs.memory, hs.spEven, hs.std, hs.ext, hs.tick, hs.halted, hs.record⟩

theorem runKeys_keeps_inv (ks : List Keypad) {s : State} (hs : s.Inv) : ∃ t, runKeys ks s = .next t ∧ t.Inv := by
  induction ks generalizing s with
  | nil => exact ⟨s, rfl, hs⟩
  | cons k ks ih =>
    obtain ⟨u, hu⟩ := step_total (s.setKeys k)
    obtain ⟨t, ht, hi⟩ := ih (step_keeps_inv (hs.setKeys k) hu)
    exact ⟨t, by simp only [runKeys, hu, ht], hi⟩

theorem created_dataInv (c : Config) (r : ResetRegs) : (created c r).DataInv := by
  have hblank (w h : Nat) : (Grid.blank w h).onOff := Grid.onOff_blank w h
  cases r <;> exact ⟨⟨List.Pairwise.nil, fun _ hc => nomatch hc⟩, rfl, hblank _ _, hblank _ _, rfl⟩

theorem created_tickPos (c : Config) (r : ResetRegs) : (created c r).tickPos = 0 := by
  cases r <;> rfl

theorem boot_of_fits {c : Config} {r : ResetRegs} {image : List Byte} (h : image.length ≤ 3584) :
    boot c r image = (created c r).writeBytes 0x200 image := by
  unfold boot
  rw [State.load_eq_ok (by omega)]

theorem boot_of_too_large {c : Config} {r : ResetRegs} {image : List Byte} (h : 3584 < image.length) :
    boot c r image = (created c r).enterFault ⟨.programTooLarge, none, none, some image.length⟩ := by
  unfold boot
  rw [State.load_eq_error (by omega)]

theorem boot_inv (c : Config) (r : ResetRegs) (image : List Byte) : (boot c r image).Inv := by
  have hc := created_dataInv c r
  have ht := created_tickPos c r
  by_cases hl : image.length ≤ 3584
  · rw [boot_of_fits hl]
    refine State.DataInv.inv_of_tickPos (hc.writeBytes (by omega)) ?_
    rw [State.writeBytes_eq]
    exact ht
  · rw [boot_of_too_large (Nat.lt_of_not_le hl)]
    exact State.DataInv.inv_of_tickPos (hc.enterFault rfl) ht

/-! ### The obligations -/

/-- Settles O21: the reset state is the boot of an empty image, with the default parameters. -/
theorem resetMeetsTheInvariant : Obligations.ResetMeetsTheInvariant := by
  unfold Obligations.ResetMeetsTheInvariant
  exact boot_inv defaultConfig .zero []

/-- Settles O22: the timer phase and every instruction keep the data's part of the invariant, and the end of the
step's turn establishes the rest. -/
theorem stepKeepsTheInvariant : Obligations.StepKeepsTheInvariant := by
  unfold Obligations.StepKeepsTheInvariant
  exact fun s t => step_keeps_inv

/-- Settles O23: by induction on the keypad's history, and from the state as created. -/
theorem invariantHoldsUnderEveryKeyHistory : Obligations.InvariantHoldsUnderEveryKeyHistory := by
  unfold Obligations.InvariantHoldsUnderEveryKeyHistory
  exact ⟨fun ks s => runKeys_keeps_inv ks, boot_inv⟩

end Sys2Proof.Machine
end

/-! PROOFS. The accessors of the store, and the state after a boot (R46, R60 to R63, R280 to R283). -/

section
namespace Sys2Proof.Machine

/-! ### Bytes and words of the store (R60 to R63) -/

theorem State.get8_eq {s : State} {a : Nat} (h : a + 1 ≤ 4096) : s.get8 a = .ok (s.readByte a) := by
  simp [State.get8, firstOutOfRange_none h]

theorem State.get8_eq_error {s : State} {a : Nat} (h : 4096 < a + 1) : s.get8 a = .error (max a 4096) := by
  simp [State.get8, firstOutOfRange_some Nat.zero_lt_one h]

theorem State.set8_eq {s : State} {a : Nat} {b : Byte} (h : a + 1 ≤ 4096) : s.set8 a b = .ok (s.writeByte a b) := by
  simp [State.set8, firstOutOfRange_none h]

theorem State.set8_eq_error {s : State} {a : Nat} {b : Byte} (h : 4096 < a + 1) :
    s.set8 a b = .error (max a 4096) := by
  simp [State.set8, firstOutOfRange_some Nat.zero_lt_one h]

theorem State.set16_eq_error {s : State} {a : Nat} {w : Word} (h : 4096 < a + 2) :
    s.set16 a w = .error (max a 4096) := by
  simp [State.set16, firstOutOfRange_some Nat.zero_lt_two h]

/-- Settles O7: a byte write is a block write of one byte, a word write one of two, the high byte first. -/
theorem storeAccessorsRoundTrip : Obligations.StoreAccessorsRoundTrip := by
  unfold Obligations.StoreAccessorsRoundTrip
  intro s a b w
  refine ⟨fun ha => ?_, fun ha => ?_, fun ha => ?_, fun ha => ?_⟩
  · refine ⟨_, State.set8_eq (by omega), ?_, s.writeBytes_keepsOthers a [b]⟩
    rw [State.get8_eq (by omega), State.readByte_writeByte_self]
  · have hmax : max a 4096 = a := by omega
    rw [State.set8_eq_error (by omega), State.get8_eq_error (by omega), hmax]
    exact ⟨rfl, rfl⟩
  · have hlow : ((s.writeByte a (highByte w)).writeByte (a + 1) (lowByte w)).readByte (a + 1) = lowByte w :=
      State.readByte_writeByte_self _ _ _
    have hhigh : ((s.writeByte a (highByte w)).writeByte (a + 1) (lowByte w)).readByte a = highByte w := by
      simp [State.readByte_writeByte]
    refine ⟨_, State.set16_eq (by omega), ?_, ?_, ?_, s.writeBytes_keepsOthers a [highByte w, lowByte w]⟩
    · rw [State.get16_eq (by omega), hhigh, hlow, highByte_append_lowByte]
    · rw [State.get8_eq (by omega), hhigh]
      rfl
    · rw [State.get8_eq (by omega), hlow]
      rfl
  · rw [State.set16_eq_error (by omega), State.get16_eq_error (by omega)]
    exact ⟨rfl, rfl⟩

/-! ### The store as created (R46, R68) -/

theorem initialByte_small (f : Fonts) (k : Fin 80) : initialByte f (0x100 + k) = f.small[k] := by
  have hk := k.isLt
  unfold initialByte
  rw [dif_pos (by omega)]
  simp

theorem initialByte_big (f : Fonts) (k : Fin 160) : initialByte f (0x150 + k) = f.big[k] := by
  have hk := k.isLt
  unfold initialByte
  rw [dif_neg (by omega), dif_pos (by omega)]
  simp

theorem initialByte_elsewhere (f : Fonts) {a : Nat} (h : a < 0x100 ∨ 0x1F0 ≤ a) : initialByte f a = 0x00#8 := by
  unfold initialByte
  rw [dif_neg (by omega), dif_neg (by omega)]

section
variable (c : Config) (r : ResetRegs)

theorem created_readByte (a : Nat) : (created c r).readByte a = initialByte c.fonts a := by
  cases r <;> rfl

/-- What is the same in every state as created. -/
theorem created_fields :
    (created c r).pc = 0x200#16 ∧ (created c r).sp = 0x00#8 ∧ (created c r).cfg = c ∧ (created c r).tickPos = 0 ∧
    (created c r).extendedMode = false ∧ (created c r).status = .running ∧
    (created c r).keys = Vector.replicate 16 false ∧ (created c r).stdGrid = Grid.blank 64 32 ∧
    (created c r).extGrid = Grid.blank 128 64 := by
  cases r <;> exact ⟨rfl, rfl, rfl, rfl, rfl, rfl, rfl, rfl, rfl⟩

theorem created_key (k : Nat) : (created c r).key k = false := by
  obtain ⟨-, -, -, -, -, -, hk, -⟩ := created_fields c r
  simp [State.key, hk]

theorem created_at (x y : Nat) :
    (created c r).stdGrid.at x y = 0x00#8 ∧ (created c r).extGrid.at x y = 0x00#8 := by
  obtain ⟨-, -, -, -, -, -, -, hs, he⟩ := created_fields c r
  rw [hs, he]
  exact ⟨Grid.at_blank _ _ x y, Grid.at_blank _ _ x y⟩

/-! ### The state after a boot (R280) -/

/-- A boot writes the image's bytes and the status alone. -/
theorem boot_keepsOthers (image : List Byte) :
    keepsOthers (.status :: bytesFrom 0x200 image.length) (created c r) (boot c r image) := by
  by_cases hl : image.length ≤ 3584
  · rw [boot_of_fits hl]
    exact keepsOthers_mono (State.writeBytes_keepsOthers _ _ _) fun _ => List.mem_cons_of_mem _
  · rw [boot_of_too_large (Nat.lt_of_not_le hl)]
    exact keepsOthers_mono (State.enterFault_keepsOthers _ _) (by simp)

/-- The store below the image is as created. -/
theorem boot_readByte_below (image : List Byte) {a : Nat} (ha : a < 0x200) :
    (boot c r image).readByte a = initialByte c.fonts a := by
  have hb := boot_keepsOthers c r image (.byte a) (by simp [byte_mem_bytesFrom]; omega)
  exact hb.trans (created_readByte c r a)

theorem boot_v (image : List Byte) : (boot c r image).v = (created c r).v := by
  by_cases hl : image.length ≤ 3584
  · rw [boot_of_fits hl, State.writeBytes_eq]
  · rw [boot_of_too_large (Nat.lt_of_not_le hl), State.enterFault_v]

/-- An image that fits stands at 0x200 and runs, with zeros behind it. -/
theorem boot_fitting {image : List Byte} (h : image.length ≤ 3584) :
    (boot c r image).status = .running ∧
      ∀ a, 0x200 ≤ a → (boot c r image).readByte a = image.getD (a - 0x200) 0x00#8 := by
  rw [boot_of_fits h]
  constructor
  · obtain ⟨-, -, -, -, -, hst, -⟩ := created_fields c r
    rw [State.writeBytes_eq]
    exact hst
  · intro a ha
    rw [State.readByte_writeBytes]
    split
    · exact (List.getD_eq_getElem image _ (by omega)).symm
    · rw [created_readByte, initialByte_elsewhere _ (by omega), List.getD_eq_default image _ (by omega)]

/-- No byte of an image that does not fit is in the store. -/
theorem boot_too_large {image : List Byte} (h : 3584 < image.length) :
    (boot c r image).status = .faulted ⟨.programTooLarge, none, none, some image.length⟩ ∧
      ∀ a, 0x200 ≤ a → (boot c r image).readByte a = 0x00#8 := by
  rw [boot_of_too_large h]
  refine ⟨rfl, fun a ha => ?_⟩
  rw [State.enterFault_readByte, created_readByte, initialByte_elsewhere _ (by omega)]

end

/-! ### The obligations -/

theorem reset_eq_created : State.reset = created defaultConfig .zero := rfl

/-- Settles O5: the reset state is the state as created with the default parameters. -/
theorem resetLeavesTheBootState : Obligations.ResetLeavesTheBootState := by
  unfold Obligations.ResetLeavesTheBootState
  refine ⟨rfl, rfl, fun x => ?_, rfl, rfl, rfl, rfl, rfl, rfl, rfl, created_key defaultConfig .zero,
    created_at defaultConfig .zero, fun a ha => ?_, fun k => ?_, fun k => ?_⟩
  · simp [State.reg, State.reset]
  all_goals rw [reset_eq_created, created_readByte]
  · exact initialByte_elsewhere _ ha
  · exact initialByte_small _ k
  · exact initialByte_big _ k

/-- Settles O6: every part but the status and the image's bytes is as created, and the two outcomes of the load give
these. -/
theorem bootLoadsTheImageOrFaults : Obligations.BootLoadsTheImageOrFaults := by
  unfold Obligations.BootLoadsTheImageOrFaults
  intro c r image
  have keeps (p : Part) (hs : p ≠ .status) (hb : ∀ a, p ≠ .byte a) : p.same (created c r) (boot c r image) :=
    boot_keepsOthers c r image p (by simp [bytesFrom, hs, Ne.symm (hb _)])
  have keys : (boot c r image).keys = (created c r).keys := keeps .keys (by simp) (by simp)
  have std : (boot c r image).stdGrid = (created c r).stdGrid := keeps .stdGrid (by simp) (by simp)
  have ext : (boot c r image).extGrid = (created c r).extGrid := keeps .extGrid (by simp) (by simp)
  have index := keeps .index (by simp) (by simp)
  have dt := keeps .dt (by simp) (by simp)
  have st := keeps .st (by simp) (by simp)
  obtain ⟨cpc, csp, ccfg, ctick, cmode, -⟩ := created_fields c r
  refine ⟨(keeps .pc (by simp) (by simp)).trans cpc, (keeps .sp (by simp) (by simp)).trans csp,
    (keeps .cfg (by simp) (by simp)).trans ccfg, (keeps .tickPos (by simp) (by simp)).trans ctick,
    (keeps .mode (by simp) (by simp)).trans cmode, fun k => ?_, fun x y => ?_, fun k => ?_, fun k => ?_,
    fun a ha => ?_, boot_fitting c r, boot_too_large c r, ?_, ?_⟩
  · have hk : (boot c r image).key k = (created c r).key k := by simp only [State.key, keys]
    exact hk.trans (created_key c r k)
  · rw [std, ext]
    exact created_at c r x y
  · rw [boot_readByte_below c r image (by omega), initialByte_small]
  · rw [boot_readByte_below c r image (by omega), initialByte_big]
  · rw [boot_readByte_below c r image (by omega), initialByte_elsewhere _ (by omega)]
  · rintro v i d t rfl
    exact ⟨boot_v c _ image, index, dt, st⟩
  · rintro rfl
    refine ⟨fun x => ?_, index, dt, st⟩
    have hx : (boot c .zero image).reg x = (created c .zero).reg x := keeps (.reg x) (by simp) (by simp)
    rw [hx]
    simp [State.reg, created, State.reset]

end Sys2Proof.Machine
end

/-! PROOFS. The tick as a transaction: the steps of a tick, ticks without instructions, and the host between two
ticks (R253 to R260, R269). -/

section
namespace Sys2Proof.Machine

/-! ### An instruction step at another tick position -/

theorem engineStep_atTick (s : State) (p : Nat) :
    engineStep (s.atTick p) = outcomeAtTick p (engineStep s) := by
  have hf : (s.atTick p).fetch = s.fetch := rfl
  cases hs : s.fetch with
  | error a =>
    rw [engineStep_of_error hs, engineStep_of_error (hf.trans hs)]
    rfl
  | ok w =>
    cases hd : decode w with
    | error e =>
      rw [engineStep_of_invalid hs hd, engineStep_of_invalid (hf.trans hs) hd]
      rfl
    | ok i =>
      rw [engineStep_of_decoded hs hd, engineStep_of_decoded (hf.trans hs) hd]
      exact exec_atTick i s p

theorem State.atTick_self {s : State} {p : Nat} (h : s.tickPos = p) : s.atTick p = s := by
  rw [← h]
  rfl

/-! ### The batch of a tick (R258) -/

theorem batch_of_halted {s : State} (h : s.status ≠ .running) (n : Nat) : batch n s = .next s := by
  cases n with
  | zero => rfl
  | succ n => exact if_neg h

theorem batch_succ {s t : State} (hr : s.status = .running) (h : engineStep s = .next t) (n : Nat) :
    batch (n + 1) s = batch n t := by
  simp only [batch, hr, h, if_true]

/-- A batch answers a next state, at the same tick position, with the same keypad and parameters. -/
theorem batch_total (n : Nat) (s : State) :
    ∃ t, batch n s = .next t ∧ t.tickPos = s.tickPos ∧ t.cfg = s.cfg ∧ t.keys = s.keys := by
  induction n generalizing s with
  | zero => exact ⟨s, rfl, rfl, rfl, rfl⟩
  | succ n ih =>
    by_cases hr : s.status = .running
    · obtain ⟨u, hu, -⟩ := engineStep_cases s
      obtain ⟨htick, hkeys, hcfg⟩ := engineStep_keeps_inputs hu
      obtain ⟨t, ht, ttick, tcfg, tkeys⟩ := ih u
      exact ⟨t, (batch_succ hr hu n).trans ht, ttick.trans htick, tcfg.trans hcfg, tkeys.trans hkeys⟩
    · exact ⟨s, batch_of_halted hr _, rfl, rfl, rfl⟩

/-- The rest of a tick: with `n` steps left after the one that ends here, `n` steps of the machine are a batch of
`n`, and end at a tick boundary. -/
theorem run_endStep (n p : Nat) {s : State} (h : p + n + 1 = s.cfg.ipt) :
    run n (s.atTick p).endStep = outcomeAtTick 0 (batch n s) := by
  induction n generalizing s p with
  | zero =>
    have hend : (s.atTick p).endStep = s.atTick 0 := by
      have : ¬ (s.status = .running ∧ p + 1 < s.cfg.ipt) := by omega
      simp only [State.endStep, State.atTick, this, if_false]
    rw [hend]
    rfl
  | succ n ih =>
    by_cases hr : s.status = .running
    · have hend : (s.atTick p).endStep = s.atTick (p + 1) := by
        have : s.status = .running ∧ p + 1 < s.cfg.ipt := ⟨hr, by omega⟩
        simp only [State.endStep, State.atTick, this, and_self, if_true]
      obtain ⟨u, hu, -⟩ := engineStep_cases s
      obtain ⟨-, -, hcfg⟩ := engineStep_keeps_inputs hu
      have hstep : step (s.atTick (p + 1)) = .next (u.atTick (p + 1)).endStep := by
        have hlt : (s.atTick (p + 1)).tickPos < (s.atTick (p + 1)).cfg.ipt := by
          show p + 1 < s.cfg.ipt
          omega
        rw [step_of_running (s := s.atTick (p + 1)) hr hlt, State.beginStep_of_ne (Nat.succ_ne_zero p),
          engineStep_atTick, hu]
        rfl
      rw [hend, batch_succ hr hu]
      simp only [run, hstep]
      exact ih (p + 1) (by rw [hcfg]; omega)
    · have hend : (s.atTick p).endStep = s.atTick 0 := by
        simp only [State.endStep, State.atTick, hr, false_and, if_false]
      rw [hend, batch_of_halted hr]
      exact run_of_halted (s := s.atTick 0) hr _

/-! ### The tick port -/

theorem tick_of_boundary {s : State} (hr : s.status = .running) (h0 : s.tickPos = 0) :
    tick s = batch s.cfg.ipt s.timerTick := by
  simp only [tick, hr, h0, if_true]

theorem tick_total {s : State} (h0 : s.tickPos = 0) :
    ∃ t, tick s = .next t ∧ t.tickPos = 0 ∧ t.cfg = s.cfg ∧ t.keys = s.keys := by
  by_cases hr : s.status = .running
  · obtain ⟨t, ht, htick, hcfg, hkeys⟩ := batch_total s.cfg.ipt s.timerTick
    exact ⟨t, (tick_of_boundary hr h0).trans ht, htick.trans h0, hcfg, hkeys⟩
  · exact ⟨s, if_neg hr, h0, rfl, rfl⟩

theorem State.beginStep_of_boundary {s : State} (h : s.tickPos = 0) : s.beginStep = s.timerTick := if_pos h

/-- A step with no instruction is one timer phase. -/
theorem step_of_ipt_zero {s : State} (hr : s.status = .running) (h0 : s.tickPos = 0) (hi : s.cfg.ipt = 0) :
    step s = .next s.timerTick := by
  rw [step_of_no_step_left hr (by omega), State.beginStep_of_boundary h0]
  exact congrArg _ (State.atTick_self (s := s.timerTick) h0)

/-- The steps of a tick with instructions are its batch. -/
theorem run_tick {s : State} {n : Nat} (hr : s.status = .running) (h0 : s.tickPos = 0) (hi : s.cfg.ipt = n + 1) :
    run (n + 1) s = tick s := by
  obtain ⟨u, hu, -⟩ := engineStep_cases s.timerTick
  obtain ⟨htick, -, hcfg⟩ := engineStep_keeps_inputs hu
  have hu0 : u.tickPos = 0 := htick.trans h0
  have hstep : step s = .next (u.atTick 0).endStep := by
    rw [step_of_running hr (by omega), State.beginStep_of_boundary h0, hu, State.atTick_self hu0]
    rfl
  obtain ⟨t, ht, ttick, -⟩ := batch_total n u
  rw [tick_of_boundary hr h0, hi, batch_succ (s := s.timerTick) hr hu]
  simp only [run, hstep]
  rw [run_endStep n 0 (by rw [hcfg]; show _ = s.cfg.ipt; omega), ht]
  exact congrArg _ (State.atTick_self (ttick.trans hu0))

/-- A new `IPT` leaves the store as it reads: the fonts are as before. -/
theorem keepsOthers_setIpt (s : State) (n : Nat) :
    keepsOthers [.cfg] s { s with cfg := { s.cfg with ipt := n } } :=
  fun p hp => by cases p <;> simp at hp <;> rfl

/-! ### The obligations -/

/-- Settles O16: the first step of a tick is its timer phase and one instruction step, and the rest of the steps the
rest of the batch; no instruction reads the tick position. -/
theorem stepsOfATickAreTheTickTransaction : Obligations.StepsOfATickAreTheTickTransaction := by
  unfold Obligations.StepsOfATickAreTheTickTransaction
  intro s h0
  obtain ⟨t, ht, ttick, -⟩ := tick_total h0
  refine ⟨?_, t, ht, ttick⟩
  by_cases hr : s.status = .running
  · cases hi : s.cfg.ipt with
    | zero =>
      rw [tick_of_boundary hr h0, hi]
      simp only [run, Nat.max_eq_left, Nat.zero_le, step_of_ipt_zero hr h0 hi, batch]
    | succ n =>
      rw [Nat.max_eq_right (Nat.succ_le_succ n.zero_le)]
      exact run_tick hr h0 hi
  · rw [run_of_halted hr]
    exact (if_neg hr).symm

/-- Settles O17: each timer counts down on its own test; a batch of no instruction changes nothing after it. -/
theorem timerPhaseDecrementsEachTimerAboveZero : Obligations.TimerPhaseDecrementsEachTimerAboveZero := by
  unfold Obligations.TimerPhaseDecrementsEachTimerAboveZero
  intro s
  have count (b : Byte) : (countDown b).toNat = if 0 < b.toNat then b.toNat - 1 else 0 := by
    rw [countDown_toNat]
    split <;> omega
  refine ⟨count s.dt, count s.st, s.timerTick_keepsOthers, fun hr h0 hi => ?_⟩
  rw [tick_of_boundary hr h0, hi]
  rfl

/-- Settles O18: by induction on the number of ticks, each of which is one timer phase. -/
theorem ticksWithoutInstructionsOnlyCountDown : Obligations.TicksWithoutInstructionsOnlyCountDown := by
  unfold Obligations.TicksWithoutInstructionsOnlyCountDown
  intro n
  induction n with
  | zero => exact fun s _ _ _ => ⟨s, rfl, rfl, rfl, keepsOthers_refl _ s⟩
  | succ n ih =>
    intro s hr h0 hi
    obtain ⟨t, ht, hdt, hst, hk⟩ := ih s.timerTick hr h0 hi
    refine ⟨t, ?_, ?_, ?_, keepsOthers_trans s.timerTick_keepsOthers hk⟩
    · simp only [run, step_of_ipt_zero hr h0 hi, ht]
    · rw [hdt, State.timerTick_dt, countDown_toNat]
      omega
    · rw [hst, State.timerTick_st, countDown_toNat]
      omega

/-- Settles O60: a tick at a boundary is a batch, which keeps what the host sets; inside a tick both ports
refuse. -/
theorem hostActsBetweenTicksOnly : Obligations.HostActsBetweenTicksOnly := by
  unfold Obligations.HostActsBetweenTicksOnly
  intro s n
  refine ⟨fun h0 => ⟨tick_total h0, _, if_pos h0, rfl, keepsOthers_setIpt s n⟩,
    fun h0 => ⟨if_neg h0, fun hr => ?_⟩⟩
  simp only [tick, hr, h0, if_true, if_false]

end Sys2Proof.Machine
end

/-! PROOFS. Control transfer: the calculated jump, call and return, the register skips and the exit (R121 to R131,
R247). -/

section
namespace Sys2Proof.Machine

/-! ### Call and return (R121, R122) -/

/-- A frame may leave out a part that is as before. -/
theorem keepsOthers_of_same {l m : List Part} {s t : State} (h : keepsOthers l s t)
    (hm : ∀ p ∈ l, p ∈ m ∨ p.same s t) : keepsOthers m s t := by
  intro p hp
  by_cases hl : p ∈ l
  · exact (hm p hl).resolve_left hp
  · exact h p hl

/-- The stack word after a call. -/
theorem State.readByte_returnBytes (s : State) :
    (s.writeBytes s.pushAddr s.returnBytes).readByte s.pushAddr ++
      (s.writeBytes s.pushAddr s.returnBytes).readByte (s.pushAddr + 1) = s.pc + 2#16 := by
  have hhigh : (s.writeBytes s.pushAddr s.returnBytes).readByte s.pushAddr = highByte (s.pc + 2#16) :=
    s.readByte_writeBytes_getElem s.pushAddr s.returnBytes 0 Nat.zero_lt_two
  have hlow : (s.writeBytes s.pushAddr s.returnBytes).readByte (s.pushAddr + 1) = lowByte (s.pc + 2#16) :=
    s.readByte_writeBytes_getElem s.pushAddr s.returnBytes 1 Nat.one_lt_two
  rw [hhigh, hlow, highByte_append_lowByte]

theorem exec_call_keepsOthers {nnn : Addr12} {s t : State} (h : exec (.call nnn) s = .next t) :
    keepsOthers [.pc, .sp, .byte ((s.sp.toNat + 2) % 256), .byte ((s.sp.toNat + 2) % 256 + 1)] s t := by
  rw [← s.pushAddr_eq]
  exact exec_frame h rfl

/-- Settles O28: a call is the block write of the return address at the new `SP`. -/
theorem callPushesTheReturnAddress : Obligations.CallPushesTheReturnAddress := by
  unfold Obligations.CallPushesTheReturnAddress
  intro nnn s
  exact ⟨decode_encode (i := .call nnn) rfl, _, exec_call nnn s, toNat_zext16 nnn, s.pushAddr_eq,
    s.readByte_returnBytes, exec_call_keepsOthers (exec_call nnn s)⟩

/-- Settles O29: a return reads the word at `SP`. -/
theorem returnPopsTheReturnAddress : Obligations.ReturnPopsTheReturnAddress := by
  unfold Obligations.ReturnPopsTheReturnAddress
  intro s
  have hsp : (s.sp - 2#8).toNat = (s.sp.toNat + 254) % 256 := by
    rw [BitVec.toNat_sub, Nat.add_comm]
    rfl
  exact ⟨decode_encode (i := .ret) rfl, _, exec_ret s, rfl, hsp, exec_frame (exec_ret s) rfl⟩

/-- Settles O30: the return reads the word that the call has written, and takes back what the call has added to
`SP`. -/
theorem returnAfterCallResumesBehindIt : Obligations.ReturnAfterCallResumesBehindIt := by
  unfold Obligations.ReturnAfterCallResumesBehindIt
  intro nnn s
  have hsp : s.sp + 2#8 - 2#8 = s.sp := BitVec.add_sub_cancel _ _
  refine ⟨_, _, exec_call nnn s, exec_ret _, s.readByte_returnBytes, hsp, ?_⟩
  have hcall := exec_call_keepsOthers (exec_call nnn s)
  refine keepsOthers_of_same (keepsOthers_append hcall (exec_frame (exec_ret _) rfl)) fun p hp => ?_
  simp only [writtenBy, List.mem_append, List.mem_cons, List.not_mem_nil, or_false] at hp
  rcases hp with (rfl | rfl | rfl | rfl) | (rfl | rfl)
  case inl.inr.inl | inr.inr => exact .inr hsp
  all_goals exact .inl (by simp)

/-! ### Jumps, skips and the exit (R124 to R131) -/

/-- Settles O27: the sum of a 12-bit and an 8-bit number fits in 16 bits. -/
theorem jumpV0GoesToTheSum : Obligations.JumpV0GoesToTheSum := by
  unfold Obligations.JumpV0GoesToTheSum
  intro nnn s
  refine ⟨decode_encode (i := .jpV0 nnn) rfl, _, rfl, ?_, keepsOthers_setPc s _⟩
  have hn := nnn.isLt
  have hv := (s.reg 0x0#4).isLt
  have hw : ((s.reg 0x0#4).setWidth 16).toNat = (s.reg 0x0#4).toNat := BitVec.toNat_setWidth_of_le (by decide)
  rw [BitVec.toNat_add, toNat_zext16, hw]
  omega

theorem State.advance_skipIf_pc (s : State) (c : Bool) :
    (s.advance.skipIf c).pc = if c then s.pc + 4#16 else s.pc + 2#16 := by
  cases c with
  | false => rfl
  | true => exact BitVec.add_assoc s.pc 2#16 2#16

/-- Settles O31: each skip is an advance and a conditional second one. -/
theorem skipsPassOverOneWord : Obligations.SkipsPassOverOneWord := by
  unfold Obligations.SkipsPassOverOneWord
  intro x y kk s i c h
  simp only [List.mem_cons, Prod.mk.injEq, List.not_mem_nil, or_false] at h
  rcases h with ⟨rfl, rfl⟩ | ⟨rfl, rfl⟩ | ⟨rfl, rfl⟩ | ⟨rfl, rfl⟩ <;>
    exact ⟨_, rfl, s.advance_skipIf_pc _, s.advance_skipIf_keepsOthers _⟩

/-- Settles O32: the exit keeps the advanced `PC`. -/
theorem exitEndsTheRun : Obligations.ExitEndsTheRun := by
  unfold Obligations.ExitEndsTheRun
  intro s
  exact ⟨decode_encode (i := .exit) rfl, _, rfl, rfl, rfl, exec_frame (i := .exit) rfl rfl⟩

end Sys2Proof.Machine
end

/-! PROOFS. Register loads, arithmetic and logic, and the flags they write (R140 to R161). -/

section
namespace Sys2Proof.Machine

/-! ### Operations without a flag -/

/-- Settles O34: the sum of two bytes is taken modulo 256, and one register is written. -/
theorem addImmediateWrapsWithoutCarry : Obligations.AddImmediateWrapsWithoutCarry := by
  unfold Obligations.AddImmediateWrapsWithoutCarry
  intro x kk s
  refine ⟨decode_encode (i := .addImm x kk) rfl, _, rfl, ?_, rfl, s.advance_setReg_keepsOthers x _⟩
  rw [State.setReg_reg_self]
  exact BitVec.toNat_add _ _

/-- Settles O35: the four operations write one register, bit by bit. -/
theorem moveAndLogicWriteVxAlone : Obligations.MoveAndLogicWriteVxAlone := by
  unfold Obligations.MoveAndLogicWriteVxAlone
  intro x y s i f h
  rcases h with ⟨rfl, rfl⟩ | ⟨rfl, rfl⟩ | ⟨rfl, rfl⟩ | ⟨rfl, rfl⟩ <;>
    exact ⟨_, rfl, rfl, by simp, s.advance_setReg_keepsOthers x _⟩

/-- Settles O40: one byte is drawn and masked. -/
theorem randomByteIsMaskedWithKK : Obligations.RandomByteIsMaskedWithKK := by
  unfold Obligations.RandomByteIsMaskedWithKK
  intro x kk s
  have hx : (s.rndWith x kk s.randomByte).reg x = s.randomByte &&& kk := State.setReg_reg_self _ x _
  refine ⟨decode_encode (i := .rnd x kk) rfl, _, rfl, hx, fun hkk => ?_, rfl, rfl,
    exec_frame (i := .rnd x kk) rfl rfl⟩
  rw [hx, hkk, BitVec.and_zero]

/-! ### Results and flags as numbers -/

theorem toNat_byte_sub (a b : Byte) : (a - b).toNat = (256 + a.toNat - b.toNat) % 256 := by
  have hb := b.isLt
  rw [BitVec.toNat_sub]
  omega

theorem toNat_byte_shr (a : Byte) : (a >>> 1).toNat = a.toNat / 2 := by
  rw [BitVec.toNat_ushiftRight, Nat.shiftRight_eq_div_pow]

theorem toNat_byte_shl (a : Byte) : (a <<< 1).toNat = 2 * a.toNat % 256 := by
  rw [BitVec.toNat_shiftLeft, Nat.shiftLeft_eq, Nat.mul_comm]

theorem carryFlag_toNat (a b : Byte) : (carryFlag a b).toNat = if 255 < a.toNat + b.toNat then 1 else 0 :=
  flagByte_decide_toNat _

theorem noBorrowFlag_toNat (a b : Byte) : (noBorrowFlag a b).toNat = if b.toNat ≤ a.toNat then 1 else 0 :=
  flagByte_decide_toNat _

theorem shlFlag_toNat_le_one (m : ShlFlagMode) (a : Byte) : (shlFlag m a).toNat ≤ 1 := by
  have ha := a.isLt
  rw [shlFlag_toNat]
  split <;> omega

/-! ### Operations with a flag (R142, R152) -/

theorem State.advance_withFlag_pc (s : State) (x y : Nibble) (f r : Byte → Byte → Byte) :
    (s.advance.withFlag x y f r).pc = s.pc + 2#16 :=
  s.advance.withFlag_keepsOthers x y f r .pc (by simp)

theorem State.advance_withFlag_keepsOthers (s : State) (x y : Nibble) (f r : Byte → Byte → Byte) :
    keepsOthers [.pc, .reg x, .reg vf] s (s.advance.withFlag x y f r) :=
  keepsOthers_append s.advance_keepsOthers (s.advance.withFlag_keepsOthers x y f r)

section
variable {s : State} {x y : Nibble} {i : Instr} {f r : Byte → Byte → Byte} {result flag : Nat}

/-- What a flag-writing operation leaves, given the two values that it leaves in `V[x]` and `VF`. -/
theorem exec_withFlag (he : exec i s = .next (s.advance.withFlag x y f r))
    (hx : ((s.advance.withFlag x y f r).reg x).toNat = result)
    (hf : ((s.advance.withFlag x y f r).reg vf).toNat = flag) :
    ∃ t, exec i s = .next t ∧ (t.reg x).toNat = result ∧ (t.reg vf).toNat = flag ∧
      t.pc = s.pc + 2#16 ∧ keepsOthers [.pc, .reg x, .reg vf] s t :=
  ⟨_, he, hx, hf, s.advance_withFlag_pc x y f r, s.advance_withFlag_keepsOthers x y f r⟩

theorem exec_withFlag_away (he : exec i s = .next (s.advance.withFlag x y f r)) (hx : x ≠ vf) (hy : y ≠ vf)
    (hr : (r (s.reg x) (s.reg y)).toNat = result) (hf : (f (s.reg x) (s.reg y)).toNat = flag) :
    ∃ t, exec i s = .next t ∧ (t.reg x).toNat = result ∧ (t.reg vf).toNat = flag ∧
      t.pc = s.pc + 2#16 ∧ keepsOthers [.pc, .reg x, .reg vf] s t := by
  obtain ⟨hres, hflag⟩ := s.advance.withFlag_away x y f r hx hy
  exact exec_withFlag he (by rw [hres]; exact hr) (by rw [hflag]; exact hf)

end

/-- Settles O36: away from `VF` both orders of writes give the result and the flag of the operands. -/
theorem addAndSubtractReportCarryAndBorrow : Obligations.AddAndSubtractReportCarryAndBorrow := by
  unfold Obligations.AddAndSubtractReportCarryAndBorrow
  intro x y s i result flag hx hy h
  simp only [List.mem_cons, Prod.mk.injEq, List.not_mem_nil, or_false] at h
  rcases h with ⟨rfl, rfl, rfl⟩ | ⟨rfl, rfl, rfl⟩ | ⟨rfl, rfl, rfl⟩
  · exact exec_withFlag_away rfl hx hy (BitVec.toNat_add _ _) (carryFlag_toNat _ _)
  · exact exec_withFlag_away rfl hx hy (toNat_byte_sub _ _) (noBorrowFlag_toNat _ _)
  · exact exec_withFlag_away rfl hx hy (toNat_byte_sub _ _) (noBorrowFlag_toNat _ _)

/-- An operation that reads `V[x]` alone gives the same under both orders of writes, where that is not `VF`. -/
theorem State.withFlag_unary (s : State) (x y : Nibble) (f r : Byte → Byte) (hx : x ≠ vf) :
    (s.withFlag x y (fun a _ => f a) (fun a _ => r a)).reg x = r (s.reg x) ∧
      (s.withFlag x y (fun a _ => f a) (fun a _ => r a)).reg vf = f (s.reg x) := by
  cases ho : s.cfg.flagWriteOrder with
  | flagThenResult =>
    obtain ⟨hres, hflag⟩ := s.withFlag_flagThenResult x y (fun a _ => f a) (fun a _ => r a) ho
    exact ⟨by rw [hres, if_neg hx], hflag hx⟩
  | resultThenFlag =>
    obtain ⟨hflag, hres⟩ := s.withFlag_resultThenFlag x y (fun a _ => f a) (fun a _ => r a) ho
    exact ⟨hres hx, hflag⟩

/-- Settles O37: a shift reads `V[x]` alone, so `y` does not matter. -/
theorem shiftsReportTheBitShiftedOut : Obligations.ShiftsReportTheBitShiftedOut := by
  unfold Obligations.ShiftsReportTheBitShiftedOut
  intro x y s i result flag hx h
  simp only [List.mem_cons, Prod.mk.injEq, List.not_mem_nil, or_false] at h
  rcases h with ⟨rfl, rfl, rfl⟩ | ⟨rfl, rfl, rfl⟩
  · obtain ⟨hres, hflag⟩ := s.advance.withFlag_unary x y shrFlag (· >>> 1) hx
    exact exec_withFlag rfl (by rw [hres]; exact toNat_byte_shr _) (by rw [hflag]; exact shrFlag_toNat _)
  · obtain ⟨hres, hflag⟩ := s.advance.withFlag_unary x y (shlFlag s.cfg.shlFlagMode) (· <<< 1) hx
    exact exec_withFlag rfl (by rw [hres]; exact toNat_byte_shl _) (by rw [hflag]; exact shlFlag_toNat _ _)

/-- Settles O39: under `ResultThenFlag` the flag is written last, and both are of the operands as they were. -/
theorem resultThenFlagTable : Obligations.ResultThenFlagTable := by
  unfold Obligations.ResultThenFlagTable
  intro x y s ho a b i result flag h
  have key (f r : Byte → Byte → Byte) (he : exec i s = .next (s.advance.withFlag x y f r))
      (hr : (r (s.reg x) (s.reg y)).toNat = result) (hf : (f (s.reg x) (s.reg y)).toNat = flag) :
      ∃ t, exec i s = .next t ∧ (x ≠ vf → (t.reg x).toNat = result) ∧ (t.reg vf).toNat = flag ∧
        t.pc = s.pc + 2#16 ∧ keepsOthers [.pc, .reg x, .reg vf] s t := by
    obtain ⟨hflag, hres⟩ := s.advance.withFlag_resultThenFlag x y f r ho
    exact ⟨_, he, fun hx => by rw [hres hx]; exact hr, by rw [hflag]; exact hf,
      s.advance_withFlag_pc x y f r, s.advance_withFlag_keepsOthers x y f r⟩
  simp only [List.mem_cons, Prod.mk.injEq, List.not_mem_nil, or_false] at h
  rcases h with ⟨rfl, rfl, rfl⟩ | ⟨rfl, rfl, rfl⟩ | ⟨rfl, rfl, rfl⟩ | ⟨rfl, rfl, rfl⟩ | ⟨rfl, rfl, rfl⟩
  · exact key _ _ rfl (BitVec.toNat_add _ _) (carryFlag_toNat _ _)
  · exact key _ _ rfl (toNat_byte_sub _ _) (noBorrowFlag_toNat _ _)
  · exact key _ _ rfl (toNat_byte_shr _) (shrFlag_toNat _)
  · exact key _ _ rfl (toNat_byte_sub _ _) (noBorrowFlag_toNat _ _)
  · exact key _ _ rfl (toNat_byte_shl _) (shlFlag_toNat _ _)

/-! ### The table of R152 under `FlagThenResult` -/

section
variable {s : State} {y : Nibble} {i : Instr} {f r : Byte → Byte → Byte} {result : Nat}
variable (ho : s.cfg.flagWriteOrder = .flagThenResult)
include ho

/-- With `x` naming `VF`, the result is of the flag, which stands for `V[y]` too where `y` names `VF`. -/
theorem exec_flagThenResult_vf (he : exec i s = .next (s.advance.withFlag vf y f r))
    (hr : (r (f (s.reg vf) (s.reg y)) (if y = vf then f (s.reg vf) (s.reg y) else s.reg y)).toNat = result) :
    ∃ t, exec i s = .next t ∧ (t.reg vf).toNat = result ∧ t.pc = s.pc + 2#16 ∧
      keepsOthers [.pc, .reg vf] s t := by
  obtain ⟨hres, -⟩ := s.advance.withFlag_flagThenResult vf y f r ho
  rw [if_pos rfl] at hres
  have hv : ((s.advance.withFlag vf y f r).reg vf).toNat = result := by
    rw [hres]
    exact hr
  obtain ⟨t, ht, -, htf, hpc, hk⟩ := exec_withFlag he hv hv
  exact ⟨t, ht, htf, hpc, keepsOthers_mono hk (by simp)⟩

/-- With `y` alone naming `VF`, the result is of `V[x]` and the flag. -/
theorem exec_flagThenResult_y_vf {x : Nibble} {flag : Nat} (hx : x ≠ vf)
    (he : exec i s = .next (s.advance.withFlag x vf f r))
    (hr : (r (s.reg x) (f (s.reg x) (s.reg vf))).toNat = result) (hf : (f (s.reg x) (s.reg vf)).toNat = flag) :
    ∃ t, exec i s = .next t ∧ (t.reg x).toNat = result ∧ (t.reg vf).toNat = flag ∧ t.pc = s.pc + 2#16 ∧
      keepsOthers [.pc, .reg x, .reg vf] s t := by
  obtain ⟨hres, hflag⟩ := s.advance.withFlag_flagThenResult x vf f r ho
  rw [if_neg hx, if_pos rfl] at hres
  exact exec_withFlag he (by rw [hres]; exact hr) (by rw [hflag hx]; exact hf)

end

/-- Settles O38: row by row, each value is that of the result after the flag is written. -/
theorem flagThenResultTable : Obligations.FlagThenResultTable := by
  unfold Obligations.FlagThenResultTable
  intro x y s ho a b carry notLess notGreater bit7
  have hcarry : (carryFlag (s.reg x) (s.reg y)).toNat = carry := carryFlag_toNat _ _
  have hnotLess : (noBorrowFlag (s.reg x) (s.reg y)).toNat = notLess := noBorrowFlag_toNat _ _
  have hnotGreater : (noBorrowFlag (s.reg y) (s.reg x)).toNat = notGreater := noBorrowFlag_toNat _ _
  have hbit7 : (shlFlag s.cfg.shlFlagMode (s.reg x)).toNat = bit7 := shlFlag_toNat _ _
  have hshr : (shrFlag (s.reg x)).toNat = a % 2 := shrFlag_toNat _
  have ha : a < 256 := (s.reg x).isLt
  constructor
  · rintro rfl i result h
    simp only [List.mem_cons, Prod.mk.injEq, List.not_mem_nil, or_false] at h
    rcases h with (⟨rfl, rfl⟩ | ⟨rfl, rfl⟩) | ⟨hy, ⟨rfl, rfl⟩ | ⟨rfl, rfl⟩ | ⟨rfl, rfl⟩⟩ |
      ⟨rfl, ⟨rfl, rfl⟩ | ⟨rfl, rfl⟩ | ⟨rfl, rfl⟩⟩
    all_goals refine exec_flagThenResult_vf ho rfl ?_
    · rw [toNat_byte_shr, hshr]
      omega
    · have hle : bit7 ≤ 1 := hbit7 ▸ shlFlag_toNat_le_one _ _
      rw [toNat_byte_shl]
      show 2 * (shlFlag s.cfg.shlFlagMode (s.reg vf)).toNat % 256 = _
      rw [hbit7]
      omega
    · rw [if_neg hy, BitVec.toNat_add, hcarry]
    · rw [if_neg hy, toNat_byte_sub, hnotLess]
    · rw [if_neg hy, toNat_byte_sub, hnotGreater]
    · have htwice : carry = a / 128 := by
        show (if 255 < a + a then 1 else 0) = _
        split <;> omega
      rw [if_pos rfl, BitVec.toNat_add, hcarry]
      omega
    · rw [if_pos rfl, BitVec.sub_self]
      rfl
    · rw [if_pos rfl, BitVec.sub_self]
      rfl
  · rintro hx rfl i result flag h
    simp only [List.mem_cons, Prod.mk.injEq, List.not_mem_nil, or_false] at h
    rcases h with ⟨rfl, rfl, rfl⟩ | ⟨rfl, rfl, rfl⟩ | ⟨rfl, rfl, rfl⟩
    · exact exec_flagThenResult_y_vf ho hx rfl (by rw [BitVec.toNat_add, hcarry]) hcarry
    · exact exec_flagThenResult_y_vf ho hx rfl (by rw [toNat_byte_sub, hnotLess]) hnotLess
    · exact exec_flagThenResult_y_vf ho hx rfl (by rw [toNat_byte_sub, hnotGreater]) hnotGreater

end Sys2Proof.Machine
end

/-! PROOFS. The index register, the block accesses at it, and the fetch of stored code (R65, R78, R217 to R222, R243,
R287). -/

section
namespace Sys2Proof.Machine

/-! ### The index register (R217 to R219) -/

/-- Settles O53: the flag is of the exact sum and is written last, so `V[x]` may be `VF`. -/
theorem addIndexReportsRange : Obligations.AddIndexReportsRange := by
  unfold Obligations.AddIndexReportsRange
  intro x s
  have hb : ((s.reg x).setWidth 16).toNat = (s.reg x).toNat := BitVec.toNat_setWidth_of_le (by decide)
  refine ⟨decode_encode (i := .addI x) rfl, _, rfl, ?_, ?_, rfl, exec_frame (i := .addI x) rfl rfl⟩
  · rw [← hb]
    exact BitVec.toNat_add _ _
  · rw [State.setReg_reg_self]
    exact flagByte_decide_toNat _

theorem toNat_and_low_nibble (b : Byte) : (b &&& 0x0F#8).toNat = b.toNat % 16 := by
  revert b
  decide

/-- The digit of a font load, as the statements read it. -/
theorem State.fontDigit_eq (s : State) (b : Byte) :
    s.fontDigit b = if s.cfg.fontIndexMode = .full then b.toNat else b.toNat % 16 := by
  unfold State.fontDigit
  cases s.cfg.fontIndexMode with
  | full => rfl
  | lowNibble => exact toNat_and_low_nibble b

theorem State.fontDigit_lt (s : State) (b : Byte) : s.fontDigit b < 256 := by
  have hb := b.isLt
  rw [State.fontDigit_eq]
  split <;> omega

theorem toNat_smallGlyph {d : Nat} (h : d < 256) : (smallGlyph d).toNat = 0x100 + 5 * d :=
  (BitVec.toNat_ofNat _ 16).trans (Nat.mod_eq_of_lt (by omega))

theorem toNat_bigGlyph {d : Nat} (h : d < 256) : (bigGlyph d).toNat = 0x150 + 10 * d :=
  (BitVec.toNat_ofNat _ 16).trans (Nat.mod_eq_of_lt (by omega))

/-- Settles O54: the glyph of a digit below 256 has an address below 2^16. -/
theorem fontLoadsPointAtTheGlyph : Obligations.FontLoadsPointAtTheGlyph := by
  unfold Obligations.FontLoadsPointAtTheGlyph
  intro x s d hd
  rw [← State.fontDigit_eq] at hd
  have hlt := s.fontDigit_lt (s.reg x)
  rw [hd]
  exact ⟨⟨_, rfl, toNat_smallGlyph hlt, rfl, s.advance_setIndex_keepsOthers _⟩,
    ⟨_, rfl, toNat_bigGlyph hlt, rfl, s.advance_setIndex_keepsOthers _⟩⟩

/-! ### Block accesses out of range (R65, R243) -/

/-- An access at `I` past the end of the store faults with the first address beyond it. -/
theorem exec_blockFault {i : Instr} {n : Nat} {s : State} (hi : faultOf i s = blockFault i n s) (hn : 0 < n)
    (h : 4096 < s.index.toNat + n) :
    ∃ t, exec i s = .next t ∧
      t.status = .faulted ⟨.outOfRange, some s.pc, some (encode i), some (max s.index.toNat 0x1000)⟩ ∧
      keepsOthers [.status] s t := by
  have hf : firstOutOfRange s.indexAddr n = some (max s.index.toNat 0x1000) := firstOutOfRange_some hn h
  have hr := hi.trans (blockFault_eq_some.2 ⟨_, hf, rfl⟩)
  exact ⟨_, exec_of_fault hr, rfl, s.enterFault_keepsOthers _⟩

/-- Settles O58: each of the four instructions checks its whole block at `I` first. -/
theorem blockAccessOutOfRangeFaults : Obligations.BlockAccessOutOfRangeFaults := by
  unfold Obligations.BlockAccessOutOfRangeFaults
  intro x y n s i len hwf hi hlen
  have haddr : max s.index.toNat 0x1000 = if s.index.toNat ≤ 0xFFF then 0x1000 else s.index.toNat := by
    split <;> omega
  rw [← haddr]
  simp only [List.mem_cons, Prod.mk.injEq, List.not_mem_nil, or_false] at hi
  rcases hi with (⟨rfl, rfl⟩ | ⟨rfl, rfl⟩ | ⟨rfl, rfl⟩) | ⟨hm, rfl, rfl⟩
  · have hn : n ≠ 0x0#4 := by simpa [Instr.wellFormed] using hwf
    exact exec_blockFault rfl (by bv_omega) hlen
  · exact exec_blockFault rfl (Nat.succ_pos _) hlen
  · exact exec_blockFault rfl (Nat.succ_pos _) hlen
  · exact exec_blockFault (if_pos hm) (by decide) hlen

/-! ### Block accesses in range (R220 to R222) -/

theorem State.advance_writeBytes_pc (s : State) (a : Nat) (bs : List Byte) :
    (s.advance.writeBytes a bs).pc = s.pc + 2#16 := by
  rw [State.writeBytes_eq]
  rfl

/-- Settles O55: the three digits are a block write; a byte's digits are below 10. -/
theorem decimalDigitsAreStored : Obligations.DecimalDigitsAreStored := by
  unfold Obligations.DecimalDigitsAreStored
  intro x s
  have hb := (s.reg x).isLt
  have digit (k : Nat) (hk : k < 3) :
      (s.advance.writeBytes s.indexAddr (decimalDigits (s.reg x))).readByte (s.index.toNat + k) =
        (decimalDigits (s.reg x))[k] :=
    State.readByte_writeBytes_getElem _ _ _ _ _
  have toNat_digit {d : Nat} (hd : d < 256) : (BitVec.ofNat 8 d).toNat = d :=
    (BitVec.toNat_ofNat d 8).trans (Nat.mod_eq_of_lt hd)
  refine ⟨decode_encode (i := .ldB x) rfl, fun hin => ?_, fun hout => ?_⟩
  · refine ⟨_, exec_ldB (firstOutOfRange_none (by show s.index.toNat + 3 ≤ 4096; omega)), ?_, ?_, ?_,
      s.advance_writeBytes_pc _ _, s.advance_writeBytes_keepsOthers _ (decimalDigits (s.reg x))⟩
    · exact (congrArg BitVec.toNat (digit 0 (by decide))).trans (toNat_digit (by omega))
    · exact (congrArg BitVec.toNat (digit 1 (by decide))).trans (toNat_digit (by omega))
    · exact (congrArg BitVec.toNat (digit 2 (by decide))).trans (toNat_digit (by omega))
  · exact exec_blockFault rfl (by decide) (by omega)

/-- Settles O56: the bytes of the block write are `V0` to `Vx`. -/
theorem blockStoreWritesV0ToVx : Obligations.BlockStoreWritesV0ToVx := by
  unfold Obligations.BlockStoreWritesV0ToVx
  intro x s hin
  have hf : firstOutOfRange s.indexAddr (x.toNat + 1) = none :=
    firstOutOfRange_none (by show s.index.toNat + (x.toNat + 1) ≤ 4096; omega)
  refine ⟨_, exec_ldMemVx hf, fun k hk => ?_, s.advance_writeBytes_pc _ _,
    exec_frame (exec_ldMemVx hf) (blockFault_eq_none.2 hf)⟩
  have hlen : k.toNat < (s.regsUpTo x).length := by
    rw [State.regsUpTo_length]
    bv_omega
  exact (State.readByte_writeBytes_getElem _ _ _ _ hlen).trans (s.regsUpTo_getElem x k hlen)

/-- Settles O57: the block load gives each register up to `Vx` its byte. -/
theorem blockLoadReadsV0ToVx : Obligations.BlockLoadReadsV0ToVx := by
  unfold Obligations.BlockLoadReadsV0ToVx
  intro x s hin
  have hf : firstOutOfRange s.indexAddr (x.toNat + 1) = none :=
    firstOutOfRange_none (by show s.index.toNat + (x.toNat + 1) ≤ 4096; omega)
  refine ⟨_, exec_ldVxMem hf, fun k hk => ?_, ?_, exec_frame (exec_ldVxMem hf) (blockFault_eq_none.2 hf)⟩
  · rw [State.loadRegsUpTo_reg, if_pos (BitVec.le_def.1 hk)]
    rfl
  · rw [State.loadRegsUpTo_eq]
    rfl

/-! ### Stored code (R78, R287) -/

/-- The byte at `q` after the bytes `bs` have been stored at `a`, as the statement writes it. -/
def State.byteAfter (s : State) (a : Nat) (bs : List Byte) (q : Nat) : Byte :=
  if a ≤ q ∧ q < a + bs.length then bs.getD (q - a) 0x00#8 else s.readByte q

theorem State.readByte_writeBytes_eq_byteAfter (s : State) (a : Nat) (bs : List Byte) (q : Nat) :
    (s.writeBytes a bs).readByte q = s.byteAfter a bs q := by
  rw [State.readByte_writeBytes, State.byteAfter]
  split
  · exact (List.getD_eq_getElem bs _ (by omega)).symm
  · rfl

/-- A fetch reads the store as it stands. -/
theorem State.fetch_of_readByte {t : State} {f : Nat → Byte} (h : ∀ q, t.readByte q = f q) {p : Word}
    (hp : p.toNat ≤ 0xFFE) : State.fetch { t with pc := p } = .ok (f p.toNat ++ f (p.toNat + 1)) := by
  rw [← h, ← h]
  exact State.get16_eq (s := { t with pc := p }) (show p.toNat + 2 ≤ 4096 by omega)

theorem zext16_eq_append (nnn : Addr12) : zext16 nnn = 0x0#4 ++ nnn := by
  apply BitVec.eq_of_toNat_eq
  rw [toNat_zext16, BitVec.toNat_append]
  simp

/-- Settles O59: each of the three is a block write and a write of registers, and a fetch reads the store. -/
theorem storedCodeIsFetchedNext : Obligations.StoredCodeIsFetchedNext := by
  unfold Obligations.StoredCodeIsFetchedNext
  intro s i a stored next h
  rcases h with ⟨x, rfl, rfl, hin, rfl, rfl⟩ | ⟨x, rfl, rfl, hin, rfl, rfl⟩ | ⟨nnn, rfl, rfl, rfl, rfl⟩
  · have hf : firstOutOfRange s.indexAddr (x.toNat + 1) = none :=
      firstOutOfRange_none (by show s.index.toNat + (x.toNat + 1) ≤ 4096; omega)
    exact ⟨_, exec_ldMemVx hf, s.advance_writeBytes_pc _ _, fun p =>
      State.fetch_of_readByte (s.advance.readByte_writeBytes_eq_byteAfter _ _)⟩
  · have hf : firstOutOfRange s.indexAddr 3 = none :=
      firstOutOfRange_none (by show s.index.toNat + 3 ≤ 4096; omega)
    exact ⟨_, exec_ldB hf, s.advance_writeBytes_pc _ _, fun p =>
      State.fetch_of_readByte (s.advance.readByte_writeBytes_eq_byteAfter _ _)⟩
  · rw [← s.pushAddr_eq]
    exact ⟨_, exec_call nnn s, zext16_eq_append nnn, fun p =>
      State.fetch_of_readByte (s.readByte_writeBytes_eq_byteAfter s.pushAddr s.returnBytes)⟩

end Sys2Proof.Machine
end

/-! PROOFS. The keypad and the timers (R200 to R207). -/

section
namespace Sys2Proof.Machine

/-! ### The keypad as the instructions read it (R203) -/

theorem State.key_of_fin (s : State) (k : Fin 16) : s.key k = s.keys[k] := s.key_of_lt k.isLt

theorem State.firstKey_eq_some {s : State} {k : Fin 16} (hk : s.keys[k] = true)
    (hlow : ∀ j : Fin 16, j < k → s.keys[j] = false) : s.firstKey = some k := by
  refine List.find?_range_eq_some.2 ⟨(s.key_of_fin k).trans hk, List.mem_range.2 k.isLt, fun j hj => ?_⟩
  have hj' := hlow ⟨j, by omega⟩ hj
  rw [← State.key_of_fin] at hj'
  simpa using hj'

theorem State.firstKey_eq_none {s : State} (h : ∀ k : Fin 16, s.keys[k] = false) : s.firstKey = none := by
  refine List.find?_eq_none.2 fun j hj => ?_
  have hj' := h ⟨j, List.mem_range.1 hj⟩
  rw [← State.key_of_fin] at hj'
  simpa using hj'

/-! ### The key skips and the key wait (R200, R201, R203) -/

/-- Settles O48: a key index selects the branch of the skip, any other value the fault. -/
theorem keySkipsTestTheKeyOrFault : Obligations.KeySkipsTestTheKeyOrFault := by
  unfold Obligations.KeySkipsTestTheKeyOrFault
  intro x s
  refine ⟨fun k hk => ?_, fun hx i hi => ?_⟩
  · have hin : ¬ 0xF < (s.reg x).toNat := by
      have := k.isLt
      omega
    have hkey : s.key (s.reg x).toNat = s.keys[k] := by rw [hk, State.key_of_fin]
    refine ⟨⟨_, exec_skp hin, ?_, s.advance_skipIf_keepsOthers _⟩,
      ⟨_, exec_sknp hin, ?_, s.advance_skipIf_keepsOthers _⟩⟩
    · rw [State.advance_skipIf_pc, hkey]
    · rw [State.advance_skipIf_pc, hkey]
      cases s.keys[k] <;> rfl
  · have hf : faultOf i s = some ⟨.outOfRange, some s.pc, some (encode i), some (s.reg x).toNat⟩ := by
      simp only [List.mem_cons, List.not_mem_nil, or_false] at hi
      rcases hi with rfl | rfl <;> exact keyFault_eq_some.2 ⟨hx, rfl⟩
    exact ⟨_, exec_of_fault hf, rfl, s.enterFault_keepsOthers _⟩

/-- Settles O49: the first pressed key is loaded; with none, `PC` goes back and forth. -/
theorem keyWaitTakesTheLowestKey : Obligations.KeyWaitTakesTheLowestKey := by
  unfold Obligations.KeyWaitTakesTheLowestKey
  intro x s
  refine ⟨fun k hk hlow => ?_, fun hnone => ?_⟩
  · refine ⟨_, exec_ldVxK_some (State.firstKey_eq_some hk hlow), ?_, rfl, s.advance_setReg_keepsOthers x _⟩
    rw [State.setReg_reg_self, BitVec.toNat_ofNat]
    exact Nat.mod_eq_of_lt (by omega)
  · exact ⟨s, exec_ldVxK_none (State.firstKey_eq_none hnone), keepsOthers_refl _ s⟩

/-- A step that waits for a key is the two ends of its turn. -/
theorem step_of_waiting {s : State} {x : Nibble} (hr : s.status = .running) (ht : s.tickPos < s.cfg.ipt)
    (hf : s.fetch = .ok (encode (.ldVxK x))) (hk : ∀ k : Fin 16, s.keys[k] = false) :
    step s = .next s.beginStep.endStep := by
  have hkeys : s.beginStep.firstKey = none := State.firstKey_eq_none (by simpa using hk)
  have he := engineStep_of_decoded (s.beginStep_fetch.trans hf) (decode_encode (i := .ldVxK x) rfl)
  rw [step_of_running hr ht, he, exec_ldVxK_none hkeys]
  rfl

theorem State.endStep_tickPos_lt {s : State} (h : s.tickPos < s.cfg.ipt) : s.endStep.tickPos < s.cfg.ipt := by
  show (if s.status = .running ∧ s.tickPos + 1 < s.cfg.ipt then s.tickPos + 1 else 0) < s.cfg.ipt
  split
  · next hc => exact hc.2
  · omega

theorem State.beginStep_timers_le (s : State) :
    s.beginStep.dt.toNat ≤ s.dt.toNat ∧ s.beginStep.st.toNat ≤ s.st.toNat := by
  rw [State.beginStep_eq]
  split
  · rw [State.timerTick_dt, State.timerTick_st, countDown_toNat, countDown_toNat]
    omega
  · exact ⟨le_refl _, le_refl _⟩

/-- Settles O50: a waiting step leaves a state that waits again, so the run does, by induction on its length. -/
theorem keyWaitSpinsWhileNoKeyIsPressed : Obligations.KeyWaitSpinsWhileNoKeyIsPressed := by
  unfold Obligations.KeyWaitSpinsWhileNoKeyIsPressed
  intro n x
  induction n with
  | zero => exact fun s hr _ _ _ => ⟨s, rfl, hr, keepsOthers_refl _ s, le_refl _, le_refl _⟩
  | succ n ih =>
    intro s hr ht hf hk
    have hend : s.beginStep.endStep.tickPos < s.beginStep.endStep.cfg.ipt :=
      State.endStep_tickPos_lt (by simpa using ht)
    obtain ⟨t, hrun, htr, hkeep, hdt, hst⟩ := ih s.beginStep.endStep (by simpa using hr) hend
      (s.beginStep_fetch.trans hf) (by simpa using hk)
    obtain ⟨bdt, bst⟩ := s.beginStep_timers_le
    have hbe : keepsOthers [.dt, .st, .tickPos] s s.beginStep.endStep :=
      keepsOthers_append s.beginStep_keepsOthers s.beginStep.endStep_keepsOthers
    refine ⟨t, ?_, htr, keepsOthers_trans hbe hkeep, hdt.trans bdt, hst.trans bst⟩
    simp only [run, step_of_waiting hr ht hf hk, hrun]

/-! ### The timer moves (R202, R204, R205, R266) -/

theorem State.soundOn_iff (s : State) : s.soundOn = true ↔ s.st ≠ 0x00#8 := by
  unfold State.soundOn
  rw [decide_eq_true_iff]
  bv_omega

/-- Settles O51: each of the three copies one value. -/
theorem timerMovesCopyTheValue : Obligations.TimerMovesCopyTheValue := by
  unfold Obligations.TimerMovesCopyTheValue
  intro x s
  exact ⟨⟨_, rfl, State.setReg_reg_self _ x _, rfl, s.advance_setReg_keepsOthers x _⟩,
    ⟨_, rfl, rfl, rfl, exec_frame (i := .ldDtVx x) rfl rfl⟩,
    ⟨_, rfl, rfl, rfl, exec_frame (i := .ldStVx x) rfl rfl, State.soundOn_iff _⟩⟩

end Sys2Proof.Machine
end

/-! PROOFS. The display: the scrolls, the draws, drawing twice, and the picture that the outside reads (R171 to R185,
R268). -/

section
namespace Sys2Proof.Machine

/-! ### The scrolls (R173, R174, R178) -/

/-- A change that fills each cell from another or with 0, seen on the active grid. -/
theorem State.onActiveGrid_shift (s : State) {f : (w h : Nat) → Grid w h → Grid w h} {px py qx qy : Nat}
    {p : Nat → Prop} [DecidablePred p]
    (hf : ∀ (w h : Nat) (g : Grid w h), px < w → py < h →
      (f w h g).at px py = if p w then g.at qx qy else 0x00#8)
    (hx : px < s.width) (hy : py < s.height) :
    (s.onActiveGrid f).pixel px py = if p s.width then s.pixel qx qy else 0x00#8 := by
  rw [State.onActiveGrid_pixel]
  unfold State.pixel State.width State.height at *
  cases hm : s.extendedMode with
  | false =>
    simp only [hm, Bool.false_eq_true, if_false] at hx hy ⊢
    exact hf 64 32 s.stdGrid hx hy
  | true =>
    simp only [hm, if_true] at hx hy ⊢
    exact hf 128 64 s.extGrid hx hy

theorem State.scrollAllowed_of {s : State} (h : s.cfg.scrollInStandard = .execute ∨ s.extendedMode = true) :
    s.scrollAllowed = true := by
  unfold State.scrollAllowed
  rcases h with h | h
  · rw [h]
  · cases s.cfg.scrollInStandard <;> simp [h]

theorem State.scrollAllowed_of_fault {s : State} (hc : s.cfg.scrollInStandard = .fault)
    (hm : s.extendedMode = false) : s.scrollAllowed = false := by
  simp [State.scrollAllowed, hc, hm]

/-- Settles O43: where a scroll is allowed it shifts the active grid, and its fault is known where it is not. -/
theorem scrollsShiftTheActiveGridOrFault : Obligations.ScrollsShiftTheActiveGridOrFault := by
  unfold Obligations.ScrollsShiftTheActiveGridOrFault
  intro n s
  refine ⟨fun hc hm i hi => ?_, fun h => ?_⟩
  · have hf : faultOf i s = some ⟨.invalidOpcode, some s.pc, some (encode i), none⟩ := by
      have hs := scrollFault_eq_some (i := i).2 ⟨State.scrollAllowed_of_fault hc hm, rfl⟩
      simp only [List.mem_cons, List.not_mem_nil, or_false] at hi
      rcases hi with rfl | rfl | rfl <;> exact hs
    exact ⟨_, exec_of_fault hf, rfl, s.enterFault_keepsOthers _⟩
  · have ha := State.scrollAllowed_of h
    have pc (f) : (s.advance.onActiveGrid f).pc = s.pc + 2#16 := s.advance.onActiveGrid_pc f
    have frame (f) := s.advance_onActiveGrid_keepsOthers f
    refine ⟨⟨_, exec_scd ha, pc _, frame _, fun px py hx hy => ?_⟩,
      ⟨_, exec_scr ha, pc _, frame _, fun px py hx hy => ?_⟩, ⟨_, exec_scl ha, pc _, frame _, fun px py hx hy => ?_⟩⟩
    · exact s.advance.onActiveGrid_shift (p := fun _ => n.toNat ≤ py)
        (fun _ _ g hx hy => Grid.at_scrollDown n.toNat g hx hy) hx hy
    · exact s.advance.onActiveGrid_shift (p := fun _ => 4 ≤ px)
        (fun _ _ g hx hy => Grid.at_scrollRight4 g hx hy) hx hy
    · have hw : px ≤ s.width - 5 ↔ px + 4 < s.width := by
        unfold State.width
        split <;> omega
      simp only [hw]
      exact s.advance.onActiveGrid_shift (p := fun w => px + 4 < w)
        (fun _ _ g hx hy => Grid.at_scrollLeft4 g hx hy) hx hy

/-! ### The draws (R171, R172) -/

/-- The cells under a 1 bit of the rows that a draw by `V[x]`, `V[y]` paints. -/
def State.litBySprite {k : Nat} (s : State) (x y : Nibble) (rows : List (BitVec k)) : Nat → Nat → Bool :=
  litByRows s.width s.height (s.drawCoord x) (s.drawCoord y) rows

theorem State.litBySprite_readBytes (s : State) (x y : Nibble) (n : Nat) :
    s.litBySprite x y (s.readBytes s.indexAddr n) = s.litBy8 (s.drawCoord x) (s.drawCoord y) n := by
  funext px py
  exact s.litByRows_readBytes _ _ n px py

theorem State.litBySprite_readWords (s : State) (x y : Nibble) :
    s.litBySprite x y (s.readWords s.indexAddr 16) = s.litBy16 (s.drawCoord x) (s.drawCoord y) := by
  funext px py
  exact s.litByRows_readWords _ _ px py

/-- What a draw instruction does: it toggles the cells of `lit`, advances, and leaves everything else. -/
structure Draws (s t : State) (lit : Nat → Nat → Bool) : Prop where
  drawn : s.drawnBy t lit
  pc    : t.pc = s.pc + 2#16
  frame : keepsOthers [.pc, .reg vf, s.activePart] s t

theorem State.draws_drawSprite {k : Nat} (s : State) (x y : Nibble) {rows : List (BitVec k)} (hk : k ≤ 16)
    (hl : rows.length ≤ 16) : Draws s (s.advance.drawSprite x y rows) (s.litBySprite x y rows) where
  drawn := s.advance.drawSprite_drawnBy x y rows hk hl
  pc := s.advance.drawSprite_keepsOthers x y rows .pc (by simp [s.ne_activePart])
  frame := s.advance_drawSprite_keepsOthers x y rows

/-- A standard-mode `Dxy0` draws nothing (R177, D23). -/
theorem State.draws_nothing (s : State) : Draws s (s.advance.setReg vf 0x00#8) fun _ _ => false where
  drawn := by
    refine ⟨fun _ _ _ _ => rfl, ?_, fun _ => State.setReg_reg_self _ _ _⟩
    rintro ⟨_, _, _, _, h, _⟩
    cases h
  pc := rfl
  frame := keepsOthers_mono (s.advance_setReg_keepsOthers vf _) (by simp)

theorem State.readBytes_length (s : State) (a n : Nat) : (s.readBytes a n).length = n := by
  simp [State.readBytes]

theorem State.readWords_length (s : State) (a n : Nat) : (s.readWords a n).length = n := by
  simp [State.readWords]

theorem exec_drw_draws (x y n : Nibble) {s : State} (h : s.index.toNat + n.toNat ≤ 4096) :
    ∃ t, exec (.drw x y n) s = .next t ∧ Draws s t (s.litBySprite x y (s.readBytes s.indexAddr n.toNat)) := by
  have hn := n.isLt
  exact ⟨_, exec_drw (firstOutOfRange_none h), s.draws_drawSprite x y (by omega)
    (by rw [State.readBytes_length]; omega)⟩

theorem exec_drw16_draws (x y : Nibble) {s : State} (hm : s.extendedMode = true) (h : s.index.toNat + 32 ≤ 4096) :
    ∃ t, exec (.drw16 x y) s = .next t ∧ Draws s t (s.litBySprite x y (s.readWords s.indexAddr 16)) :=
  ⟨_, exec_drw16_extended hm (firstOutOfRange_none h), s.draws_drawSprite x y (le_refl _)
    (by rw [State.readWords_length])⟩

/-- Settles O44: the rows of the draw are the bytes at `I`. -/
theorem drawTogglesTheSprite : Obligations.DrawTogglesTheSprite := by
  unfold Obligations.DrawTogglesTheSprite
  intro x y n s h
  obtain ⟨t, ht, hdrawn, hpc, hframe⟩ := exec_drw_draws x y n h
  rw [State.litBySprite_readBytes] at hdrawn
  exact ⟨t, ht, hdrawn, hpc, hframe⟩

/-- Settles O45: in extended mode the rows are the words at `I`; in standard mode only `VF` is written. -/
theorem draw16TogglesTheSpriteInExtendedModeOnly : Obligations.Draw16TogglesTheSpriteInExtendedModeOnly := by
  unfold Obligations.Draw16TogglesTheSpriteInExtendedModeOnly
  intro x y s
  refine ⟨fun hm h => ?_, fun hm => ?_⟩
  · obtain ⟨t, ht, hdrawn, hpc, hframe⟩ := exec_drw16_draws x y hm h
    have hpart : s.activePart = .extGrid := if_pos hm
    rw [State.litBySprite_readWords] at hdrawn
    rw [hpart] at hframe
    exact ⟨t, ht, hdrawn, hpc, hframe⟩
  · exact ⟨_, exec_drw16_standard hm, State.setReg_reg_self _ _ _, rfl, s.advance_setReg_keepsOthers vf _⟩

end Sys2Proof.Machine
end

/-! PROOFS. Drawing the same sprite twice (R185), and the picture that the outside reads (R179, R268). -/

section
namespace Sys2Proof.Machine

/-! ### What a draw leaves alone -/

section
variable {s t u : State} {lit : Nat → Nat → Bool}

theorem Draws.keeps (h : Draws s t lit) {p : Part} (hpc : p ≠ .pc) (hvf : p ≠ .reg vf) (hstd : p ≠ .stdGrid)
    (hext : p ≠ .extGrid) : p.same s t :=
  h.frame p (by simp [hpc, hvf, s.ne_activePart hstd hext])

theorem Draws.mode (h : Draws s t lit) : t.extendedMode = s.extendedMode :=
  h.keeps (p := .mode) (by simp) (by simp) (by simp) (by simp)

theorem Draws.cfg (h : Draws s t lit) : t.cfg = s.cfg :=
  h.keeps (p := .cfg) (by simp) (by simp) (by simp) (by simp)

theorem Draws.index (h : Draws s t lit) : t.index = s.index :=
  h.keeps (p := .index) (by simp) (by simp) (by simp) (by simp)

theorem Draws.reg (h : Draws s t lit) {x : Nibble} (hx : x ≠ vf) : t.reg x = s.reg x :=
  h.keeps (p := .reg x) (by simp) (by simpa using hx) (by simp) (by simp)

theorem Draws.readByte (h : Draws s t lit) (a : Nat) : t.readByte a = s.readByte a :=
  h.keeps (p := .byte a) (by simp) (by simp) (by simp) (by simp)

theorem Draws.width (h : Draws s t lit) : t.width = s.width := by rw [State.width, State.width, h.mode]

theorem Draws.height (h : Draws s t lit) : t.height = s.height := by rw [State.height, State.height, h.mode]

theorem Draws.activePart (h : Draws s t lit) : t.activePart = s.activePart := by
  rw [State.activePart, State.activePart, h.mode]

theorem Draws.readBytes (h : Draws s t lit) (n : Nat) :
    t.readBytes t.indexAddr n = s.readBytes s.indexAddr n := by
  simp only [State.readBytes, State.indexAddr, h.index, h.readByte]

theorem Draws.readWords (h : Draws s t lit) (n : Nat) :
    t.readWords t.indexAddr n = s.readWords s.indexAddr n := by
  simp only [State.readWords, State.indexAddr, h.index, h.readByte]

/-- A coordinate is as before unless the draw has overwritten it: not away from `VF`, and not where the reset of
`VF` comes before the read (D15). -/
theorem Draws.drawCoord (h : Draws s t lit) {x : Nibble}
    (hx : x ≠ vf ∨ s.cfg.flagWriteOrder = .flagThenResult) : t.drawCoord x = s.drawCoord x := by
  unfold State.drawCoord
  rw [h.cfg]
  by_cases hvf : x = vf
  · rw [hx.resolve_left (not_not_intro hvf)]
    simp only [hvf, if_true]
  · rw [h.reg hvf]

/-- At the same place the same rows light the same cells. -/
theorem Draws.litBySprite (h : Draws s t lit) {k : Nat} {x y : Nibble} (hx : t.drawCoord x = s.drawCoord x)
    (hy : t.drawCoord y = s.drawCoord y) (rows : List (BitVec k)) :
    t.litBySprite x y rows = s.litBySprite x y rows := by
  rw [State.litBySprite, State.litBySprite, h.width, h.height, hx, hy]

/-! ### What a draw leaves in the grids and in `VF` -/

/-- `VF` is 1 exactly if a lit cell was on. -/
theorem State.drawnBy.vf_eq_one_iff (h : s.drawnBy t lit) :
    t.reg vf = 0x01#8 ↔ ∃ px py, px < s.width ∧ py < s.height ∧ lit px py = true ∧ s.pixel px py = 0xFF#8 := by
  obtain ⟨-, hon, hoff⟩ := h
  refine ⟨fun hv => ?_, hon⟩
  by_contra hc
  rw [hoff hc] at hv
  cases hv

/-- Two states with the same cells of the active grid, and else the frame of a draw, have the same grids. -/
theorem grids_eq_of_pixel (hm : u.extendedMode = s.extendedMode)
    (hk : keepsOthers [.pc, .reg vf, s.activePart] s u)
    (hp : ∀ px py, px < s.width → py < s.height → u.pixel px py = s.pixel px py) :
    u.stdGrid = s.stdGrid ∧ u.extGrid = s.extGrid := by
  unfold State.pixel State.width State.height at hp
  rw [hm] at hp
  cases hs : s.extendedMode with
  | false =>
    simp only [hs, Bool.false_eq_true, if_false] at hp
    exact ⟨Grid.ext_at hp, hk .extGrid (by simp [State.activePart, hs])⟩
  | true =>
    simp only [hs, if_true] at hp
    exact ⟨hk .stdGrid (by simp [State.activePart, hs]), Grid.ext_at hp⟩

/-- A draw of no cell leaves the grids as they were, and `VF = 0`. -/
theorem Draws.of_dark (h : Draws s t lit)
    (hdark : ∀ px py, px < s.width → py < s.height → lit px py = false) :
    t.stdGrid = s.stdGrid ∧ t.extGrid = s.extGrid ∧ t.reg vf = 0x00#8 := by
  obtain ⟨hpix, -, hoff⟩ := h.drawn
  have hgrids := grids_eq_of_pixel h.mode h.frame fun px py hx hy => by simp [hpix px py hx hy, hdark px py hx hy]
  refine ⟨hgrids.1, hgrids.2, hoff ?_⟩
  rintro ⟨px, py, hx, hy, hl, -⟩
  rw [hdark px py hx hy] at hl
  cases hl

theorem xor_FF_eq_FF_iff (b : Byte) : b ^^^ 0xFF#8 = 0xFF#8 ↔ b = 0x00#8 := by
  revert b
  decide

/-- A second draw of the same cells toggles them back. -/
theorem Draws.twice_grids (h : Draws s t lit) (k : Draws t u lit) :
    u.stdGrid = s.stdGrid ∧ u.extGrid = s.extGrid := by
  have hframe := k.frame
  rw [h.activePart] at hframe
  refine grids_eq_of_pixel (k.mode.trans h.mode) (keepsOthers_trans h.frame hframe) fun px py hx hy => ?_
  have h1 := h.drawn.1 px py hx hy
  have h2 := k.drawn.1 px py (by rwa [h.width]) (by rwa [h.height])
  rw [h2, h1]
  split
  · rw [BitVec.xor_assoc, BitVec.xor_self, BitVec.xor_zero]
  · rfl

/-- … and collides where one of them was off before the first. -/
theorem Draws.twice_vf (h : Draws s t lit) (k : Draws t u lit) :
    u.reg vf = 0x01#8 ↔ ∃ px py, px < s.width ∧ py < s.height ∧ lit px py = true ∧ s.pixel px py = 0x00#8 := by
  rw [k.drawn.vf_eq_one_iff, h.width, h.height]
  refine exists_congr fun px => exists_congr fun py => and_congr_right fun hx => and_congr_right fun hy =>
    and_congr_right fun hl => ?_
  rw [h.drawn.1 px py hx hy, if_pos hl, xor_FF_eq_FF_iff]

theorem Draws.vf_cases (h : Draws s t lit) : t.reg vf = 0x01#8 ∨ t.reg vf = 0x00#8 := by
  obtain ⟨-, hon, hoff⟩ := h.drawn
  exact (em _).imp hon hoff

end

/-! ### Sprites without a 1 bit -/

theorem append_eq_zero_iff (a b : Byte) : a ++ b = 0#16 ↔ a = 0x00#8 ∧ b = 0x00#8 := by
  constructor
  · intro h
    have ha := highByte_append a b
    have hb := lowByte_append a b
    rw [h] at ha hb
    exact ⟨ha.symm, hb.symm⟩
  · rintro ⟨rfl, rfl⟩
    rfl

theorem State.width_height_le (s : State) : 16 ≤ s.width ∧ 16 ≤ s.height := by
  unfold State.width State.height
  cases s.extendedMode <;> decide

/-- A sprite of bytes lights a cell exactly if one of its bytes is not 0. -/
theorem State.litBySprite_readBytes_exists (s : State) (x y : Nibble) {n : Nat} (hn : n ≤ 16) :
    (∃ px py, px < s.width ∧ py < s.height ∧ s.litBySprite x y (s.readBytes s.indexAddr n) px py = true) ↔
      ∃ k, k < n ∧ s.readByte (s.index.toNat + k) ≠ 0x00#8 := by
  obtain ⟨hw, hh⟩ := s.width_height_le
  refine (litByRows_exists (s.readBytes s.indexAddr n) (by omega) (by rw [State.readBytes_length]; omega)).trans ?_
  simp [State.readBytes, State.indexAddr]

/-- The same for the words of a 16×16 sprite. -/
theorem State.litBySprite_readWords_exists (s : State) (x y : Nibble) :
    (∃ px py, px < s.width ∧ py < s.height ∧ s.litBySprite x y (s.readWords s.indexAddr 16) px py = true) ↔
      ∃ k, k < 32 ∧ s.readByte (s.index.toNat + k) ≠ 0x00#8 := by
  obtain ⟨hw, hh⟩ := s.width_height_le
  refine (litByRows_exists (s.readWords s.indexAddr 16) hw (by rwa [State.readWords_length])).trans ?_
  simp only [State.readWords, State.indexAddr, List.mem_map, List.mem_range, exists_exists_and_eq_and]
  constructor
  · rintro ⟨r, hr, hne⟩
    by_cases hhigh : s.readByte (s.index.toNat + 2 * r) = 0x00#8
    · refine ⟨2 * r + 1, by omega, fun hlow => hne ((append_eq_zero_iff _ _).2 ⟨hhigh, hlow⟩)⟩
    · exact ⟨2 * r, by omega, hhigh⟩
  · rintro ⟨k, hk, hne⟩
    refine ⟨k / 2, by omega, fun hz => hne ?_⟩
    obtain ⟨hhigh, hlow⟩ := (append_eq_zero_iff _ _).1 hz
    rcases Nat.mod_two_eq_zero_or_one k with he | ho
    · rw [← hhigh]
      congr 1
      omega
    · rw [← hlow]
      congr 1
      omega

/-! ### Drawing twice (R185) -/

/-- What two draws in a row leave, whichever form they are: `lit` and `lit'` are the cells of the first and of the
second, which are the same where the place is. -/
theorem Draws.twice {s t u : State} {x y : Nibble} {lit lit' : Nat → Nat → Bool} {len : Nat} (h : Draws s t lit)
    (k : Draws t u lit')
    (hlit : t.drawCoord x = s.drawCoord x → t.drawCoord y = s.drawCoord y → lit' = lit)
    (hbits : (∃ px py, px < s.width ∧ py < s.height ∧ lit px py = true) ↔
      ∃ k, k < len ∧ s.readByte (s.index.toNat + k) ≠ 0x00#8) :
    ((x ≠ vf ∧ y ≠ vf) ∨ s.cfg.flagWriteOrder = .flagThenResult →
        t.drawCoord x = s.drawCoord x ∧ t.drawCoord y = s.drawCoord y) ∧
      (t.drawCoord x = s.drawCoord x → t.drawCoord y = s.drawCoord y →
        u.stdGrid = s.stdGrid ∧ u.extGrid = s.extGrid ∧
        (u.reg vf = 0x01#8 ∨ u.reg vf = 0x00#8) ∧
        (u.reg vf = 0x01#8 ↔ ∃ px py, px < s.width ∧ py < s.height ∧ lit px py = true ∧
          s.pixel px py = 0x00#8) ∧
        ((∀ px py, px < s.width → py < s.height → lit px py = true → s.pixel px py = 0x00#8) →
          (u.reg vf = 0x01#8 ↔ ∃ k, k < len ∧ s.readByte (s.index.toNat + k) ≠ 0x00#8))) ∧
      ((∀ k, k < len → s.readByte (s.index.toNat + k) = 0x00#8) →
        t.stdGrid = s.stdGrid ∧ t.extGrid = s.extGrid ∧ t.reg vf = 0x00#8) := by
  refine ⟨fun hc => ⟨h.drawCoord (hc.imp_left And.left), h.drawCoord (hc.imp_left And.right)⟩,
    fun hx hy => ?_, fun hzero => h.of_dark fun px py hpx hpy => ?_⟩
  · obtain rfl := hlit hx hy
    obtain ⟨hstd, hext⟩ := h.twice_grids k
    have hvf := h.twice_vf k
    refine ⟨hstd, hext, k.vf_cases, hvf, fun hoff => ?_⟩
    rw [hvf, ← hbits]
    exact exists_congr fun px => exists_congr fun py => and_congr_right fun hpx => and_congr_right fun hpy =>
      and_iff_left_of_imp (hoff px py hpx hpy)
  · rw [Bool.eq_false_iff]
    intro hl
    obtain ⟨k, hk, hne⟩ := hbits.1 ⟨px, py, hpx, hpy, hl⟩
    exact hne (hzero k hk)

/-- Settles O46: for each form, two draws with the same rows. -/
theorem drawingTwiceRestoresTheGrid : Obligations.DrawingTwiceRestoresTheGrid := by
  unfold Obligations.DrawingTwiceRestoresTheGrid
  intro x y n s i len lit h
  rcases h with ⟨rfl, rfl, rfl, hin⟩ | ⟨hm, rfl, rfl, rfl, hin⟩ | ⟨hm, rfl, rfl, rfl⟩
  · obtain ⟨t, ht, hd⟩ := exec_drw_draws x y n hin
    obtain ⟨u, hu, hd'⟩ := exec_drw_draws x y n (s := t) (by rwa [hd.index])
    rw [hd.readBytes] at hd'
    have hn := n.isLt
    rw [← State.litBySprite_readBytes]
    exact ⟨t, u, ht, hu, hd.twice hd' (fun hx hy => hd.litBySprite hx hy _)
      (s.litBySprite_readBytes_exists x y (by omega))⟩
  · obtain ⟨t, ht, hd⟩ := exec_drw16_draws x y hm hin
    obtain ⟨u, hu, hd'⟩ := exec_drw16_draws x y (s := t) (hd.mode.trans hm) (by rwa [hd.index])
    rw [hd.readWords] at hd'
    rw [← State.litBySprite_readWords]
    exact ⟨t, u, ht, hu, hd.twice hd' (fun hx hy => hd.litBySprite hx hy _) (s.litBySprite_readWords_exists x y)⟩
  · have hd := s.draws_nothing
    have hbits : (∃ px py, px < s.width ∧ py < s.height ∧ false = true) ↔
        ∃ k, k < 0 ∧ s.readByte (s.index.toNat + k) ≠ 0x00#8 := by simp
    exact ⟨_, _, exec_drw16_standard hm, exec_drw16_standard (hd.mode.trans hm),
      hd.twice (State.draws_nothing _) (fun _ _ => rfl) hbits⟩

/-! ### The picture (R179, R268) -/

/-- An entry of rows of equal length put one after another. -/
theorem getElem?_flatten_of_length {α : Type} {w : Nat} {rows : List (List α)} (hl : ∀ r ∈ rows, r.length = w)
    {x y : Nat} (hx : x < w) {r : List α} (hr : rows[y]? = some r) : rows.flatten[y * w + x]? = r[x]? := by
  induction rows generalizing y with
  | nil => simp at hr
  | cons q rows ih =>
    have hq : q.length = w := hl q List.mem_cons_self
    cases y with
    | zero =>
      obtain rfl : q = r := by simpa using hr
      rw [List.flatten_cons, List.getElem?_append_left (by omega), Nat.zero_mul, Nat.zero_add]
    | succ y =>
      have hs : (y + 1) * w + x - q.length = y * w + x := by
        rw [hq, Nat.succ_mul]
        omega
      rw [List.flatten_cons, List.getElem?_append_right (by rw [hq, Nat.succ_mul]; omega), hs]
      exact ih (fun r hr => hl r (List.mem_cons_of_mem q hr)) (by simpa using hr)

theorem Grid.bytes_length {w h : Nat} (g : Grid w h) : g.bytes.length = w * h := by
  simp [Grid.bytes, List.length_flatten, Function.comp_def, Nat.mul_comm]

theorem Grid.bytes_getElem? {w h : Nat} (g : Grid w h) {x y : Nat} (hx : x < w) (hy : y < h) :
    g.bytes[y * w + x]? = some (g.at x y) := by
  have hrow : (g.rows.toList.map (·.toList))[y]? = some g.rows[y].toList := by simp [hy]
  have hlen : ∀ r ∈ g.rows.toList.map (·.toList), r.length = w := by
    intro r hr
    obtain ⟨q, -, rfl⟩ := List.mem_map.1 hr
    exact Vector.length_toList
  rw [Grid.bytes, getElem?_flatten_of_length hlen hx hrow, Grid.at_of_lt g hx hy]
  simp [hx]

/-- Settles O47: the bytes of the active grid are its rows one after another. -/
theorem pictureIsRowMajorAtTickBoundaries : Obligations.PictureIsRowMajorAtTickBoundaries := by
  unfold Obligations.PictureIsRowMajorAtTickBoundaries
  intro s
  refine ⟨fun h => if_neg h, fun h => ⟨_, if_pos h, rfl, rfl, rfl, ?_⟩⟩
  unfold State.pixel State.width State.height
  cases s.extendedMode with
  | false => exact ⟨Grid.bytes_length _, fun px py hx hy => Grid.bytes_getElem? _ hx hy⟩
  | true => exact ⟨Grid.bytes_length _, fun px py hx hy => Grid.bytes_getElem? _ hx hy⟩

end Sys2Proof.Machine
end
